-- ==== Sys2Proof/Word.lean ====
section
/-! DEFINITION. The word types of SEQ (spec/00_scope.md R8 to R10): every value is an unsigned
integer of a stated width, bit 0 the least significant. -/

namespace Sys2Proof

/-- A byte: what one exchange carries each way (R9, R50). -/
abbrev Byte := BitVec 8

/-- A flash address, W_ADDR = W_ARG = 24 bits (R8). -/
abbrev Addr := BitVec 24

/-- A 32-bit value: W_CAP, W_CLK, the command word and the response value (R8, R80, R84). -/
abbrev Word := BitVec 32

end Sys2Proof
end

