-- ==== Sys2Proof/Config.lean ====
section
/-! DEFINITION. What an instance of SEQ fixes (spec/00_scope.md R8), the constants of the wire
(spec/30_encoding.md R90), the parameters of the reference chip (spec/20_memory.md R71) and the free
values: opaque constants with no body, about which nothing can be proved. -/

namespace Sys2Proof

/-- The model arguments of R8, in milliseconds. They are a field of State that no step changes, so
that a claim over all states holds for every instance (log 3). -/
structure Params where
  /-- T_DEFAULT, OPEN: 1 to 999 (R8, `Params.legal`). -/
  tDefault : Word
  /-- T_SECTOR, the wait after a sector erase. -/
  tSector  : Word
  /-- T_CHIP, the wait after a chip erase. -/
  tChip    : Word
  /-- T_SETTLE, OPEN: the settling delay after a page program. -/
  tSettle  : Word
  deriving DecidableEq, Repr

/-- The one constraint R8 states on the parameters: 1 <= T_DEFAULT <= 999. -/
def Params.legal (p : Params) : Bool := 1 ≤ p.tDefault.toNat && p.tDefault.toNat ≤ 999

/-- How many status reads still answer BUSY = 1; INF never ends (R71, R72). -/
inductive BusyCount where
  | left (n : Nat)
  | inf
  deriving DecidableEq, Repr, Inhabited

/-- SIZE is one of five numbers of bytes (R71). -/
inductive ChipSize where
  | mib1 | mib2 | mib4 | mib8 | mib16
  deriving DecidableEq, Repr

/-- The parameters of the reference chip RefFlash (R71). -/
structure ChipParams where
  /-- SIZE, the number of bytes. -/
  size  : ChipSize
  /-- IDV, the identifier the chip reports. -/
  idv   : BitVec 24
  /-- KP, KS, KC: BUSY answers after a page program, a sector erase, a chip erase. -/
  kp    : BusyCount
  ks    : BusyCount
  kc    : BusyCount
  /-- LATCH: whether the enable frame sets the latch. -/
  latch : Bool
  deriving DecidableEq, Repr

namespace Config

/-- DUMMY, the byte SEQ sends when it exchanges only to receive (R8, D6). -/
def dummy : Byte := 0x00

/-- PAGE and SECTOR, in bytes (R8). -/
def pageSize : Nat := 256
def sectorSize : Nat := 4096

/-- The eight wire opcodes (R90). -/
def opPageProgram  : Byte := 0x02
def opReadData     : Byte := 0x03
def opWriteDisable : Byte := 0x04
def opReadStatus   : Byte := 0x05
def opWriteEnable  : Byte := 0x06
def opSectorErase  : Byte := 0x20
def opChipErase    : Byte := 0x60
def opReadId       : Byte := 0x90

/-- ERASED and FILL of the reference chip (R71; log 9). -/
def erased : Byte := 0xFF
def fill   : Byte := 0xFF

/-- Free value: T_DEFAULT less 1, the document gives no number (R8, N4; log 3). -/
opaque tDefaultIndex : Fin 999

/-- Free value: T_SETTLE, the document gives no number (R8, N5; log 3). -/
opaque tSettleOpen : Word

/-- The parameters the reset state carries: the shown defaults of R8 for T_SECTOR and T_CHIP, the
open ones opaque (log 3). -/
def params : Params :=
  { tDefault := BitVec.ofNat 32 (tDefaultIndex.val + 1)
    tSector  := 1000
    tChip    := 10000
    tSettle  := tSettleOpen }

/-- DESIGN CHOICE (log 8): the chip the reset state is attached to, the one of program P1 of
spec/95_test_vectors.md. -/
def chipParams : ChipParams :=
  { size := .mib8, idv := 0xEF4017, kp := .left 0, ks := .left 0, kc := .left 0, latch := true }

/-- Free value: RSP.VAL where the spec leaves it unspecified (R28, R86, U10; log 2). -/
opaque anyVal : Nat → Word

/-- Free value: a byte the chip answers past its last byte (R66, R209, U2; log 12). -/
opaque anyByte : Nat → Byte

/-- Free value: a page byte that a buffer shorter than 256 bytes lacks; the host must always supply
256 (R33; log 13). -/
opaque anyPageByte : Nat → Byte

/-- Free value: what a byte of a region left `any value` holds, by occasion and address (R52, R158,
R165, U1, U5, U15; log 11). -/
opaque anyContent : Nat → Nat → Byte

/-- Free values: the chip's BUSY and latch after a closing wait that failed and after a reset in the
middle of a command (R158, R165, R201, U1, U5, U15; log 11). -/
opaque anyBusy : Nat → BusyCount
opaque anyLatch : Nat → Bool

/-- Free value: the milliseconds, less one, that pass before a clock sample for which State lists no
advance; 16 bits keep R190 (b), the added one gives R190 (c) (log 6). -/
opaque anyGap : Nat → BitVec 16

end Config

end Sys2Proof
end

