-- ==== Sys2Proof/Syntax.lean ====
section
/-! DEFINITION. The two instruction spaces of spec/opcode_table.json: the ten host commands
(spec/30_encoding.md R80 to R82) and the eight wire opcodes, each with the operands of its frame
layout (R88, R90). -/

namespace Sys2Proof

/-- One constructor per row of the opcode table. A host command keeps every field of its command
word, RSV and an unused ARG among them (R80, R96), so that a word and its instruction say the same.
A wire row is one whole frame (R87, R88). -/
inductive Instr where
  /-- INIT, form N (R130). -/
  | init (rsv : BitVec 4) (arg : Addr)
  /-- WAIT_READY, form T: `arg` is the timeout in milliseconds (R137). -/
  | waitReady (rsv : BitVec 4) (arg : Addr)
  /-- WRITE_ENABLE, form N (R149). -/
  | writeEnable (rsv : BitVec 4) (arg : Addr)
  /-- WRITE_DISABLE, form N (R150). -/
  | writeDisable (rsv : BitVec 4) (arg : Addr)
  /-- ERASE_CHIP, form N (R153). -/
  | eraseChip (rsv : BitVec 4) (arg : Addr)
  /-- ERASE_SECTOR, form A: `arg` is the byte address (R155). -/
  | eraseSector (rsv : BitVec 4) (arg : Addr)
  /-- WRITE_PAGE, form AP: `arg` is the byte address, `buf` the host's page buffer (R161). -/
  | writePage (rsv : BitVec 4) (arg : Addr) (buf : List Byte)
  /-- BEGIN_READ, form A: `arg` is the byte address (R167). -/
  | beginRead (rsv : BitVec 4) (arg : Addr)
  /-- READ_NEXT, form N (R169). -/
  | readNext (rsv : BitVec 4) (arg : Addr)
  /-- END_READ, form N (R171). -/
  | endRead (rsv : BitVec 4) (arg : Addr)
  /-- W_PAGE_PROGRAM, layout L4: `page` is `a[23:8]`, the low address byte is 0x00 (R88, R89). -/
  | wPageProgram (page : BitVec 16) (data : List Byte)
  /-- W_READ_DATA, layout L5 with `n` data bytes (R88, R91). -/
  | wReadData (a : Addr) (n : Nat)
  /-- W_WRITE_DISABLE, layout L1 (R88). -/
  | wWriteDisable
  /-- W_READ_STATUS_1, layout L2 (R88). -/
  | wReadStatus1
  /-- W_WRITE_ENABLE, layout L1 (R88). -/
  | wWriteEnable
  /-- W_SECTOR_ERASE_4K, layout L3 (R88). -/
  | wSectorErase4k (a : Addr)
  /-- W_CHIP_ERASE, layout L1 (R88). -/
  | wChipErase
  /-- W_READ_IDENTIFICATION, layout L6 (R88). -/
  | wReadIdentification
  deriving DecidableEq, Repr

/-- An encoded instruction: a command word with the page buffer the host holds beside it (R80, R33),
or the bytes of one frame (R87). -/
inductive Request where
  | command (cw : Word) (buf : List Byte)
  | frame (bytes : List Byte)
  deriving DecidableEq, Repr

end Sys2Proof
end

