-- ==== Sys2Proof/WellFormed.lean ====
section
/-! DEFINITION. When an instruction is well formed: the page buffer of WRITE_PAGE and the data of a
page-program frame are exactly 256 bytes (spec/10_state.md R33, spec/45_page_write.md R162). Every
other operand is in range by its type. -/

namespace Sys2Proof

/-- The checks on an instruction's operands. -/
def Instr.wellFormed : Instr → Bool
  | .writePage _ _ buf => buf.length == Config.pageSize
  | .wPageProgram _ data => data.length == Config.pageSize
  | .init _ _ => true
  | .waitReady _ _ => true
  | .writeEnable _ _ => true
  | .writeDisable _ _ => true
  | .eraseChip _ _ => true
  | .eraseSector _ _ => true
  | .beginRead _ _ => true
  | .readNext _ _ => true
  | .endRead _ _ => true
  | .wReadData _ _ => true
  | .wWriteDisable => true
  | .wReadStatus1 => true
  | .wWriteEnable => true
  | .wSectorErase4k _ => true
  | .wChipErase => true
  | .wReadIdentification => true

end Sys2Proof
end

