-- ==== Sys2Proof/Decode.lean ====
section
/-! DEFINITION. The decoder and the encoder of both spaces: the command word (spec/30_encoding.md R80
to R83, R95, R96) and the frame (R87 to R91). Decoding is total and rejects by name. -/

namespace Sys2Proof

/-- Why a request is no instruction. -/
inductive DecodeError where
  /-- OP is 0x0 or 0xB to 0xF: no command, answered ILLEGAL (R95). -/
  | illegalCode (op : BitVec 4)
  /-- The page buffer of a WRITE_PAGE is not 256 bytes (R33). -/
  | pageLength (n : Nat)
  /-- A frame holds one or more exchanges (R87). -/
  | emptyFrame
  /-- The first byte of the frame is none of the eight opcodes (R90, R97). -/
  | unknownOpcode (op : Byte)
  /-- The frame is shorter or longer than its layout (R88, R91). -/
  | frameLength (op : Byte) (n : Nat)
  /-- A page-program frame whose low address byte is not 0x00 (R89, R163). -/
  | lowAddressByte (b : Byte)
  /-- A byte that SEQ sends only to receive is not DUMMY (R8, R88). -/
  | notDummy (op : Byte)
  deriving DecidableEq, Repr

/-! ## The command word -/

/-- The fields of the command word (R80). -/
def cwOp (cw : Word) : BitVec 4 := cw.extractLsb' 28 4
def cwRsv (cw : Word) : BitVec 4 := cw.extractLsb' 24 4
def cwArg (cw : Word) : Addr := cw.extractLsb' 0 24

/-- The command word of OP, RSV and ARG (R80). -/
def mkCommandWord (op rsv : BitVec 4) (arg : Addr) : Word := (op ++ rsv ++ arg : BitVec 32)

/-- The command a word selects: by OP alone (R81, R82); OP 0x0 and 0xB to 0xF select none (R95). -/
def decodeCommand (cw : Word) (buf : List Byte) : Except DecodeError Instr :=
  match cwOp cw with
  | 0x1#4 => .ok (.init (cwRsv cw) (cwArg cw))
  | 0x2#4 => .ok (.waitReady (cwRsv cw) (cwArg cw))
  | 0x3#4 => .ok (.writeEnable (cwRsv cw) (cwArg cw))
  | 0x4#4 => .ok (.writeDisable (cwRsv cw) (cwArg cw))
  | 0x5#4 => .ok (.eraseChip (cwRsv cw) (cwArg cw))
  | 0x6#4 => .ok (.eraseSector (cwRsv cw) (cwArg cw))
  | 0x7#4 =>
    if buf.length = Config.pageSize then .ok (.writePage (cwRsv cw) (cwArg cw) buf)
    else .error (.pageLength buf.length)
  | 0x8#4 => .ok (.beginRead (cwRsv cw) (cwArg cw))
  | 0x9#4 => .ok (.readNext (cwRsv cw) (cwArg cw))
  | 0xA#4 => .ok (.endRead (cwRsv cw) (cwArg cw))
  | op => .error (.illegalCode op)

/-! ## Frames -/

/-- Layout L1: the opcode alone. -/
def layoutL1 (op : Byte) (i : Instr) (rest : List Byte) : Except DecodeError Instr :=
  match rest with
  | [] => .ok i
  | _ :: _ => .error (.frameLength op (rest.length + 1))

/-- Layouts L2 and L6: the opcode and `n` DUMMY bytes. -/
def layoutDummies (op : Byte) (n : Nat) (i : Instr) (rest : List Byte) : Except DecodeError Instr :=
  if rest.length = n then
    if rest.all (· == Config.dummy) then .ok i else .error (.notDummy op)
  else .error (.frameLength op (rest.length + 1))

/-- Layout L3: the opcode and three address bytes, high first. -/
def layoutL3 (op : Byte) (mk : Addr → Instr) (rest : List Byte) : Except DecodeError Instr :=
  match rest with
  | [a2, a1, a0] => .ok (mk (a2 ++ a1 ++ a0 : BitVec 24))
  | _ => .error (.frameLength op (rest.length + 1))

/-- Layout L4: the opcode, two address bytes, 0x00 and 256 data bytes. -/
def layoutL4 (op : Byte) (rest : List Byte) : Except DecodeError Instr :=
  match rest with
  | a2 :: a1 :: a0 :: data =>
    if a0 = 0x00#8 then
      if data.length = Config.pageSize then .ok (.wPageProgram (a2 ++ a1 : BitVec 16) data)
      else .error (.frameLength op (rest.length + 1))
    else .error (.lowAddressByte a0)
  | _ => .error (.frameLength op (rest.length + 1))

/-- Layout L5: the opcode, three address bytes and one DUMMY per byte wanted. -/
def layoutL5 (op : Byte) (rest : List Byte) : Except DecodeError Instr :=
  match rest with
  | a2 :: a1 :: a0 :: dummies =>
    if dummies.all (· == Config.dummy) then .ok (.wReadData (a2 ++ a1 ++ a0 : BitVec 24) dummies.length)
    else .error (.notDummy op)
  | _ => .error (.frameLength op (rest.length + 1))

/-- The wire row a frame's first byte selects, with the operands of its layout (R88, R90). -/
def decodeFrame (bytes : List Byte) : Except DecodeError Instr :=
  match bytes with
  | [] => .error .emptyFrame
  | op :: rest =>
    if op = Config.opPageProgram then layoutL4 op rest
    else if op = Config.opReadData then layoutL5 op rest
    else if op = Config.opWriteDisable then layoutL1 op .wWriteDisable rest
    else if op = Config.opReadStatus then layoutDummies op 1 .wReadStatus1 rest
    else if op = Config.opWriteEnable then layoutL1 op .wWriteEnable rest
    else if op = Config.opSectorErase then layoutL3 op .wSectorErase4k rest
    else if op = Config.opChipErase then layoutL1 op .wChipErase rest
    else if op = Config.opReadId then layoutDummies op 3 .wReadIdentification rest
    else .error (.unknownOpcode op)

/-- The instruction a request encodes. -/
def decode : Request → Except DecodeError Instr
  | .command cw buf => decodeCommand cw buf
  | .frame bytes => decodeFrame bytes

/-! ## The encoder -/

/-- The three address bytes of a 24-bit address, in wire order (R11, R89). -/
def addrHigh (a : Addr) : Byte := a.extractLsb' 16 8
def addrMid (a : Addr) : Byte := a.extractLsb' 8 8
def addrLow (a : Addr) : Byte := a.extractLsb' 0 8

/-- The word or the frame of an instruction (R80, R82, R88, R90). -/
def encode : Instr → Request
  | .init rsv arg => .command (mkCommandWord 0x1 rsv arg) []
  | .waitReady rsv arg => .command (mkCommandWord 0x2 rsv arg) []
  | .writeEnable rsv arg => .command (mkCommandWord 0x3 rsv arg) []
  | .writeDisable rsv arg => .command (mkCommandWord 0x4 rsv arg) []
  | .eraseChip rsv arg => .command (mkCommandWord 0x5 rsv arg) []
  | .eraseSector rsv arg => .command (mkCommandWord 0x6 rsv arg) []
  | .writePage rsv arg buf => .command (mkCommandWord 0x7 rsv arg) buf
  | .beginRead rsv arg => .command (mkCommandWord 0x8 rsv arg) []
  | .readNext rsv arg => .command (mkCommandWord 0x9 rsv arg) []
  | .endRead rsv arg => .command (mkCommandWord 0xA rsv arg) []
  | .wPageProgram page data =>
    .frame (Config.opPageProgram :: page.extractLsb' 8 8 :: page.extractLsb' 0 8 :: 0x00 :: data)
  | .wReadData a n =>
    .frame (Config.opReadData :: addrHigh a :: addrMid a :: addrLow a :: List.replicate n Config.dummy)
  | .wWriteDisable => .frame [Config.opWriteDisable]
  | .wReadStatus1 => .frame [Config.opReadStatus, Config.dummy]
  | .wWriteEnable => .frame [Config.opWriteEnable]
  | .wSectorErase4k a => .frame [Config.opSectorErase, addrHigh a, addrMid a, addrLow a]
  | .wChipErase => .frame [Config.opChipErase]
  | .wReadIdentification => .frame [Config.opReadId, Config.dummy, Config.dummy, Config.dummy]

/-! ## The opcode table's words -/

/-- How many bytes of zeros complete the shortest frame that begins with an opcode (R88). -/
def operandBytes (op : Byte) : Nat :=
  if op = Config.opPageProgram then 259
  else if op = Config.opReadData then 3
  else if op = Config.opReadStatus then 1
  else if op = Config.opSectorErase then 3
  else if op = Config.opReadId then 3
  else 0

/-- The request whose bits are `w`, as the opcode table numbers them: a 32-bit command word beside a
page buffer of zeros, or an 8-bit wire opcode followed by operand bytes of zeros. -/
def tableRequest (nbits w : Nat) : Option Request :=
  if nbits = 32 then some (.command (BitVec.ofNat 32 w) (List.replicate Config.pageSize 0x00))
  else if nbits = 8 then
    some (.frame (BitVec.ofNat 8 w :: List.replicate (operandBytes (BitVec.ofNat 8 w)) 0x00))
  else none

/-- The instruction the decoder reads from an opcode-table word; none where it rejects it. -/
def decodeTableWord (nbits w : Nat) : Option Instr :=
  match tableRequest nbits w with
  | none => none
  | some r =>
    match decode r with
    | .ok i => some i
    | .error _ => none

end Sys2Proof
end

