-- ==== Sys2Proof/Machine/State.lean ====
section
/-! DEFINITION. The state of SEQ and of what it is attached to, as plain data: the registers of
spec/10_state.md R20 to R28, the ports R30 to R35 as the inputs still to come, the reference chip of
spec/20_memory.md R71 and R72, and the trace of spec/40_sequencer_core.md R118. -/

namespace Sys2Proof.Machine

/-! ## The phase register (R27) -/

/-- The labels of INIT (R130). -/
inductive InitLabel where
  | i0 | i1 | i2 | i3 | i4 | i5 | i6
  deriving DecidableEq, Repr

/-- The labels of WAIT_READY (R137). -/
inductive WaitReadyLabel where
  | q0 | q1
  deriving DecidableEq, Repr

/-- The labels of WRITE_ENABLE (R149). -/
inductive WriteEnableLabel where
  | e0 | e1
  deriving DecidableEq, Repr

/-- The labels of WRITE_DISABLE (R150). -/
inductive WriteDisableLabel where
  | f0 | f1
  deriving DecidableEq, Repr

/-- The labels of ERASE_CHIP (R153). -/
inductive EraseChipLabel where
  | c0 | c1 | c2 | c3 | c4 | c5 | c6 | c7
  deriving DecidableEq, Repr

/-- The labels of ERASE_SECTOR (R155). -/
inductive EraseSectorLabel where
  | s0 | s1 | s2 | s3 | s4 | s5 | s6 | s7 | s8 | s9 | s10 | s11
  deriving DecidableEq, Repr

/-- The labels of WRITE_PAGE (R161). -/
inductive WritePageLabel where
  | p0 | p1 | p2 | p3 | p4 | p5 | p6 | p7 | p8 | p9 | p10 | p11 | p12 | p13
  deriving DecidableEq, Repr

/-- The labels of BEGIN_READ (R167). -/
inductive BeginReadLabel where
  | b0 | b1 | b2 | b3 | b4 | b5 | b6 | b7 | b8
  deriving DecidableEq, Repr

/-- The labels of READ_NEXT (R169). -/
inductive ReadNextLabel where
  | n0 | n1
  deriving DecidableEq, Repr

/-- The labels of END_READ (R171). -/
inductive EndReadLabel where
  | x0 | x1
  deriving DecidableEq, Repr

/-- The labels of the procedure WaitReady (R135). -/
inductive WaitLabel where
  | w0 | w1 | w2 | w3 | w4 | w5 | w6
  deriving DecidableEq, Repr

/-- The labels of the procedure WriteEnable (R145). -/
inductive EnableLabel where
  | v0 | v1 | v2 | v3 | v4 | v5 | v6 | v7
  deriving DecidableEq, Repr

/-- The labels of the procedure WriteDisable (R147). -/
inductive DisableLabel where
  | u0 | u1 | u2
  deriving DecidableEq, Repr

/-- The caller labels of WaitReady (R138). -/
inductive WaitSite where
  | q0 | c0 | c5 | s1 | s9 | p1 | p11 | b1
  deriving DecidableEq, Repr

/-- The caller labels of WriteEnable (R179). -/
inductive EnableSite where
  | e0 | c1 | s2 | p2
  deriving DecidableEq, Repr

/-- The caller labels of WriteDisable (R150, R153, R155, R161). -/
inductive DisableSite where
  | f0 | c6 | s10 | p12
  deriving DecidableEq, Repr

/-- The eight wire rows of the opcode table (R90). -/
inductive WireRow where
  | pageProgram | readData | writeDisable | readStatus | writeEnable | sectorErase | chipErase | readId
  deriving DecidableEq, Repr

/-- A frame run by itself: its row, and the bytes after the opcode (R87, R88; log 5). -/
structure WireFrame where
  row      : WireRow
  operands : List Byte
  deriving DecidableEq, Repr

/-- The labels of a frame run by itself, the model's own (log 5): its Select, the exchange of the opcode,
and the exchanges of the bytes still to send, with those received since the opcode's. -/
inductive FrameLabel where
  | start
  | opcode
  | operands (left received : List Byte)
  deriving DecidableEq, Repr

/-- PH, the phase register: IDLE, a label of a command, or the pair of a caller's label and a
procedure's label (R27, R121); and the model's own phase of a frame run by itself (log 5). -/
inductive Phase where
  | idle
  | init (l : InitLabel)
  | waitReady (l : WaitReadyLabel)
  | writeEnable (l : WriteEnableLabel)
  | writeDisable (l : WriteDisableLabel)
  | eraseChip (l : EraseChipLabel)
  | eraseSector (l : EraseSectorLabel)
  | writePage (l : WritePageLabel)
  | beginRead (l : BeginReadLabel)
  | readNext (l : ReadNextLabel)
  | endRead (l : EndReadLabel)
  | inWait (caller : WaitSite) (l : WaitLabel)
  | inEnable (caller : EnableSite) (l : EnableLabel)
  | inDisable (caller : DisableSite) (l : DisableLabel)
  | frame (f : WireFrame) (l : FrameLabel)
  deriving DecidableEq, Repr

/-! ## The response register and the trace -/

/-- The status codes: OK 0, FAIL 1, PROTOCOL 2, ILLEGAL 3 (R85). -/
inductive Status where
  | ok | fail | protocol | illegal
  deriving DecidableEq, Repr

/-- RSP, the response register, and its valid indication (R28, R31). -/
structure Response where
  valid : Bool
  st    : Status
  val   : Word
  deriving DecidableEq, Repr

/-- One event of the trace (R118): S, D, X(o>i), T(t), W(d), CMD(cw), RSP(st, v), RST. -/
inductive Event where
  | select
  | deselect
  | xfer (o i : Byte)
  | time (t : Word)
  | delay (d : Word)
  | command (cw : Word)
  | response (st : Status) (v : Word)
  | reset
  deriving DecidableEq, Repr

/-! ## The environment -/

/-- CLK (R34, R190): the milliseconds counted so far, and how many pass before each coming sample. -/
structure Clock where
  now  : Nat
  gaps : List Nat
  deriving DecidableEq, Repr

/-- The flash array: the bytes that do not read ERASED, by rising address (log 9). -/
abbrev Memory := List Host.Cell

/-- What befell a region of the array, as far as it bears on whether its contents are known (R188, U1,
U5, U15; log 11). An epoch tells the occasions apart. -/
inductive RegionEvent where
  /-- An erase of it failed at its closing wait, or a reset cut it (U1, U15). -/
  | eraseLost (epoch : Nat)
  /-- A page write to it failed at its closing wait, or a reset cut it (U5, U15). -/
  | writeLost (epoch : Nat)
  /-- An erase or page-program frame changed its bytes (R76, R77). -/
  | changed (epoch : Nat)
  /-- An erase of it returned OK. -/
  | eraseOk
  /-- A page write to it returned OK. -/
  | writeOk
  deriving DecidableEq, Repr

/-- A region of the array, as its first address and its length, and what befell it. -/
structure Mark where
  lo    : Nat
  len   : Nat
  event : RegionEvent
  deriving DecidableEq, Repr

/-- Whether a byte's contents are known; where they are not, which commands must still return OK before
they are, and the epoch of the value the byte has until then (R188, U1). -/
inductive Doubt where
  | none
  | tillErase (epoch : Nat)
  | tillEraseWrite (epoch : Nat)
  | tillWrite (epoch : Nat)
  deriving DecidableEq, Repr

/-- The reference chip RefFlash (R71, R72). -/
structure Chip where
  par   : ChipParams
  mem   : Memory
  /-- The write-enable latch. -/
  wel   : Bool
  busy  : BusyCount
  /-- The bytes received since the last select; none when deselected. -/
  frame : Option (List Byte)
  /-- Whether the chip was BUSY when the frame began. -/
  fbusy : Bool
  /-- The read pointer; it does not wrap (R78). -/
  ptr   : Nat
  /-- The model's own: what befell which region, newest first, from the first loss on (log 11). -/
  marks : List Mark
  /-- The model's own: a counter for the chip's free values (log 2). -/
  fresh : Nat
  deriving DecidableEq, Repr

/-- ENV, which answers every exchange (R3, R114): a list of answers, any bytes at all, after which it
offers none (R69); or the reference chip. -/
inductive Env where
  | script (answers : List Byte)
  | chip (c : Chip)
  deriving DecidableEq, Repr

/-! ## The state -/

/-- The state of the machine. -/
structure State where
  /-- CAP, the capacity (R20). -/
  cap       : Word
  /-- RDA, the read-session-active flag (R21). -/
  rda       : Bool
  /-- SEL, the chip-select state (R22). -/
  sel       : Bool
  /-- OP and ARG, the command latches (R23). -/
  op        : BitVec 4
  arg       : Addr
  /-- TMO and T0, the timing registers of WaitReady (R24). -/
  tmo       : Word
  t0        : Word
  /-- SR, the status register snapshot (R25). -/
  sr        : Byte
  /-- ID, the identification value (R26). -/
  ident     : BitVec 24
  /-- CNT, the page-byte counter (R26). -/
  cnt       : Byte
  /-- RES, the result bit of a procedure (R26). -/
  res       : Bool
  /-- PH, the phase register (R27). -/
  ph        : Phase
  /-- RSP, the response register (R28). -/
  rsp       : Response
  /-- The transport outputs `xfer_start` and `xfer_out` (R32); what `xfer_out` shows while no exchange
  is in progress is the model's choice (log 20). -/
  xferStart : Bool
  xferOut   : Byte
  /-- The samples of the input `rst` at the coming steps; 0 after them (R35, R200; log 4). -/
  rstIn     : List Bool
  /-- What HOST presents at the command port, in order (R30; log 5). -/
  host      : List Request
  /-- The host's page buffer, behind `pd_byte` (R33). -/
  page      : List Byte
  /-- CLK (R34). -/
  clk       : Clock
  /-- ENV (R3). -/
  env       : Env
  /-- The parameters of the instance; no step changes them (R8, R37; log 3). -/
  par       : Params
  /-- The trace so far, oldest first (R118; log 10). -/
  trace     : List Event
  /-- The model's own: a counter for the free values of RSP.VAL (U10; log 2). -/
  fresh     : Nat
  deriving DecidableEq, Repr

/-! ## How a step can stop -/

/-- The reasons a step stops with a fault. -/
inductive Fault where
  /-- `Select()` with SEL = 1: R112 requires SEL = 0 and gives no other effect. Raised by a frame run
  by itself while a read session holds the chip selected; no host command raises it in a state that
  meets the invariant of R36. Safe: the machine stops. -/
  | selectWhileSelected
  /-- `Deselect()` with SEL = 0: R113 requires SEL = 1 and gives no other effect. Raised in no state
  that meets the invariant of R36. Safe. -/
  | deselectWhileDeselected
  /-- `Xfer` with SEL = 0: R114 requires SEL = 1 and gives no other effect. Raised in no state that
  meets the invariant of R36. Safe. -/
  | exchangeWhileDeselected
  deriving DecidableEq, Repr

/-- The reasons a step is refused. -/
inductive Refusal where
  /-- No meaning yet. Raised by no arm. Safe. -/
  | notModelled (mnemonic : String)
  /-- The host presented a WRITE_PAGE without a 256-byte buffer (R33: "the caller must always supply
  a full 256-byte buffer") or bytes that are no frame of R88, which SEQ never sends (R97); raised by
  step. Safe. -/
  | noInstruction
  /-- A page-program frame whose data are not 256 bytes: no layout of R88, an ill-formed instruction;
  raised by the meaning of W_PAGE_PROGRAM. Safe. -/
  | frameShape
  deriving DecidableEq, Repr

/-! ## Reset -/

/-- The reference chip as R72 starts it, with every byte of its array ERASED (log 8, log 9). -/
def Chip.initial (p : ChipParams) : Chip :=
  { par := p, mem := [], wel := false, busy := .left 0, frame := none, fbusy := false, ptr := 0,
    marks := [], fresh := 0 }

/-- The machine right after reset (R35, R200): the values the spec states, and for the registers it
leaves unspecified the values of log 1; no reset pending, nothing presented, the chip of log 8. -/
def State.reset : State :=
  { cap := 0, rda := false, sel := false, op := 0, arg := 0, tmo := 0, t0 := 0, sr := 0, ident := 0,
    cnt := 0, res := false, ph := .idle, rsp := { valid := false, st := .ok, val := 0 },
    xferStart := false, xferOut := 0, rstIn := [], host := [],
    page := List.replicate Config.pageSize 0x00, clk := { now := 0, gaps := [] },
    env := .chip (Chip.initial Config.chipParams), par := Config.params, trace := [], fresh := 0 }

end Sys2Proof.Machine
end

