-- ==== Sys2Proof/Machine/Memory.lean ====
section
/-! DEFINITION. The flash array as a list of cells in one canonical form: addresses strictly rising,
no cell holding ERASED, which is what an unlisted address reads as (spec/20_memory.md R71; log 9). -/

namespace Sys2Proof.Machine

/-- One byte of the array. -/
def Memory.read : Memory → Nat → Byte
  | [], _ => Config.erased
  | (k, v) :: m, a => if k = a then v else Memory.read m a

/-- Write one byte; writing ERASED takes the cell out. -/
def Memory.write : Memory → Nat → Byte → Memory
  | [], a, v => if v = Config.erased then [] else [(a, v)]
  | (k, w) :: m, a, v =>
    if a < k then (if v = Config.erased then (k, w) :: m else (a, v) :: (k, w) :: m)
    else if a = k then (if v = Config.erased then m else (a, v) :: m)
    else (k, w) :: Memory.write m a v

/-- Erase the `len` bytes from `lo` (R76). -/
def Memory.erase (m : Memory) (lo len : Nat) : Memory :=
  m.filter fun c => !(decide (lo ≤ c.1) && decide (c.1 < lo + len))

/-- Program bytes from `lo` on: each becomes old AND new (R77). -/
def Memory.program : Memory → Nat → List Byte → Memory
  | m, _, [] => m
  | m, lo, d :: ds => Memory.program (Memory.write m lo (Memory.read m lo &&& d)) (lo + 1) ds

/-- The addresses of the cells are above `a` and rise, and no cell holds ERASED. -/
def Memory.wfAbove : Nat → Memory → Bool
  | _, [] => true
  | a, (k, v) :: m => decide (a ≤ k) && decide (v ≠ Config.erased) && Memory.wfAbove (k + 1) m

/-- The canonical form. -/
def Memory.wf (m : Memory) : Bool := Memory.wfAbove 0 m

end Sys2Proof.Machine
end

