-- ==== Sys2Proof/Machine/Operands.lean ====
section
/-! DEFINITION. The operand forms of the host commands (spec/30_encoding.md R81): address, timeout,
page byte; and the regions an address names (spec/20_memory.md R49, R50). -/

namespace Sys2Proof.Machine

/-- `InRange(a)`: `zext_32(a) < CAP`, unsigned (R12). -/
def inRange (a : Addr) (cap : Word) : Bool := (a.setWidth 32).ult cap

/-- Form T: the timeout is ARG, zero-extended to 32 bits (R81, R137). -/
def timeoutArg (arg : Addr) : Word := arg.setWidth 32

/-- The timeout of each call of WaitReady (R138). -/
def timeoutOf (caller : WaitSite) (s : State) : Word :=
  match caller with
  | .q0 => timeoutArg s.arg
  | .c0 => s.par.tDefault
  | .c5 => s.par.tChip
  | .s1 => s.par.tDefault
  | .s9 => s.par.tSector
  | .p1 => s.par.tDefault
  | .p11 => s.par.tDefault
  | .b1 => s.par.tDefault

/-- `PageByte(k)`: byte k of the host's buffer, for k in 0..255 (R17, R33). A byte that a shorter
buffer lacks is a free value; no well-formed instruction brings such a buffer. -/
def pageByte (page : List Byte) (k : Byte) : Byte := page.getD k.toNat (Config.anyPageByte k.toNat)

/-- A part of the array that one command acts on (R50). -/
inductive Region where
  | page (a : Addr)
  | sector (a : Addr)
  | whole
  deriving DecidableEq, Repr

/-- The first address of a region: the page or the sector that contains the address (R49). -/
def regionBase : Region → Nat
  | .page a => (a &&& 0xFFFF00).toNat
  | .sector a => (a &&& 0xFFF000).toNat
  | .whole => 0

/-- SIZE in bytes (R71). -/
def chipBytes : ChipSize → Nat
  | .mib1 => 0x00100000
  | .mib2 => 0x00200000
  | .mib4 => 0x00400000
  | .mib8 => 0x00800000
  | .mib16 => 0x01000000

/-- How many bytes a region has, on a chip of `size` bytes (R50). -/
def regionLength (size : Nat) : Region → Nat
  | .page _ => Config.pageSize
  | .sector _ => Config.sectorSize
  | .whole => size

end Sys2Proof.Machine
end

