-- ==== Sys2Proof/Machine/Chip.lean ====
section
/-! DEFINITION. ENV: what answers the exchanges (spec/20_memory.md R61 to R70). Either a list of
arbitrary answers, or the reference chip RefFlash of R71 to R79, which meets R61 to R67 and fills what
the document leaves open as its rules say. -/

namespace Sys2Proof.Machine

/-! ## Contents, known and unknown -/

/-- Whether a mark covers an address. -/
def Mark.covers (m : Mark) (a : Nat) : Bool := decide (m.lo ≤ a) && decide (a < m.lo + m.len)

/-- What an event makes of the doubt about a byte. A lost erase ends with an erase that returns OK (U1),
a lost page write with an erase and then a write that return OK (R188, R207). A byte in doubt that a frame
changes is any value anew. -/
def RegionEvent.after (d : Doubt) : RegionEvent → Doubt
  | .eraseLost e =>
    match d with
    | .none => .tillErase e
    | .tillErase _ => .tillErase e
    | .tillEraseWrite _ => .tillEraseWrite e
    | .tillWrite _ => .tillEraseWrite e
  | .writeLost e => .tillEraseWrite e
  | .changed e =>
    match d with
    | .none => .none
    | .tillErase _ => .tillErase e
    | .tillEraseWrite _ => .tillEraseWrite e
    | .tillWrite _ => .tillWrite e
  | .eraseOk =>
    match d with
    | .none => .none
    | .tillErase _ => .none
    | .tillEraseWrite e => .tillWrite e
    | .tillWrite e => .tillWrite e
  | .writeOk =>
    match d with
    | .none => .none
    | .tillErase e => .tillErase e
    | .tillEraseWrite e => .tillEraseWrite e
    | .tillWrite _ => .none

/-- The doubt about a byte after everything that befell it, the oldest first. -/
def doubtAt (a : Nat) (marks : List Mark) : Doubt :=
  marks.foldr (fun m d => if m.covers a then m.event.after d else d) .none

/-- The doubt about a byte of the array. -/
def Chip.doubt (c : Chip) (a : Nat) : Doubt := doubtAt a c.marks

/-- What the array holds at an address: its byte, or any value while it is in doubt (R52, R188, U1, U5,
U15). -/
def Chip.content (c : Chip) (a : Nat) : Byte :=
  match c.doubt a with
  | .none => Memory.read c.mem a
  | .tillErase e => Config.anyContent e a
  | .tillEraseWrite e => Config.anyContent e a
  | .tillWrite e => Config.anyContent e a

/-- Something befalls a region. -/
def Chip.mark (r : Region) (ev : RegionEvent) (c : Chip) : Chip :=
  { c with
    marks := { lo := regionBase r, len := regionLength (chipBytes c.par.size) r, event := ev } :: c.marks }

/-- The contents of a region become any value: what befell it is a lost page write or a lost erase (R158,
R165, R201). -/
def Chip.forget (r : Region) (c : Chip) : Chip :=
  let ev :=
    match r with
    | .page _ => RegionEvent.writeLost c.fresh
    | .sector _ => .eraseLost c.fresh
    | .whole => .eraseLost c.fresh
  { c.mark r ev with fresh := c.fresh + 1 }

/-- A frame has changed the bytes of a region: those in doubt are any value anew (R76, R77, R188). -/
def Chip.renew (r : Region) (c : Chip) : Chip :=
  if c.marks.isEmpty then c else { c.mark r (.changed c.fresh) with fresh := c.fresh + 1 }

/-- An erase of a region, or a page write, has returned OK (R188, U1). -/
def Chip.settle (r : Region) (c : Chip) : Chip :=
  if c.marks.isEmpty then c
  else
    match r with
    | .page _ => c.mark r .writeOk
    | .sector _ => c.mark r .eraseOk
    | .whole => c.mark r .eraseOk

/-- BUSY and the latch become any value (U1, U5, U15). -/
def Chip.forgetStatus (c : Chip) : Chip :=
  { c with busy := Config.anyBusy c.fresh, wel := Config.anyLatch c.fresh, fresh := c.fresh + 1 }

/-! ## The answers -/

/-- BUSY: an internal operation is still going on (R72). -/
def isBusy : BusyCount → Bool
  | .left n => decide (0 < n)
  | .inf => true

/-- The status byte: bits 7 to 2 are 0 (R74). -/
def statusByte (wel busy : Bool) : Byte := (0#6 ++ BitVec.ofBool wel ++ BitVec.ofBool busy : BitVec 8)

/-- The answer to a status read, and the count it takes down; the operation completes and the latch
clears when the count reaches 0 (R74). -/
def Chip.answerStatus (c : Chip) : Byte × Chip :=
  (statusByte c.wel (isBusy c.busy),
   match c.busy with
   | .left 0 => c
   | .left (n + 1) => { c with busy := .left n, wel := if n = 0 then false else c.wel }
   | .inf => c)

/-- The answer to a read exchange, and the pointer advanced (R66, R78). Past the last byte the answer
is any value (R209, U2; log 12). -/
def Chip.answerRead (c : Chip) : Byte × Chip :=
  if c.ptr < chipBytes c.par.size then (c.content c.ptr, { c with ptr := c.ptr + 1 })
  else (Config.anyByte c.fresh, { c with ptr := c.ptr + 1, fresh := c.fresh + 1 })

/-- The answer to exchange n of an identification frame, n = 1, 2, 3 (R79). -/
def idAnswer (idv : BitVec 24) (n : Nat) : Byte :=
  if n = 1 then addrHigh idv else if n = 2 then addrMid idv else addrLow idv

/-- The answer to the next exchange of a frame that has received `f`, and the chip after it (R73). -/
def Chip.answer (f : List Byte) (c : Chip) : Byte × Chip :=
  match f with
  | [] => (Config.fill, c)
  | op :: rest =>
    if op = Config.opReadStatus then c.answerStatus
    else if op = Config.opReadData && !c.fbusy && decide (3 ≤ rest.length) then c.answerRead
    else if op = Config.opReadId && !c.fbusy && decide (rest.length ≤ 2) then
      (idAnswer c.par.idv (rest.length + 1), c)
    else (Config.fill, c)

/-- The read pointer once the third address byte of a read frame has come (R73). -/
def Chip.pointer (f : List Byte) (o : Byte) (c : Chip) : Nat :=
  match f with
  | [op, a2, a1] =>
    if op = Config.opReadData && !c.fbusy then (a2 ++ a1 ++ o : BitVec 24).toNat else c.ptr
  | _ => c.ptr

/-- Event `X(o>i)` at the chip (R73). -/
def Chip.onXfer (o : Byte) (c : Chip) : Byte × Chip :=
  match c.frame with
  | none => (Config.fill, c)
  | some f =>
    let (i, c') := c.answer f
    (i, { c' with frame := some (f ++ [o]), ptr := c'.pointer f o })

/-- Event `S` at the chip (R73). -/
def Chip.onSelect (c : Chip) : Chip := { c with frame := some [], fbusy := (isBusy c.busy) }

/-! ## What a frame does when it ends -/

/-- An internal operation begins; with a count of 0 it is over at once and the latch clears (R76, R77). -/
def Chip.startOperation (k : BusyCount) (c : Chip) : Chip :=
  { c with busy := k, wel := if k = .left 0 then false else c.wel }

/-- A sector-erase frame with the latch set (R76): the sector containing the address. -/
def Chip.eraseSector (a : Addr) (c : Chip) : Chip :=
  let base := regionBase (.sector a)
  (if base < chipBytes c.par.size then
    ({ c with mem := c.mem.erase base Config.sectorSize } : Chip).renew (.sector a)
  else c).startOperation c.par.ks

/-- A chip-erase frame with the latch set (R76). -/
def Chip.eraseAll (c : Chip) : Chip :=
  (({ c with mem := c.mem.erase 0 (chipBytes c.par.size) } : Chip).renew .whole).startOperation c.par.kc

/-- A page-program frame of 256 bytes with the latch set (R77): byte k lands at the page's address k,
and the operation begins; a byte in doubt is any value anew (R188); a page outside the array has no
effect. -/
def Chip.programPage (a : Addr) (data : List Byte) (c : Chip) : Chip :=
  let base := regionBase (.page a)
  if base < chipBytes c.par.size then
    (({ c with mem := c.mem.program base data } : Chip).renew (.page a)).startOperation c.par.kp
  else c

/-- A frame of one byte: the latch frames (R75) and the chip erase (R76). -/
def Chip.actOpcode (op : Byte) (c : Chip) : Chip :=
  if op = Config.opWriteEnable then { c with wel := c.par.latch }
  else if op = Config.opWriteDisable then { c with wel := false }
  else if op = Config.opChipErase && c.wel then c.eraseAll
  else c

/-- A frame with three address bytes: the sector erase (R76) and the page program (R77). A
page-program frame of another shape, which SEQ never completes, leaves the page, BUSY and the latch
any value (R201, U15; log 11). -/
def Chip.actAddressed (op : Byte) (a : Addr) (data : List Byte) (c : Chip) : Chip :=
  if op = Config.opSectorErase && data.isEmpty && c.wel then c.eraseSector a
  else if op = Config.opPageProgram && c.wel then
    if addrLow a = 0x00#8 ∧ data.length = Config.pageSize then c.programPage a data
    else (c.forget (.page a)).forgetStatus
  else c

/-- The effect of a complete frame on a chip that was not BUSY when it began (R75 to R77). -/
def Chip.act (f : List Byte) (c : Chip) : Chip :=
  match f with
  | [op] => c.actOpcode op
  | op :: a2 :: a1 :: a0 :: data => c.actAddressed op (a2 ++ a1 ++ a0 : BitVec 24) data
  | _ => c

/-- Event `D` at the chip: a BUSY chip rejects every frame but the status frame (R62, R75). -/
def Chip.onDeselect (c : Chip) : Chip :=
  { (if c.fbusy then c else c.act (c.frame.getD [])) with frame := none }

/-! ## ENV -/

/-- ENV sees a select. -/
def Env.select : Env → Env
  | .script as => .script as
  | .chip c => .chip c.onSelect

/-- ENV sees a deselect. -/
def Env.deselect : Env → Env
  | .script as => .script as
  | .chip c => .chip c.onDeselect

/-- ENV answers an exchange, where it offers an answer (R69, R114). -/
def Env.exchange (o : Byte) : Env → Option (Byte × Env)
  | .script [] => none
  | .script (i :: as) => some (i, .script as)
  | .chip c => some ((c.onXfer o).1, .chip (c.onXfer o).2)

/-- The answers to a run of exchanges. -/
def Env.exchanges : List Byte → Env → Option (List Byte × Env)
  | [], e => some ([], e)
  | o :: os, e =>
    match e.exchange o with
    | none => none
    | some (i, e') =>
      match Env.exchanges os e' with
      | none => none
      | some (is, e'') => some (i :: is, e'')

/-- The answers to a frame that is begun and left open. -/
def Env.openFrame (bytes : List Byte) (e : Env) : Option (List Byte × Env) := e.select.exchanges bytes

/-- The answers to a whole frame (R87). -/
def Env.frame (bytes : List Byte) (e : Env) : Option (List Byte × Env) :=
  match e.openFrame bytes with
  | none => none
  | some (is, e') => some (is, e'.deselect)

/-- An erase of a region, or a page write, has returned OK. -/
def Env.settle (r : Region) : Env → Env
  | .script as => .script as
  | .chip c => .chip (c.settle r)

/-- A closing wait has failed, or a reset has cut a command: the region it addressed, BUSY and the latch
are any value (R158, R165, R201, U1, U5, U15). -/
def Env.abandon (r : Option Region) : Env → Env
  | .script as => .script as
  | .chip c =>
    match r with
    | none => .chip c.forgetStatus
    | some g => .chip (c.forget g).forgetStatus

/-- One byte of the flash, where ENV has an array. -/
def Env.byteAt (a : Nat) : Env → Option Byte
  | .script _ => none
  | .chip c => some (c.content a)

end Sys2Proof.Machine
end

