-- ==== Sys2Proof/Machine/Flags.lean ====
section
/-! DEFINITION. Every flag and derived value SEQ computes: the status bits (spec/30_encoding.md R93),
elapsed time (spec/00_scope.md R13) and the identification table (spec/30_encoding.md R94). -/

namespace Sys2Proof.Machine

/-- BUSY, bit 0 of the status byte, tested alone (R93). -/
def busyBit (sr : Byte) : Bool := sr.getLsbD 0

/-- WRITE-ENABLED, bit 1 of the status byte, tested alone (R93). -/
def writeEnabledBit (sr : Byte) : Bool := sr.getLsbD 1

/-- `Elapsed(t0, t) = (t - t0) mod 2^32` (R13). -/
def elapsed (t0 t : Word) : Word := t - t0

/-- The timeout test: `Elapsed(T0, t) > TMO`, unsigned and strict (R135, R136). -/
def timedOut (t0 t tmo : Word) : Bool := tmo.ult (elapsed t0 t)

/-- `CapOf(id)`: all 24 bits must match (R94). -/
def capOf (id : BitVec 24) : Word :=
  if id = 0xEF4014 then 0x00100000
  else if id = 0xEF4015 then 0x00200000
  else if id = 0xEF4016 then 0x00400000
  else if id = 0xEF4017 then 0x00800000
  else if id = 0xEF4018 then 0x01000000
  else 0x00000000

/-- The identification value with its first, second or third received byte put in (R48, R130). -/
def setIdHigh (id : BitVec 24) (b : Byte) : BitVec 24 := (b ++ id.extractLsb' 0 16 : BitVec 24)
def setIdMid (id : BitVec 24) (b : Byte) : BitVec 24 := (id.extractLsb' 16 8 ++ b ++ id.extractLsb' 0 8 : BitVec 24)
def setIdLow (id : BitVec 24) (b : Byte) : BitVec 24 := (id.extractLsb' 8 16 ++ b : BitVec 24)

end Sys2Proof.Machine
end

