-- ==== Sys2Proof/Machine/Ops.lean ====
section
/-! DEFINITION. What every command shares (spec/40_sequencer_core.md): the five primitives R112 to
R116, Respond R110, acceptance R106, and the reset event (spec/70_reset_and_hazards.md R200, R201).
SEQ has no exception of a processor's kind: `respond` is the ending of a command, FAIL, PROTOCOL and
ILLEGAL included (spec/60_exceptions.md R185), and nothing returns from it (R187). -/

namespace Sys2Proof.Machine

/-- What one labelled line does (R111): SEQ goes on; it waits for an answer ENV does not offer (R69);
or a primitive stands where the spec gives it no effect. -/
inductive Move where
  | go (s : State)
  | wait (s : State)
  | stop (f : Fault)
  deriving DecidableEq, Repr

/-- `PH <- p`. -/
def goto (p : Phase) (s : State) : State := { s with ph := p }

/-- Append an event to the trace (R118). -/
def emit (e : Event) (s : State) : State := { s with trace := s.trace ++ [e] }

/-! ## The primitives -/

/-- `Select()` (R112). -/
def select (next : State → State) (s : State) : Move :=
  if s.sel then .stop .selectWhileSelected
  else .go (next { s with sel := true, env := s.env.select, trace := s.trace ++ [.select] })

/-- `Deselect()` (R113). -/
def deselect (next : State → State) (s : State) : Move :=
  if s.sel then .go (next { s with sel := false, env := s.env.deselect, trace := s.trace ++ [.deselect] })
  else .stop .deselectWhileDeselected

/-- `Xfer(o) -> i` (R114): `xfer_out` presents o with `xfer_start`; the step completes when ENV answers
(R69). DESIGN CHOICE (log 20): after it `xfer_out` goes on showing o, where R32 and R114 give it only
during an exchange. -/
def xfer (o : Byte) (next : Byte → State → State) (s : State) : Move :=
  if s.sel then
    match s.env.exchange o with
    | none => .wait { s with xferStart := true, xferOut := o }
    | some (i, e) =>
      .go (next i { s with env := e, xferStart := false, xferOut := o, trace := s.trace ++ [.xfer o i] })
  else .stop .exchangeWhileDeselected

/-- The clock at its next sample, in milliseconds (R190): the listed advance, or with none listed a
free positive one (log 6). -/
def Clock.advance (c : Clock) : Clock :=
  match c.gaps with
  | [] => { c with now := c.now + (Config.anyGap c.now).toNat + 1 }
  | g :: gs => { now := c.now + g, gaps := gs }

/-- The 32-bit value on `now_ms` (R34). -/
def Clock.value (c : Clock) : Word := BitVec.ofNat 32 c.now

/-- `Now() -> t` (R115). -/
def now (next : Word → State → State) (s : State) : Move :=
  .go (next s.clk.advance.value
    { s with clk := s.clk.advance, trace := s.trace ++ [.time s.clk.advance.value] })

/-- `Delay(d)` (R116): at least d milliseconds pass; the next sample's advance adds the rest. -/
def delay (d : Word) (next : State → State) (s : State) : Move :=
  .go (next { s with clk := { s.clk with now := s.clk.now + d.toNat }, trace := s.trace ++ [.delay d] })

/-! ## Respond -/

/-- `Respond(st, v)` (R110). DESIGN CHOICE (log 21): it leaves TMO, T0, SR, ID, CNT and RES as the
command wrote them, where U11 makes them any value between commands. -/
def respond (st : Status) (v : Word) (s : State) : State :=
  { s with rsp := { valid := true, st := st, val := v }, ph := .idle, trace := s.trace ++ [.response st v] }

/-- `Respond(st, any)`: the value is a free one (R17, U10). `raise Fail`, `raise Protocol` and `raise
Illegal` are this with their status (R110). -/
def respondAny (st : Status) (s : State) : State :=
  respond st (Config.anyVal s.fresh) { s with fresh := s.fresh + 1 }

/-- The test of a procedure's result in its caller's line: "on r = 0 raise Fail", else on to the next
label (R121). -/
def passOrFail (r : Bool) (p : Phase) (s : State) : State :=
  if r then goto p s else respondAny .fail s

/-- The same test after a closing wait: on FAIL the contents of the region, BUSY and the latch are any
value (R158, R165, U1, U5). -/
def passOrForget (r : Bool) (g : Region) (p : Phase) (s : State) : State :=
  if r then goto p s else respondAny .fail { s with env := s.env.abandon (some g) }

/-! ## Reset -/

/-- The value of the input `rst` in this step (R35). -/
def rstNow (s : State) : Bool := s.rstIn.head?.getD false

/-- The region that a frame run by itself addresses (R64, R65). -/
def WireFrame.region (f : WireFrame) : Option Region :=
  match f.row, f.operands with
  | .pageProgram, a2 :: a1 :: _ => some (.page (a2 ++ a1 ++ (0x00 : Byte) : BitVec 24))
  | .sectorErase, [a2, a1, a0] => some (.sector (a2 ++ a1 ++ a0 : BitVec 24))
  | .chipErase, _ => some .whole
  | _, _ => none

/-- The region that a command in flight addresses (R201). -/
def Phase.region (arg : Addr) : Phase → Option Region
  | .idle => none
  | .init _ => none
  | .waitReady _ => none
  | .writeEnable _ => none
  | .writeDisable _ => none
  | .eraseChip _ => some .whole
  | .eraseSector _ => some (.sector arg)
  | .writePage _ => some (.page arg)
  | .beginRead _ => none
  | .readNext _ => none
  | .endRead _ => none
  | .inWait .q0 _ => none
  | .inWait .c0 _ => some .whole
  | .inWait .c5 _ => some .whole
  | .inWait .s1 _ => some (.sector arg)
  | .inWait .s9 _ => some (.sector arg)
  | .inWait .p1 _ => some (.page arg)
  | .inWait .p11 _ => some (.page arg)
  | .inWait .b1 _ => none
  | .inEnable .e0 _ => none
  | .inEnable .c1 _ => some .whole
  | .inEnable .s2 _ => some (.sector arg)
  | .inEnable .p2 _ => some (.page arg)
  | .inDisable .f0 _ => none
  | .inDisable .c6 _ => some .whole
  | .inDisable .s10 _ => some (.sector arg)
  | .inDisable .p12 _ => some (.page arg)
  | .frame f _ => f.region

/-- What a reset of SEQ does to ENV: the chip-select is released, which the chip sees as a deselect;
a command cut in the middle leaves its region, BUSY and the latch any value (R201, R202). -/
def resetEnv (s : State) : Env :=
  let e := if s.sel then s.env.deselect else s.env
  if s.ph = .idle then e else e.abandon (s.ph.region s.arg)

/-- The reset event (R200): the reset state of R35, whatever SEQ was doing; the working registers take
the values of log 1. HOST, CLK, ENV and the parameters are not reset (R202). -/
def takeReset (s : State) : State :=
  { s with
    cap := 0, rda := false, sel := false, op := 0, arg := 0, tmo := 0, t0 := 0, sr := 0, ident := 0,
    cnt := 0, res := false, ph := .idle, rsp := { valid := false, st := .ok, val := 0 },
    xferStart := false, xferOut := 0, rstIn := s.rstIn.tail, env := resetEnv s,
    trace := s.trace ++ [.reset] }

/-! ## Acceptance -/

/-- `cmd_ready`: PH = IDLE and `rst` is 0 (R30). -/
def cmdReady (s : State) : Bool := decide (s.ph = .idle) && !rstNow s

/-- Accepting the command word `cw`: OP and ARG are latched and RSP is no longer valid (R30, R106). -/
def accept (cw : Word) (s : State) : State :=
  { s with
    op := cwOp cw, arg := cwArg cw, rsp := { s.rsp with valid := false }, rstIn := s.rstIn.tail,
    trace := s.trace ++ [.command cw] }

/-! ## The other ports, as read from the state -/

/-- The transport's chip-select, active low (R32). -/
def csN (s : State) : Bool := !s.sel

/-- `pd_idx` = CNT, and the byte the host's buffer shows there (R33). -/
def pdIdx (s : State) : Byte := s.cnt
def pdByte (s : State) : Byte := pageByte s.page s.cnt

/-- `rsp_valid`, `rsp_status` in its 2-bit code (R31, R85), `rsp_value`. -/
def rspValid (s : State) : Bool := s.rsp.valid
def rspStatus (s : State) : BitVec 2 :=
  match s.rsp.st with
  | .ok => 0
  | .fail => 1
  | .protocol => 2
  | .illegal => 3
def rspValue (s : State) : Word := s.rsp.val

end Sys2Proof.Machine
end

