-- ==== Sys2Proof/Machine/Erase.lean ====
section
/-! DEFINITION. The sequences of ERASE_CHIP and ERASE_SECTOR (spec/44_erase.md). -/

namespace Sys2Proof.Machine

/-- The lines of ERASE_CHIP (R153). When it returns OK, what earlier erases lost is known again (U1,
R188). -/
def lineEraseChip (l : EraseChipLabel) (s : State) : Move :=
  match l with
  | .c0 => .go (goto (.inWait .c0 .w0) s)
  | .c1 => .go (goto (.inEnable .c1 .v0) s)
  | .c2 => select (goto (.eraseChip .c3)) s
  | .c3 => xfer Config.opChipErase (fun _ => goto (.eraseChip .c4)) s
  | .c4 => deselect (goto (.eraseChip .c5)) s
  | .c5 => .go (goto (.inWait .c5 .w0) s)
  | .c6 => .go (goto (.inDisable .c6 .u0) s)
  | .c7 => .go (respondAny .ok { s with env := s.env.settle .whole })

/-- The lines of ERASE_SECTOR (R155); a is ARG. -/
def lineEraseSector (l : EraseSectorLabel) (s : State) : Move :=
  match l with
  | .s0 => .go (if inRange s.arg s.cap then goto (.eraseSector .s1) s else respondAny .fail s)
  | .s1 => .go (goto (.inWait .s1 .w0) s)
  | .s2 => .go (goto (.inEnable .s2 .v0) s)
  | .s3 => select (goto (.eraseSector .s4)) s
  | .s4 => xfer Config.opSectorErase (fun _ => goto (.eraseSector .s5)) s
  | .s5 => xfer (addrHigh s.arg) (fun _ => goto (.eraseSector .s6)) s
  | .s6 => xfer (addrMid s.arg) (fun _ => goto (.eraseSector .s7)) s
  | .s7 => xfer (addrLow s.arg) (fun _ => goto (.eraseSector .s8)) s
  | .s8 => deselect (goto (.eraseSector .s9)) s
  | .s9 => .go (goto (.inWait .s9 .w0) s)
  | .s10 => .go (goto (.inDisable .s10 .u0) s)
  | .s11 => .go (respondAny .ok { s with env := s.env.settle (.sector s.arg) })

end Sys2Proof.Machine
end

