-- ==== Sys2Proof/Machine/Init.lean ====
section
/-! DEFINITION. The sequence of INIT (spec/41_init.md R130). -/

namespace Sys2Proof.Machine

/-- The lines of INIT (R130). -/
def lineInit (l : InitLabel) (s : State) : Move :=
  match l with
  | .i0 => select (goto (.init .i1)) s
  | .i1 => xfer Config.opReadId (fun _ => goto (.init .i2)) s
  | .i2 => xfer Config.dummy (fun i s' => goto (.init .i3) { s' with ident := setIdHigh s'.ident i }) s
  | .i3 => xfer Config.dummy (fun i s' => goto (.init .i4) { s' with ident := setIdMid s'.ident i }) s
  | .i4 => xfer Config.dummy (fun i s' => goto (.init .i5) { s' with ident := setIdLow s'.ident i }) s
  | .i5 => deselect (goto (.init .i6)) s
  | .i6 => .go (respond .ok (capOf s.ident) { s with cap := capOf s.ident })

end Sys2Proof.Machine
end

