-- ==== Sys2Proof/Machine/PageWrite.lean ====
section
/-! DEFINITION. The sequence of WRITE_PAGE (spec/45_page_write.md R161). -/

namespace Sys2Proof.Machine

/-- The lines of WRITE_PAGE (R161); a is ARG, the buffer is read through the page data port (R33).
P8 is one step per page byte, 256 of them, in increasing index (R162). When it returns OK, a page that a
write had lost and that was erased since is known again (R188, R207). -/
def lineWritePage (l : WritePageLabel) (s : State) : Move :=
  match l with
  | .p0 => .go (if inRange s.arg s.cap then goto (.writePage .p1) s else respondAny .fail s)
  | .p1 => .go (goto (.inWait .p1 .w0) s)
  | .p2 => .go (goto (.inEnable .p2 .v0) s)
  | .p3 => select (goto (.writePage .p4)) s
  | .p4 => xfer Config.opPageProgram (fun _ => goto (.writePage .p5)) s
  | .p5 => xfer (addrHigh s.arg) (fun _ => goto (.writePage .p6)) s
  | .p6 => xfer (addrMid s.arg) (fun _ => goto (.writePage .p7)) s
  | .p7 => xfer 0x00 (fun _ s' => goto (.writePage .p8) { s' with cnt := 0 }) s
  | .p8 =>
    xfer (pageByte s.page s.cnt) (fun _ s' =>
      if s'.cnt = 0xFF then goto (.writePage .p9) s' else { s' with cnt := s'.cnt + 1 }) s
  | .p9 => deselect (goto (.writePage .p10)) s
  | .p10 => delay s.par.tSettle (goto (.writePage .p11)) s
  | .p11 => .go (goto (.inWait .p11 .w0) s)
  | .p12 => .go (goto (.inDisable .p12 .u0) s)
  | .p13 => .go (respondAny .ok { s with env := s.env.settle (.page s.arg) })

end Sys2Proof.Machine
end

