-- ==== Sys2Proof/Machine/Read.lean ====
section
/-! DEFINITION. The sequences of BEGIN_READ, READ_NEXT and END_READ (spec/46_read.md). -/

namespace Sys2Proof.Machine

/-- The lines of BEGIN_READ (R167); a is ARG. The chip stays selected. -/
def lineBeginRead (l : BeginReadLabel) (s : State) : Move :=
  match l with
  | .b0 => .go (if inRange s.arg s.cap then goto (.beginRead .b1) s else respondAny .fail s)
  | .b1 => .go (goto (.inWait .b1 .w0) s)
  | .b2 => select (goto (.beginRead .b3)) s
  | .b3 => xfer Config.opReadData (fun _ => goto (.beginRead .b4)) s
  | .b4 => xfer (addrHigh s.arg) (fun _ => goto (.beginRead .b5)) s
  | .b5 => xfer (addrMid s.arg) (fun _ => goto (.beginRead .b6)) s
  | .b6 => xfer (addrLow s.arg) (fun _ => goto (.beginRead .b7)) s
  | .b7 => .go (goto (.beginRead .b8) { s with rda := true })
  | .b8 => .go (respondAny .ok s)

/-- The lines of READ_NEXT (R169). The local b reaches N1 through RSP.VAL, which only a Respond makes
valid (R28; log 14). -/
def lineReadNext (l : ReadNextLabel) (s : State) : Move :=
  match l with
  | .n0 =>
    xfer Config.dummy (fun i s' =>
      goto (.readNext .n1) { s' with rsp := { s'.rsp with val := i.setWidth 32 } }) s
  | .n1 => .go (respond .ok s.rsp.val s)

/-- The lines of END_READ (R171). X1 deselects, clears RDA and responds in one step. -/
def lineEndRead (l : EndReadLabel) (s : State) : Move :=
  match l with
  | .x0 => .go (if s.rda then goto (.endRead .x1) s else respondAny .ok s)
  | .x1 => deselect (fun s' => respondAny .ok { s' with rda := false }) s

end Sys2Proof.Machine
end

