-- ==== Sys2Proof/Machine/ReadyWait.lean ====
section
/-! DEFINITION. The procedure WaitReady and the sequence of WAIT_READY (spec/42_ready_wait.md). -/

namespace Sys2Proof.Machine

/-- `return r` of WaitReady: RES takes r, and the caller's line tests it (R121). A FAIL at a closing
wait leaves the contents of what was erased or programmed, BUSY and the latch any value (R158, R165). -/
def returnWait (caller : WaitSite) (r : Bool) (s : State) : State :=
  match caller with
  | .q0 => goto (.waitReady .q1) { s with res := r }
  | .c0 => passOrFail r (.eraseChip .c1) { s with res := r }
  | .c5 => passOrForget r .whole (.eraseChip .c6) { s with res := r }
  | .s1 => passOrFail r (.eraseSector .s2) { s with res := r }
  | .s9 => passOrForget r (.sector s.arg) (.eraseSector .s10) { s with res := r }
  | .p1 => passOrFail r (.writePage .p2) { s with res := r }
  | .p11 => passOrForget r (.page s.arg) (.writePage .p12) { s with res := r }
  | .b1 => passOrFail r (.beginRead .b2) { s with res := r }

/-- The lines of WaitReady (R135), called from `caller`. -/
def lineWait (caller : WaitSite) (l : WaitLabel) (s : State) : Move :=
  match l with
  | .w0 => now (fun t s' => goto (.inWait caller .w1) { s' with t0 := t }) { s with tmo := timeoutOf caller s }
  | .w1 => select (goto (.inWait caller .w2)) s
  | .w2 => xfer Config.opReadStatus (fun _ => goto (.inWait caller .w3)) s
  | .w3 => xfer Config.dummy (fun i s' => goto (.inWait caller .w4) { s' with sr := i }) s
  | .w4 => deselect (goto (.inWait caller .w5)) s
  | .w5 => .go (if busyBit s.sr then goto (.inWait caller .w6) s else returnWait caller true s)
  | .w6 =>
    now (fun t s' =>
      if timedOut s'.t0 t s'.tmo then returnWait caller false s' else goto (.inWait caller .w1) s') s

/-- The lines of WAIT_READY (R137). -/
def lineWaitReady (l : WaitReadyLabel) (s : State) : Move :=
  match l with
  | .q0 => .go (goto (.inWait .q0 .w0) s)
  | .q1 => .go (if s.res then respondAny .ok s else respondAny .fail s)

end Sys2Proof.Machine
end

