-- ==== Sys2Proof/Machine/WireFrame.lean ====
section
/-! DEFINITION. A frame run by itself, line by line: Select, an exchange per byte, Deselect
(spec/30_encoding.md R87), waiting at an exchange that ENV does not answer (spec/20_memory.md R69), and
what SEQ keeps of the received bytes (R92). -/

namespace Sys2Proof.Machine

/-- The wire opcode of a row (R90). -/
def WireRow.opcode : WireRow → Byte
  | .pageProgram => Config.opPageProgram
  | .readData => Config.opReadData
  | .writeDisable => Config.opWriteDisable
  | .readStatus => Config.opReadStatus
  | .writeEnable => Config.opWriteEnable
  | .sectorErase => Config.opSectorErase
  | .chipErase => Config.opChipErase
  | .readId => Config.opReadId

/-- The bytes of a frame, the opcode first (R87). -/
def WireFrame.bytes (f : WireFrame) : List Byte := f.row.opcode :: f.operands

/-- What SEQ keeps of the bytes received after the opcode's exchange (R92): the status byte in SR, the
three identification bytes in ID, first byte high (R48). The data bytes of a read frame stand in the
trace, since no READ_NEXT takes them. -/
def keepReceived (row : WireRow) (received : List Byte) (s : State) : State :=
  match row with
  | .readStatus => { s with sr := received.getD 0 s.sr }
  | .readId =>
    { s with ident := (received.getD 0 0 ++ received.getD 1 0 ++ received.getD 2 0 : BitVec 24) }
  | .pageProgram => s
  | .readData => s
  | .writeDisable => s
  | .writeEnable => s
  | .sectorErase => s
  | .chipErase => s

/-- The lines of a frame run by itself (R87). It ends idle, with no response. -/
def lineFrame (f : WireFrame) (l : FrameLabel) (s : State) : Move :=
  match l with
  | .start => select (goto (.frame f .opcode)) s
  | .opcode => xfer f.row.opcode (fun _ => goto (.frame f (.operands f.operands []))) s
  | .operands [] received => deselect (fun s' => keepReceived f.row received (goto .idle s')) s
  | .operands (o :: left) received =>
    xfer o (fun i => goto (.frame f (.operands left (received ++ [i])))) s

end Sys2Proof.Machine
end

