-- ==== Sys2Proof/Machine/WriteLatch.lean ====
section
/-! DEFINITION. The procedures WriteEnable and WriteDisable and the sequences of WRITE_ENABLE and
WRITE_DISABLE (spec/43_write_enable.md). -/

namespace Sys2Proof.Machine

/-- `return r` of WriteEnable, and the caller's test of it (R121, R179). -/
def returnEnable (caller : EnableSite) (r : Bool) (s : State) : State :=
  match caller with
  | .e0 => goto (.writeEnable .e1) { s with res := r }
  | .c1 => passOrFail r (.eraseChip .c2) { s with res := r }
  | .s2 => passOrFail r (.eraseSector .s3) { s with res := r }
  | .p2 => passOrFail r (.writePage .p3) { s with res := r }

/-- The lines of WriteEnable (R145). -/
def lineEnable (caller : EnableSite) (l : EnableLabel) (s : State) : Move :=
  match l with
  | .v0 => select (goto (.inEnable caller .v1)) s
  | .v1 => xfer Config.opWriteEnable (fun _ => goto (.inEnable caller .v2)) s
  | .v2 => deselect (goto (.inEnable caller .v3)) s
  | .v3 => select (goto (.inEnable caller .v4)) s
  | .v4 => xfer Config.opReadStatus (fun _ => goto (.inEnable caller .v5)) s
  | .v5 => xfer Config.dummy (fun i s' => goto (.inEnable caller .v6) { s' with sr := i }) s
  | .v6 => deselect (goto (.inEnable caller .v7)) s
  | .v7 => .go (returnEnable caller (writeEnabledBit s.sr) s)

/-- The label after the caller's line of WriteDisable, which has no result (R147). -/
def afterDisable : DisableSite → Phase
  | .f0 => .writeDisable .f1
  | .c6 => .eraseChip .c7
  | .s10 => .eraseSector .s11
  | .p12 => .writePage .p13

/-- The lines of WriteDisable (R147). -/
def lineDisable (caller : DisableSite) (l : DisableLabel) (s : State) : Move :=
  match l with
  | .u0 => select (goto (.inDisable caller .u1)) s
  | .u1 => xfer Config.opWriteDisable (fun _ => goto (.inDisable caller .u2)) s
  | .u2 => deselect (goto (afterDisable caller)) s

/-- The lines of WRITE_ENABLE (R149). -/
def lineWriteEnable (l : WriteEnableLabel) (s : State) : Move :=
  match l with
  | .e0 => .go (goto (.inEnable .e0 .v0) s)
  | .e1 => .go (if s.res then respondAny .ok s else respondAny .fail s)

/-- The lines of WRITE_DISABLE (R150). -/
def lineWriteDisable (l : WriteDisableLabel) (s : State) : Move :=
  match l with
  | .f0 => .go (goto (.inDisable .f0 .u0) s)
  | .f1 => .go (respondAny .ok s)

end Sys2Proof.Machine
end

