-- ==== Sys2Proof/Machine/Sequencer.lean ====
section
/-! DEFINITION. The sequencer (spec/40_sequencer_core.md): one step of SEQ, a run of steps up to the
command's Respond, the dispatcher with its guards, and the frame by itself. -/

namespace Sys2Proof.Machine

/-! ## One step of SEQ -/

/-- The line at PH (R111). Idle, SEQ waits for a command (R195). -/
def line (s : State) : Move :=
  match s.ph with
  | .idle => .wait s
  | .init l => lineInit l s
  | .waitReady l => lineWaitReady l s
  | .writeEnable l => lineWriteEnable l s
  | .writeDisable l => lineWriteDisable l s
  | .eraseChip l => lineEraseChip l s
  | .eraseSector l => lineEraseSector l s
  | .writePage l => lineWritePage l s
  | .beginRead l => lineBeginRead l s
  | .readNext l => lineReadNext l s
  | .endRead l => lineEndRead l s
  | .inWait c l => lineWait c l s
  | .inEnable c l => lineEnable c l s
  | .inDisable c l => lineDisable c l s
  | .frame f l => lineFrame f l s

/-- One step of SEQ: `rst` is looked at first and beats everything (R184, R200). -/
def tick (s : State) : Move :=
  if rstNow s then .go (takeReset s) else line { s with rstIn := s.rstIn.tail }

/-! ## A run of steps -/

/-- At most `n` steps of SEQ, up to the one that makes it idle. A step that waits for ENV is repeated
only while `rst` may still break the wait; then the machine stays in that phase (R69). -/
def run : Nat → State → Host.Outcome State Fault Refusal
  | 0, s => .next s
  | n + 1, s =>
    if s.ph = .idle then .next s
    else
      match tick s with
      | .go t => run n t
      | .wait t => if t.rstIn = [] then .next t else run n t
      | .stop f => .fault f

/-- The lines of the frame in flight, if one is. -/
def Phase.frameLines : Phase → Nat
  | .frame f _ => f.operands.length + 3
  | _ => 0

/-- How many steps of SEQ one step of the machine takes at most. It bounds no poll loop: a command it
does not finish stands at its label, and the next step goes on from there (R139, R220; log 15). -/
def budget (s : State) : Nat :=
  16 * (s.clk.gaps.length + 2 ^ 32 + 64) + s.rstIn.length + s.ph.frameLines

/-- SEQ goes on with the command in flight (R122). -/
def resume (s : State) : Host.Outcome State Fault Refusal := run (budget s) s

/-! ## The dispatcher -/

/-- The session guard (R108): with RDA = 1 only READ_NEXT (0x9) and END_READ (0xA) are admitted, with
RDA = 0 READ_NEXT is not. -/
def admits (op : BitVec 4) (rda : Bool) : Bool :=
  if rda then op = 0x9 || op = 0xA else op ≠ 0x9

/-- The dispatcher after the code was found legal (R106): PROTOCOL, or the command's first label. -/
def dispatch (first : Phase) (s : State) : State :=
  if admits s.op s.rda then goto first s else respondAny .protocol s

/-- The host presents the command word `cw` of a legal code (R105): accepted when SEQ is ready, and
run; otherwise it waits at the port and nothing changes (R30). -/
def issue (cw : Word) (first : Phase) (s : State) : Host.Outcome State Fault Refusal :=
  if cmdReady s then run (budget s) (dispatch first (accept cw s)) else .next s

/-- The host presents a word whose code is illegal (R95, R107). -/
def issueIllegal (cw : Word) (s : State) : Host.Outcome State Fault Refusal :=
  if cmdReady s then .next (respondAny .illegal (accept cw s)) else .next s

/-! ## A frame by itself -/

/-- The exchange events of a frame (R118). -/
def xferEvents : List Byte → List Byte → List Event
  | o :: os, i :: is => .xfer o i :: xferEvents os is
  | _, _ => []

/-- The state in which a frame run by itself begins. -/
def beginFrame (f : WireFrame) (s : State) : State :=
  goto (.frame f .start) { s with rstIn := s.rstIn.tail }

/-- SEQ sends one frame (R87). It does so only when it is ready: while a command runs the bus is that
command's (R57, R68). -/
def sendFrame (f : WireFrame) (s : State) : Host.Outcome State Fault Refusal :=
  if cmdReady s then run (budget (beginFrame f s)) (beginFrame f s) else .next s

end Sys2Proof.Machine
end

