-- ==== Sys2Proof/Machine/Commands.lean ====
section
/-! DEFINITION. The meaning of each host command: its word is presented to SEQ, which accepts it,
guards it and walks its sequence (spec/30_encoding.md R82, spec/40_sequencer_core.md R105, R109). The
sequence itself, label by label, is the command's line function. -/

namespace Sys2Proof.Machine

/-- INIT (R130): `lineInit` from I0. -/
def execInit (rsv : BitVec 4) (arg : Addr) (s : State) : Host.Outcome State Fault Refusal :=
  issue (mkCommandWord 0x1 rsv arg) (.init .i0) s

/-- WAIT_READY (R137): `lineWaitReady` from Q0. -/
def execWaitReady (rsv : BitVec 4) (arg : Addr) (s : State) : Host.Outcome State Fault Refusal :=
  issue (mkCommandWord 0x2 rsv arg) (.waitReady .q0) s

/-- WRITE_ENABLE (R149): `lineWriteEnable` from E0. -/
def execWriteEnable (rsv : BitVec 4) (arg : Addr) (s : State) : Host.Outcome State Fault Refusal :=
  issue (mkCommandWord 0x3 rsv arg) (.writeEnable .e0) s

/-- WRITE_DISABLE (R150): `lineWriteDisable` from F0. -/
def execWriteDisable (rsv : BitVec 4) (arg : Addr) (s : State) : Host.Outcome State Fault Refusal :=
  issue (mkCommandWord 0x4 rsv arg) (.writeDisable .f0) s

/-- ERASE_CHIP (R153): `lineEraseChip` from C0. -/
def execEraseChip (rsv : BitVec 4) (arg : Addr) (s : State) : Host.Outcome State Fault Refusal :=
  issue (mkCommandWord 0x5 rsv arg) (.eraseChip .c0) s

/-- ERASE_SECTOR (R155): `lineEraseSector` from S0. -/
def execEraseSector (rsv : BitVec 4) (arg : Addr) (s : State) : Host.Outcome State Fault Refusal :=
  issue (mkCommandWord 0x6 rsv arg) (.eraseSector .s0) s

/-- WRITE_PAGE (R161): the host holds `buf` at the page data port (R33), then `lineWritePage` from P0.
A command that SEQ is not ready for waits with its buffer. -/
def execWritePage (rsv : BitVec 4) (arg : Addr) (buf : List Byte) (s : State) :
    Host.Outcome State Fault Refusal :=
  if cmdReady s then issue (mkCommandWord 0x7 rsv arg) (.writePage .p0) { s with page := buf } else .next s

/-- BEGIN_READ (R167): `lineBeginRead` from B0. -/
def execBeginRead (rsv : BitVec 4) (arg : Addr) (s : State) : Host.Outcome State Fault Refusal :=
  issue (mkCommandWord 0x8 rsv arg) (.beginRead .b0) s

/-- READ_NEXT (R169): `lineReadNext` from N0. -/
def execReadNext (rsv : BitVec 4) (arg : Addr) (s : State) : Host.Outcome State Fault Refusal :=
  issue (mkCommandWord 0x9 rsv arg) (.readNext .n0) s

/-- END_READ (R171): `lineEndRead` from X0. -/
def execEndRead (rsv : BitVec 4) (arg : Addr) (s : State) : Host.Outcome State Fault Refusal :=
  issue (mkCommandWord 0xA rsv arg) (.endRead .x0) s

end Sys2Proof.Machine
end

