-- ==== Sys2Proof/Machine/Frames.lean ====
section
/-! DEFINITION. The meaning of each wire row: one whole frame of its layout (spec/30_encoding.md R88,
R90), what SEQ keeps of the received bytes (R92), and what the chip does of it, which is ENV's answer
to the frame (spec/20_memory.md R61 to R67, R73 to R79). -/

namespace Sys2Proof.Machine

/-- W_PAGE_PROGRAM, layout L4 (R88, R89, R162): opcode, `a[23:16]`, `a[15:8]`, 0x00, 256 bytes; every
received byte is discarded. Data of another length are no layout of R88. -/
def execWPageProgram (page : BitVec 16) (data : List Byte) (s : State) :
    Host.Outcome State Fault Refusal :=
  if data.length = Config.pageSize then
    sendFrame ⟨.pageProgram, page.extractLsb' 8 8 :: page.extractLsb' 0 8 :: 0x00 :: data⟩ s
  else .refused .frameShape

/-- W_READ_DATA, layout L5 with `n` data bytes (R88, R91): the data bytes stand in the trace; the
host's READ_NEXT takes them one by one (R92). -/
def execWReadData (a : Addr) (n : Nat) (s : State) : Host.Outcome State Fault Refusal :=
  sendFrame ⟨.readData, addrHigh a :: addrMid a :: addrLow a :: List.replicate n Config.dummy⟩ s

/-- W_WRITE_DISABLE, layout L1 (R88, R147). -/
def execWWriteDisable (s : State) : Host.Outcome State Fault Refusal := sendFrame ⟨.writeDisable, []⟩ s

/-- W_READ_STATUS_1, layout L2 (R88): the second received byte goes to SR (R92). -/
def execWReadStatus1 (s : State) : Host.Outcome State Fault Refusal :=
  sendFrame ⟨.readStatus, [Config.dummy]⟩ s

/-- W_WRITE_ENABLE, layout L1 (R88, R145). -/
def execWWriteEnable (s : State) : Host.Outcome State Fault Refusal := sendFrame ⟨.writeEnable, []⟩ s

/-- W_SECTOR_ERASE_4K, layout L3 (R88, R89): all three address bytes unchanged. -/
def execWSectorErase4k (a : Addr) (s : State) : Host.Outcome State Fault Refusal :=
  sendFrame ⟨.sectorErase, [addrHigh a, addrMid a, addrLow a]⟩ s

/-- W_CHIP_ERASE, layout L1 (R88). -/
def execWChipErase (s : State) : Host.Outcome State Fault Refusal := sendFrame ⟨.chipErase, []⟩ s

/-- W_READ_IDENTIFICATION, layout L6 (R88): the second, third and fourth received bytes go to ID,
first byte high (R48, R92). -/
def execWReadIdentification (s : State) : Host.Outcome State Fault Refusal :=
  sendFrame ⟨.readId, [Config.dummy, Config.dummy, Config.dummy]⟩ s

end Sys2Proof.Machine
end

