-- ==== Sys2Proof/Machine/Dispatch.lean ====
section
/-! DEFINITION. The dispatch: one arm per row of spec/opcode_table.json. -/

namespace Sys2Proof.Machine

def exec (i : Instr) (s : State) : Host.Outcome State Fault Refusal :=
  match i with
  | .init rsv arg => Sys2Proof.Machine.execInit rsv arg s
  | .waitReady rsv arg => Sys2Proof.Machine.execWaitReady rsv arg s
  | .writeEnable rsv arg => Sys2Proof.Machine.execWriteEnable rsv arg s
  | .writeDisable rsv arg => Sys2Proof.Machine.execWriteDisable rsv arg s
  | .eraseChip rsv arg => Sys2Proof.Machine.execEraseChip rsv arg s
  | .eraseSector rsv arg => Sys2Proof.Machine.execEraseSector rsv arg s
  | .writePage rsv arg buf => Sys2Proof.Machine.execWritePage rsv arg buf s
  | .beginRead rsv arg => Sys2Proof.Machine.execBeginRead rsv arg s
  | .readNext rsv arg => Sys2Proof.Machine.execReadNext rsv arg s
  | .endRead rsv arg => Sys2Proof.Machine.execEndRead rsv arg s
  | .wPageProgram page data => Sys2Proof.Machine.execWPageProgram page data s
  | .wReadData a n => Sys2Proof.Machine.execWReadData a n s
  | .wWriteDisable => Sys2Proof.Machine.execWWriteDisable s
  | .wReadStatus1 => Sys2Proof.Machine.execWReadStatus1 s
  | .wWriteEnable => Sys2Proof.Machine.execWWriteEnable s
  | .wSectorErase4k a => Sys2Proof.Machine.execWSectorErase4k a s
  | .wChipErase => Sys2Proof.Machine.execWChipErase s
  | .wReadIdentification => Sys2Proof.Machine.execWReadIdentification s

end Sys2Proof.Machine
end

