-- ==== Sys2Proof/Machine/Step.lean ====
section
/-! DEFINITION. One step of the machine. SEQ fetches from no memory (spec/10_state.md R37): what runs
next is what HOST presents at the command port when SEQ is idle (R30), and while a command is in
flight the step goes on with it (spec/40_sequencer_core.md R122). -/

namespace Sys2Proof.Machine

/-- One step. `rst` beats everything (R200). A command in flight goes on. Idle with nothing presented,
SEQ sits in IDLE (R195). A presented request is taken from the port, decoded and run; an illegal code
is answered ILLEGAL (R107). -/
def step (s : State) : Host.Outcome State Fault Refusal :=
  if rstNow s then .next (takeReset s)
  else if s.ph = .idle then
    match s.host with
    | [] => .next { s with rstIn := s.rstIn.tail }
    | r :: rest =>
      match decode r, r with
      | .ok i, _ => exec i { s with host := rest }
      | .error (.illegalCode _), .command cw _ => issueIllegal cw { s with host := rest }
      | .error _, _ => .refused .noInstruction
  else resume s

/-- `s` with the instruction of an opcode-table word presented at the command port, SEQ idle and
`rst` low, so that the next step accepts and runs it (log 5). -/
def State.withFetchWord (s : State) (nbits w : Nat) : State :=
  match tableRequest nbits w with
  | none => s
  | some r => { s with ph := .idle, rstIn := [], host := r :: s.host }

end Sys2Proof.Machine
end

