-- ==== Sys2Proof/Safety.lean ====
section
/-! DEFINITION. The terms claims use: which states are good, what the trace on the transport may look
like (spec/10_state.md R36, spec/30_encoding.md R87 and R97, spec/44_erase.md R154), a wait poll by poll
(spec/42_ready_wait.md R135), what a host program must avoid (spec/60_exceptions.md R188), and the
environment's premises by name
(spec/20_memory.md R69, spec/60_exceptions.md R190). -/

namespace Sys2Proof.Machine

/-! ## Runs of a host program -/

/-- A PROTOCOL or ILLEGAL response: a fault of the host's program (R188). -/
def Event.isHostFault : Event → Bool
  | .response .protocol _ => true
  | .response .illegal _ => true
  | _ => false

/-- "no PROTOCOL or ILLEGAL response occurred" (R188). -/
def State.safe (s : State) : Bool := !s.trace.any Event.isHostFault

/-- The end of a run for SEQ: nothing more is presented, the last command has responded, and PH = IDLE
(R124). DESIGN CHOICE (log 22): the response must still be valid, so a state that a reset has left is not
the end of a run, nor is one in which no command has been accepted; R124 speaks of neither. -/
def State.final (s : State) : Bool := decide (s.ph = .idle) && s.host.isEmpty && s.rsp.valid

/-- The host has met its obligation to end the read session (R124, R172). -/
def State.sessionClosed (s : State) : Bool := !s.rda

/-- Idle and with no reset to come: the condition under which a command is accepted and not cut. -/
def State.ready (s : State) : Prop := s.ph = .idle ∧ s.rstIn = []

/-- SEQ waits at an exchange that ENV does not answer (R69). -/
def State.waiting (s : State) : Bool :=
  match line s with
  | .wait _ => !decide (s.ph = .idle)
  | _ => false

/-- One byte of the flash, where ENV has an array; any value counts as the value it stands for. -/
def State.byteAt (s : State) (a : Nat) : Option Byte := s.env.byteAt a

/-! ## The environment's premises -/

/-- The fairness premise of R69, "ENV always offers one": ENV answers every run of exchanges. -/
def Env.alwaysAnswers (e : Env) : Prop := ∀ bytes : List Byte, (e.exchanges bytes).isSome = true

/-- R190 (b) for a state: no listed advance of the clock, and no timeout, comes near 2^32 ms, so that
no wait can pass a full turn of the counter between two samples. -/
def State.clockBounded (s : State) : Prop :=
  (∀ g ∈ s.clk.gaps, g < 2 ^ 16) ∧ s.par.tDefault.toNat < 2 ^ 31 ∧ s.par.tSector.toNat < 2 ^ 31 ∧
    s.par.tChip.toNat < 2 ^ 31

/-! ## Frames and waits, as events and results -/

/-- The events of one whole frame (R87). -/
def frameEvents (sent received : List Byte) : List Event :=
  .select :: (xferEvents sent received ++ [.deselect])

/-- What a run of WaitReady leaves: its result, its events, T0, the last status byte, the clock and ENV. -/
structure WaitRun where
  ok     : Bool
  events : List Event
  t0     : Word
  sr     : Byte
  clk    : Clock
  env    : Env
  deriving DecidableEq, Repr

/-- The polls of a wait that began at `t0`, from the next one on (R135, R136): a status frame; BUSY clear
ends the wait with 1; else a sample of the clock, which ends it with 0 when more than `tmo` has elapsed,
else the next poll. None where ENV does not answer, or where `n` polls do not end the wait. -/
def pollRun (tmo t0 : Word) : Nat → Clock → Env → Option WaitRun
  | 0, _, _ => none
  | n + 1, clk, env =>
    match env.frame [Config.opReadStatus, Config.dummy] with
    | some ([x, sr], e) =>
      let poll := frameEvents [Config.opReadStatus, Config.dummy] [x, sr]
      if sr.getLsbD 0 = false then some { ok := true, events := poll, t0 := t0, sr := sr, clk := clk, env := e }
      else
        let poll := poll ++ [.time clk.advance.value]
        if (clk.advance.value - t0).toNat > tmo.toNat then
          some { ok := false, events := poll, t0 := t0, sr := sr, clk := clk.advance, env := e }
        else (pollRun tmo t0 n clk.advance e).map fun w => { w with events := poll ++ w.events }
    | _ => none

/-- A run of WaitReady(tmo) with at most `n` polls: the sample T0, then the polls (R135). -/
def waitRun (tmo : Word) (n : Nat) (clk : Clock) (env : Env) : Option WaitRun :=
  (pollRun tmo clk.advance.value n clk.advance env).map fun w =>
    { w with events := .time clk.advance.value :: w.events }

/-! ## What the transport sees -/

/-- Whether the bus is released, just selected, or inside a frame that began with an opcode. -/
inductive Bus where
  | released
  | opened
  | inFrame (op : Byte)
  deriving DecidableEq, Repr

/-- The eight wire opcodes (R90). -/
def isWireOpcode (o : Byte) : Bool :=
  o = Config.opPageProgram || o = Config.opReadData || o = Config.opWriteDisable ||
    o = Config.opReadStatus || o = Config.opWriteEnable || o = Config.opSectorErase ||
    o = Config.opChipErase || o = Config.opReadId

/-- What one event does to the bus, where it may stand: `S` only when released, `D` and `X` only when
selected (R36), at least one exchange a frame (R87), the first of them one of the eight opcodes (R97),
the settling delay only when released (R116). -/
def busStep (b : Bus) (e : Event) : Option Bus :=
  match e with
  | .select => if b = .released then some .opened else none
  | .xfer o _ =>
    match b with
    | .released => none
    | .opened => if isWireOpcode o then some (.inFrame o) else none
    | .inFrame op => some (.inFrame op)
  | .deselect =>
    match b with
    | .inFrame _ => some .released
    | .released => none
    | .opened => none
  | .delay _ => if b = .released then some .released else none
  | .time _ => some b
  | .command _ => some b
  | .response _ _ => some b
  | .reset => some .released

/-- The bus after a list of events, from a given condition. -/
def busFrom : Bus → List Event → Option Bus
  | b, [] => some b
  | b, e :: es =>
    match busStep b e with
    | none => none
    | some b' => busFrom b' es

/-- The bus after a whole trace. -/
def busAfter (t : List Event) : Option Bus := busFrom .released t

/-- Where the bus stands at each phase (R36, and the sequences of files 41 to 46). -/
def busAt (rda : Bool) : Phase → Bus
  | .idle => if rda then .inFrame Config.opReadData else .released
  | .init .i0 => .released
  | .init .i1 => .opened
  | .init .i6 => .released
  | .init _ => .inFrame Config.opReadId
  | .waitReady _ => .released
  | .writeEnable _ => .released
  | .writeDisable _ => .released
  | .eraseChip .c3 => .opened
  | .eraseChip .c4 => .inFrame Config.opChipErase
  | .eraseChip _ => .released
  | .eraseSector .s4 => .opened
  | .eraseSector .s5 => .inFrame Config.opSectorErase
  | .eraseSector .s6 => .inFrame Config.opSectorErase
  | .eraseSector .s7 => .inFrame Config.opSectorErase
  | .eraseSector .s8 => .inFrame Config.opSectorErase
  | .eraseSector _ => .released
  | .writePage .p4 => .opened
  | .writePage .p5 => .inFrame Config.opPageProgram
  | .writePage .p6 => .inFrame Config.opPageProgram
  | .writePage .p7 => .inFrame Config.opPageProgram
  | .writePage .p8 => .inFrame Config.opPageProgram
  | .writePage .p9 => .inFrame Config.opPageProgram
  | .writePage _ => .released
  | .beginRead .b0 => .released
  | .beginRead .b1 => .released
  | .beginRead .b2 => .released
  | .beginRead .b3 => .opened
  | .beginRead _ => .inFrame Config.opReadData
  | .readNext _ => .inFrame Config.opReadData
  | .endRead .x0 => if rda then .inFrame Config.opReadData else .released
  | .endRead .x1 => .inFrame Config.opReadData
  | .inWait _ .w2 => .opened
  | .inWait _ .w3 => .inFrame Config.opReadStatus
  | .inWait _ .w4 => .inFrame Config.opReadStatus
  | .inWait _ _ => .released
  | .inEnable _ .v1 => .opened
  | .inEnable _ .v2 => .inFrame Config.opWriteEnable
  | .inEnable _ .v4 => .opened
  | .inEnable _ .v5 => .inFrame Config.opReadStatus
  | .inEnable _ .v6 => .inFrame Config.opReadStatus
  | .inEnable _ _ => .released
  | .inDisable _ .u1 => .opened
  | .inDisable _ .u2 => .inFrame Config.opWriteDisable
  | .inDisable _ _ => .released
  | .frame _ .start => .released
  | .frame _ .opcode => .opened
  | .frame f (.operands _ _) => .inFrame f.row.opcode

/-- The value RDA has at each phase; idle and X0 stand with either (R21, R108, R167, R171). -/
def rdaAt (rda : Bool) : Phase → Bool
  | .idle => rda
  | .endRead .x0 => rda
  | .endRead .x1 => true
  | .readNext _ => true
  | .beginRead .b8 => true
  | _ => false

/-! ## The invariant -/

/-- CAP holds one of the six values INIT can give it (R20, R94). -/
def capLegal (c : Word) : Bool :=
  c = 0 || c = 0x00100000 || c = 0x00200000 || c = 0x00400000 || c = 0x00800000 || c = 0x01000000

/-- The reference chip agrees with the bus on the frame that is open, and its array is canonical. -/
def envAgrees (b : Bus) : Env → Bool
  | .script _ => true
  | .chip c =>
    Memory.wf c.mem &&
      match b, c.frame with
      | .released, none => true
      | .opened, some [] => true
      | .inFrame op, some (o :: _) => op == o
      | _, _ => false

/-- The invariant: SEL, RDA, the trace and ENV all stand as PH says (R36), CAP is one of its six
values (R20). -/
structure State.Inv (s : State) : Prop where
  rda   : s.rda = rdaAt s.rda s.ph
  sel   : s.sel = decide (busAt s.rda s.ph ≠ .released)
  trace : busAfter s.trace = some (busAt s.rda s.ph)
  env   : envAgrees (busAt s.rda s.ph) s.env = true
  cap   : capLegal s.cap = true

/-! ## The write-enable guard on erase and program frames (R148, R154) -/

/-- What the frames so far allow: nothing, an enable frame just ended, or the status frame right after
it showed WRITE-ENABLED. -/
inductive Grant where
  | no
  | enabled
  | confirmed
  deriving DecidableEq, Repr

/-- The grant, and the exchanges of the frame that is open. -/
structure GuardState where
  grant : Grant
  cur   : List (Byte × Byte)
  deriving DecidableEq, Repr

/-- The grant a finished frame leaves. -/
def grantAfter (g : Grant) : List (Byte × Byte) → Grant
  | [(op, _)] => if op = Config.opWriteEnable then .enabled else .no
  | [(op, _), (_, sr)] =>
    if op = Config.opReadStatus && g = .enabled && writeEnabledBit sr then .confirmed else .no
  | _ => .no

/-- One event under the guard: an erase or page-program opcode may open a frame only with the grant
confirmed (R154: "no erase command is ever sent to a chip that did not confirm write-enable"). -/
def guardStep (g : GuardState) : Event → Option GuardState
  | .select => some { g with cur := [] }
  | .xfer o i =>
    if g.cur = [] && (o = Config.opChipErase || o = Config.opSectorErase || o = Config.opPageProgram)
        && g.grant ≠ .confirmed then none
    else some { g with cur := g.cur ++ [(o, i)] }
  | .deselect => some { grant := grantAfter g.grant g.cur, cur := [] }
  | .reset => some { grant := .no, cur := [] }
  | _ => some g

/-- The guard over a list of events; none where it is broken. -/
def guardFrom : GuardState → List Event → Option GuardState
  | g, [] => some g
  | g, e :: es =>
    match guardStep g e with
    | none => none
    | some g' => guardFrom g' es

/-- The trace never opens an erase or page-program frame without a confirmed enable (R154). -/
def guarded (t : List Event) : Bool := (guardFrom { grant := .no, cur := [] } t).isSome

/-- What the guard holds at each phase: the open frame is the one the phase says; between the enable
frame and its re-read the grant is `enabled`; after a re-read that confirmed, and at every line that
opens an erase or page-program frame, it is `confirmed` (R148, R154). A frame run by itself is outside
the rule, which speaks of SEQ's commands (log 5). -/
def guardAt (s : State) (g : GuardState) : Bool :=
  (match busAt s.rda s.ph with
   | .released => g.cur.isEmpty
   | .opened => g.cur.isEmpty
   | .inFrame op => (g.cur.head?.map (·.1)) == some op) &&
  match s.ph with
  | .inEnable _ .v2 => g.cur.length == 1
  | .inEnable _ .v3 => g.grant == .enabled
  | .inEnable _ .v4 => g.grant == .enabled
  | .inEnable _ .v5 => g.grant == .enabled && g.cur.length == 1
  | .inEnable _ .v6 => g.grant == .enabled && g.cur.length == 2 && (g.cur.getLast?.map (·.2)) == some s.sr
  | .inEnable _ .v7 => !writeEnabledBit s.sr || g.grant == .confirmed
  | .eraseChip .c2 => g.grant == .confirmed
  | .eraseChip .c3 => g.grant == .confirmed
  | .eraseSector .s3 => g.grant == .confirmed
  | .eraseSector .s4 => g.grant == .confirmed
  | .writePage .p3 => g.grant == .confirmed
  | .writePage .p4 => g.grant == .confirmed
  | .frame _ _ => false
  | _ => true

/-- The invariant behind R154: the trace keeps the guard, and the guard stands as PH says. -/
def State.GuardInv (s : State) : Prop :=
  ∃ g, guardFrom { grant := .no, cur := [] } s.trace = some g ∧ guardAt s g = true

/-- Whether a request is a command word, which is all the command port of R30 brings (log 5). -/
def isCommandRequest : Request → Bool
  | .command _ _ => true
  | .frame _ => false

end Sys2Proof.Machine
end

