-- ==== Sys2Proof/Certificates/Slice0/Obligations.lean ====
section
/-! DEFINITION. The statements for the provers, each from the numbered rules of spec/. The helpers
below only name pieces the statements share: the events of the two latch procedures, a run of READ_NEXT
commands, and what two runs must agree on.

The model's own choices in them: a host command is one step of the machine (log 15), an unspecified
RSP.VAL is the free value `Config.anyVal` (log 2), the clock is a list of advances and then free ones
(log 6), a wire row is one lone frame (log 5), OP and ARG are latched for refused words too (log 17),
`xfer_out` keeps the last byte sent (log 20), and TMO, T0, SR, ID, CNT and RES keep what the last command
wrote (log 21). A statement that writes a whole next state out rests on the last two for those fields. -/

namespace Sys2Proof.Claims

open Sys2Proof.Machine

/-- The events of WriteEnable: the enable frame and its one status re-read (R145). -/
def enableEvents (x y sr : Byte) : List Event :=
  [.select, .xfer Config.opWriteEnable x, .deselect, .select, .xfer Config.opReadStatus y,
    .xfer Config.dummy sr, .deselect]

/-- The events of WriteDisable (R147). -/
def disableEvents (x : Byte) : List Event := [.select, .xfer Config.opWriteDisable x, .deselect]

/-- The ten host commands among the rows of the table (R82). -/
def isHostCommand : Instr → Bool
  | .init _ _ => true
  | .waitReady _ _ => true
  | .writeEnable _ _ => true
  | .writeDisable _ _ => true
  | .eraseChip _ _ => true
  | .eraseSector _ _ => true
  | .writePage _ _ _ => true
  | .beginRead _ _ => true
  | .readNext _ _ => true
  | .endRead _ _ => true
  | .wPageProgram _ _ => false
  | .wReadData _ _ => false
  | .wWriteDisable => false
  | .wReadStatus1 => false
  | .wWriteEnable => false
  | .wSectorErase4k _ => false
  | .wChipErase => false
  | .wReadIdentification => false

/-- The commands that store nothing in the flash (R46). -/
def isReadOnly : Instr → Bool
  | .init _ _ => true
  | .waitReady _ _ => true
  | .writeEnable _ _ => true
  | .writeDisable _ _ => true
  | .beginRead _ _ => true
  | .readNext _ _ => true
  | .endRead _ _ => true
  | _ => false

/-- `n` READ_NEXT commands one after another, and the response values in order (R173). -/
def readMany (rsv : BitVec 4) (arg : Addr) : Nat → State → Option (List Word × State)
  | 0, s => some ([], s)
  | n + 1, s =>
    match exec (.readNext rsv arg) s with
    | .next t =>
      match readMany rsv arg n t with
      | some (vs, u) => some (t.rsp.val :: vs, u)
      | none => none
    | _ => none

/-- What is left of an outcome when the latched ARG and the command words of the trace are not looked
at (R96). -/
def blankWord : Host.Outcome State Fault Refusal → Host.Outcome State Fault Refusal
  | .next t =>
    .next { t with
            arg := 0
            trace := t.trace.map fun e =>
              match e with
              | .command _ => .command 0
              | e => e }
  | .fault f => .fault f
  | .refused r => .refused r

/-- What is left when the session guard refuses a command: the latches, the response and the trace
(R106, R108). -/
def answeredProtocol (code rsv : BitVec 4) (arg : Addr) (s : State) : State :=
  { s with
    op := code, arg := arg
    rsp := { valid := true, st := .protocol, val := Config.anyVal s.fresh }
    fresh := s.fresh + 1
    trace := s.trace ++
      [.command (mkCommandWord code rsv arg), .response .protocol (Config.anyVal s.fresh)] }

/-- How many responses a trace holds. -/
def responses (t : List Event) : Nat :=
  (t.filter fun e => match e with | .response _ _ => true | _ => false).length

/-- A reference chip that takes the next command: not BUSY, deselected, its array canonical, and its
enable frame sets the latch. Its size and its BUSY counts are any, and so are its contents. -/
def readyChip (c : Chip) : Prop :=
  c.busy = .left 0 ∧ c.frame = none ∧ Memory.wf c.mem = true ∧ c.par.latch = true

/-- A BUSY count that a wait of `tmo` outlasts, beginning at `clk`: the samples after the BUSY answers
all come with no more than `tmo` elapsed since T0 (R71, R135). -/
def endsInTime (k : BusyCount) (tmo : Word) (clk : Clock) : Prop :=
  ∃ n, n < 2 ^ 32 ∧ k = .left n ∧
    ∀ j, j ≤ n → ((Clock.advance^[j] clk.advance).value - clk.advance.value).toNat ≤ tmo.toNat

/-- Whether a byte's contents wait for a page write to return OK (R188, R207). -/
def lostByWrite : Doubt → Bool
  | .none => false
  | .tillErase _ => false
  | .tillEraseWrite _ => true
  | .tillWrite _ => true

/-- A byte is any value, on an occasion that comes after everything that befell the chip `c` (R188). -/
def anyValueSince (c : Chip) (b : Nat) (v : Option Byte) : Prop :=
  ∃ e, c.fresh ≤ e ∧ v = some (Config.anyContent e b)

/-- The clock after the settling delay of WRITE_PAGE (R116, R161). -/
def settled (d : Word) (clk : Clock) : Clock := { clk with now := clk.now + d.toNat }

/-- The region a command addresses (R201). -/
def commandRegion : Instr → Option Region
  | .eraseChip _ _ => some .whole
  | .eraseSector _ a => some (.sector a)
  | .writePage _ a _ => some (.page a)
  | _ => none

/-- Whether an address lies in a region, on a chip of `size` bytes (R50). -/
def inRegion (size : Nat) (r : Option Region) (b : Nat) : Prop :=
  ∃ g, r = some g ∧ regionBase g ≤ b ∧ b < regionBase g + regionLength size g

/-- A read session on the reference chip: the open frame is an accepted read frame (R66, R73). -/
def inReadFrame (c : Chip) : Prop :=
  c.fbusy = false ∧ ∃ a2 a1 a0 ds, c.frame = some (Config.opReadData :: a2 :: a1 :: a0 :: ds)

end Sys2Proof.Claims

open Sys2Proof Sys2Proof.Machine Sys2Proof.Claims

/-! ## Encodings -/

/-- Decoding an encoded instruction gives it back, for every well-formed instruction of both spaces,
RSV and an unused ARG included (30_encoding.md R80 to R82, R88, R90). -/
def Obligations.DecodeEncodeAgree : Prop :=
  ∀ i : Instr, i.wellFormed = true → decode (encode i) = .ok i

/-- Encoding a decoded request gives it back: no bit of a command word or of a frame is dropped, and
what the decoder yields is well formed (R80, R88). -/
def Obligations.EncodeDecodeAgree : Prop :=
  (∀ cw buf i, decodeCommand cw buf = .ok i →
    i.wellFormed = true ∧ ∃ b, encode i = .command cw b ∧ (cwOp cw = 0x7 → b = buf)) ∧
  (∀ bytes i, decodeFrame bytes = .ok i → i.wellFormed = true ∧ encode i = .frame bytes)

/-- The worked encodings of R83, word by word. -/
def Obligations.WorkedCommandWords : Prop :=
  decodeCommand 0x10000000 [] = .ok (.init 0 0) ∧
  decodeCommand 0x200001F4 [] = .ok (.waitReady 0 500) ∧
  decodeCommand 0x30000000 [] = .ok (.writeEnable 0 0) ∧
  decodeCommand 0x40000000 [] = .ok (.writeDisable 0 0) ∧
  decodeCommand 0x50000000 [] = .ok (.eraseChip 0 0) ∧
  decodeCommand 0x60001234 [] = .ok (.eraseSector 0 0x001234) ∧
  (∀ buf : List Byte, buf.length = 256 → decodeCommand 0x70001234 buf = .ok (.writePage 0 0x001234 buf)) ∧
  decodeCommand 0x80000100 [] = .ok (.beginRead 0 0x000100) ∧
  decodeCommand 0x90000000 [] = .ok (.readNext 0 0) ∧
  decodeCommand 0xA0000000 [] = .ok (.endRead 0 0) ∧
  decodeCommand 0x1F123456 [] = .ok (.init 0xF 0x123456)

/-- Frames written out from the layouts of R88 decode to their rows, and near misses are rejected by
name (R88, R90, R97). -/
def Obligations.WorkedFrames : Prop :=
  decodeFrame [0x06] = .ok .wWriteEnable ∧
  decodeFrame [0x04] = .ok .wWriteDisable ∧
  decodeFrame [0x60] = .ok .wChipErase ∧
  decodeFrame [0x05, 0x00] = .ok .wReadStatus1 ∧
  decodeFrame [0x20, 0x00, 0x12, 0x34] = .ok (.wSectorErase4k 0x001234) ∧
  decodeFrame [0x03, 0x00, 0x01, 0x00, 0x00, 0x00] = .ok (.wReadData 0x000100 2) ∧
  decodeFrame [0x90, 0x00, 0x00, 0x00] = .ok .wReadIdentification ∧
  decodeFrame [0x9F, 0x00, 0x00, 0x00] = .error (.unknownOpcode 0x9F) ∧
  decodeFrame [0x06, 0x00] = .error (.frameLength 0x06 2) ∧
  decodeFrame [] = .error .emptyFrame

/-! ## Flags, operands, derived values -/

/-- R94: the five identifiers and their capacities, and 0 for every other 24-bit value. -/
def Obligations.IdentifierGivesCapacity : Prop :=
  capOf 0xEF4014 = 0x00100000 ∧ capOf 0xEF4015 = 0x00200000 ∧ capOf 0xEF4016 = 0x00400000 ∧
  capOf 0xEF4017 = 0x00800000 ∧ capOf 0xEF4018 = 0x01000000 ∧
  (capOf 0xEF4017).toNat = 8 * 1024 * 1024 ∧
  ∀ id : BitVec 24, id ≠ 0xEF4014 → id ≠ 0xEF4015 → id ≠ 0xEF4016 → id ≠ 0xEF4017 → id ≠ 0xEF4018 →
    capOf id = 0

/-- R12: `InRange(a)` compares the address with CAP as unsigned numbers; false for every address when
CAP = 0, true for every address when CAP = 2^24. -/
def Obligations.InRangeIsUnsignedBound : Prop :=
  ∀ a : Addr, (∀ cap : Word, inRange a cap = true ↔ a.toNat < cap.toNat) ∧
    inRange a 0 = false ∧ inRange a 0x01000000 = true

/-- R13: `Elapsed` is the difference modulo 2^32, the true one when fewer than 2^32 ms have passed, and
a wait's test compares it with the timeout as unsigned numbers. -/
def Obligations.ElapsedIsModularDifference : Prop :=
  (∀ t0 t : Word, (elapsed t0 t).toNat = (t.toNat + 2 ^ 32 - t0.toNat) % 2 ^ 32) ∧
  (∀ m n : Nat, m ≤ n → n - m < 2 ^ 32 →
    (elapsed (BitVec.ofNat 32 m) (BitVec.ofNat 32 n)).toNat = n - m) ∧
  (∀ t0 t tmo : Word, timedOut t0 t tmo = true ↔ (elapsed t0 t).toNat > tmo.toNat)

/-- R11: the high, middle and low byte of a 24-bit address, and that they go on the wire in that order. -/
def Obligations.AddressBytesSplitAddress : Prop :=
  ∀ a : Addr, (addrHigh a).toNat = a.toNat / 65536 ∧ (addrMid a).toNat = a.toNat / 256 % 256 ∧
    (addrLow a).toNat = a.toNat % 256 ∧ (addrHigh a ++ addrMid a ++ addrLow a : BitVec 24) = a ∧
    encode (.wSectorErase4k a) = .frame [0x20, addrHigh a, addrMid a, addrLow a] ∧
    ∀ n, encode (.wReadData a n) =
      .frame (0x03 :: addrHigh a :: addrMid a :: addrLow a :: List.replicate n 0x00)

/-! ## Reset -/

/-- R35: what reset leaves in every register the spec gives a value for. The values of the other
registers are the model's (log 1) and are not stated. -/
def Obligations.ResetStateOfRegisters : Prop :=
  State.reset.cap = 0 ∧ State.reset.rda = false ∧ State.reset.sel = false ∧ State.reset.ph = .idle ∧
  State.reset.rsp.valid = false ∧ State.reset.xferStart = false ∧ csN State.reset = true

/-- R200: in any step in which `rst` is 1, in whatever phase and with whatever presented, SEQ takes the
reset state and does nothing else; no command is accepted; the trace records RST; and when `rst` is
back to 0, SEQ is ready. -/
def Obligations.ResetBeatsEverything : Prop :=
  ∀ s : State, rstNow s = true → cmdReady s = false ∧
    ∃ t, step s = .next t ∧ (s.ph ≠ .idle → tick s = .go t) ∧
      t.cap = 0 ∧ t.rda = false ∧ t.sel = false ∧ t.ph = .idle ∧ t.rsp.valid = false ∧
      t.xferStart = false ∧ t.trace = s.trace ++ [.reset] ∧ t.host = s.host ∧
      t.rstIn = s.rstIn.tail ∧ (rstNow t = false → cmdReady t = true)

/-- Reset does not reach the chip (70_reset_and_hazards.md R202): between commands, with no session open,
ENV is exactly as it was; with one open, its read frame is ended and nothing else happens to ENV. On the
reference chip (log 7) the array, the latch and BUSY survive in both cases. -/
def Obligations.ResetBetweenCommandsKeepsFlash : Prop :=
  ∀ s t : State, s.Inv → s.ph = .idle → rstNow s = true → step s = .next t →
    (s.sel = false → t.env = s.env) ∧ (s.sel = true → t.env = s.env.deselect) ∧
    (∀ c, s.env = .chip c → ∃ c', t.env = .chip c' ∧ c'.busy = c.busy ∧ c'.wel = c.wel ∧ c'.mem = c.mem) ∧
    ∀ a, t.byteAt a = s.byteAt a

/-! ## The command cycle -/

/-- A step runs the decoded instruction: what the host presents, decoded, is run by exec on the state
with the request taken from the port. -/
def Obligations.StepRunsDecodedInstruction : Prop :=
  ∀ (s : State) (r : Request) (rest : List Request) (i : Instr),
    rstNow s = false → s.ph = .idle → s.host = r :: rest → decode r = .ok i →
    step s = exec i { s with host := rest }

/-- With nothing presented SEQ sits in IDLE (R195): only the sample of `rst` is used up. -/
def Obligations.IdleStepChangesNothing : Prop :=
  ∀ s : State, rstNow s = false → s.ph = .idle → s.host = [] →
    step s = .next { s with rstIn := s.rstIn.tail }

/-- While a command is in flight a presented request stays at the port through the step, and by itself
it changes nothing (R30). -/
def Obligations.PresentedCommandWaits : Prop :=
  (∀ s t : State, s.ph ≠ .idle → step s = .next t → t.host = s.host) ∧
  (∀ (s : State) (i : Instr), i.wellFormed = true → s.ph ≠ .idle → exec i s = .next s)

/-- R106, R107, R109: the dispatcher's three tests in order, and the first label of each command. -/
def Obligations.DispatcherTestsInOrder : Prop :=
  ∀ (s : State) (cw : Word) (buf : List Byte) (rest : List Request),
    s.ready → s.host = .command cw buf :: rest → buf.length = 256 →
    let a := accept cw { s with host := rest }
    a.op = cw.extractLsb' 28 4 ∧ a.arg = cw.extractLsb' 0 24 ∧ a.rsp.valid = false ∧
    (if a.op = 0x0 ∨ 0xB ≤ a.op then step s = .next (respondAny .illegal a)
     else if s.rda = true ∧ a.op ≠ 0x9 ∧ a.op ≠ 0xA then
       ∃ p, step s = .next (respondAny .protocol { a with page := p }) ∧ (a.op ≠ 0x7 → p = s.page)
     else if s.rda = false ∧ a.op = 0x9 then step s = .next (respondAny .protocol a)
     else
       ∃ p, (a.op ≠ 0x7 → p = s.page) ∧ (a.op = 0x7 → p = buf) ∧
       step s = run (budget s)
         { a with
           page := p
           ph :=
             if a.op = 0x1 then .init .i0
             else if a.op = 0x2 then .waitReady .q0
             else if a.op = 0x3 then .writeEnable .e0
             else if a.op = 0x4 then .writeDisable .f0
             else if a.op = 0x5 then .eraseChip .c0
             else if a.op = 0x6 then .eraseSector .s0
             else if a.op = 0x7 then .writePage .p0
             else if a.op = 0x8 then .beginRead .b0
             else if a.op = 0x9 then .readNext .n0
             else .endRead .x0 })

/-- R95: an illegal code is accepted, produces no event on the transport or the clock, changes no
persistent register and is answered ILLEGAL, with or without a session; 0x0 is one. -/
def Obligations.IllegalCodeAnsweredIllegal : Prop :=
  ∀ (s : State) (cw : Word) (buf : List Byte) (rest : List Request),
    s.ready → s.host = .command cw buf :: rest →
    (cwOp cw = 0x0 ∨ cwOp cw = 0xB ∨ cwOp cw = 0xC ∨ cwOp cw = 0xD ∨ cwOp cw = 0xE ∨ cwOp cw = 0xF) →
    step s = .next
      { s with
        host := rest, op := cwOp cw, arg := cwArg cw
        rsp := { valid := true, st := .illegal, val := Config.anyVal s.fresh }
        fresh := s.fresh + 1
        trace := s.trace ++ [.command cw, .response .illegal (Config.anyVal s.fresh)] }

/-- The session guard (R108, R180): with a session open the eight commands are answered PROTOCOL, and
so is READ_NEXT with none; nothing happens on the transport or the clock and the session stays. -/
def Obligations.SessionGuardAnswersProtocol : Prop :=
  ∀ (s : State) (rsv : BitVec 4) (arg : Addr) (buf : List Byte), s.ready →
    (s.rda = true →
      exec (.init rsv arg) s = .next (answeredProtocol 0x1 rsv arg s) ∧
      exec (.waitReady rsv arg) s = .next (answeredProtocol 0x2 rsv arg s) ∧
      exec (.writeEnable rsv arg) s = .next (answeredProtocol 0x3 rsv arg s) ∧
      exec (.writeDisable rsv arg) s = .next (answeredProtocol 0x4 rsv arg s) ∧
      exec (.eraseChip rsv arg) s = .next (answeredProtocol 0x5 rsv arg s) ∧
      exec (.eraseSector rsv arg) s = .next (answeredProtocol 0x6 rsv arg s) ∧
      exec (.writePage rsv arg buf) s = .next (answeredProtocol 0x7 rsv arg { s with page := buf }) ∧
      exec (.beginRead rsv arg) s = .next (answeredProtocol 0x8 rsv arg s)) ∧
    (s.rda = false → exec (.readNext rsv arg) s = .next (answeredProtocol 0x9 rsv arg s))

/-- RSV of every command, and ARG of the form-N commands, are ignored (R96): two words that differ only
there have the same outcome, but for the word itself in the trace and in the ARG latch. -/
def Obligations.IgnoredFieldsHaveNoEffect : Prop :=
  ∀ (s : State) (r r' : BitVec 4) (a a' : Addr) (buf : List Byte),
    blankWord (exec (.init r a) s) = blankWord (exec (.init r' a') s) ∧
    blankWord (exec (.writeEnable r a) s) = blankWord (exec (.writeEnable r' a') s) ∧
    blankWord (exec (.writeDisable r a) s) = blankWord (exec (.writeDisable r' a') s) ∧
    blankWord (exec (.eraseChip r a) s) = blankWord (exec (.eraseChip r' a') s) ∧
    blankWord (exec (.readNext r a) s) = blankWord (exec (.readNext r' a') s) ∧
    blankWord (exec (.endRead r a) s) = blankWord (exec (.endRead r' a') s) ∧
    blankWord (exec (.waitReady r a) s) = blankWord (exec (.waitReady r' a) s) ∧
    blankWord (exec (.eraseSector r a) s) = blankWord (exec (.eraseSector r' a) s) ∧
    blankWord (exec (.writePage r a buf) s) = blankWord (exec (.writePage r' a buf) s) ∧
    blankWord (exec (.beginRead r a) s) = blankWord (exec (.beginRead r' a) s)

/-! ## The commands, run to their response -/

/-- INIT (R130): one identification frame; ID is the three received bytes, first byte high; CAP and the
response value are its capacity; always OK, PROTOCOL in a read session. Every other register is
unchanged. -/
def Obligations.InitSetsCapacity : Prop :=
  ∀ (s : State) (rsv : BitVec 4) (arg : Addr), s.ready →
    (s.rda = true → exec (.init rsv arg) s = .next (answeredProtocol 0x1 rsv arg s)) ∧
    ∀ (x i1 i2 i3 : Byte) (e : Env), s.rda = false → s.sel = false →
    s.env.frame [0x90, 0x00, 0x00, 0x00] = some ([x, i1, i2, i3], e) →
    exec (.init rsv arg) s = .next
      { s with
        op := 0x1, arg := arg, env := e, xferStart := false, xferOut := 0x00
        ident := (i1 ++ i2 ++ i3 : BitVec 24), cap := capOf (i1 ++ i2 ++ i3 : BitVec 24)
        rsp := { valid := true, st := .ok, val := capOf (i1 ++ i2 ++ i3 : BitVec 24) }
        trace := s.trace ++ [.command (mkCommandWord 0x1 rsv arg), .select, .xfer 0x90 x,
          .xfer 0x00 i1, .xfer 0x00 i2, .xfer 0x00 i3, .deselect,
          .response .ok (capOf (i1 ++ i2 ++ i3 : BitVec 24))] }

/-- WAIT_READY whose wait sees BUSY clear, after however many polls (R135, R137): OK, whatever the
timeout; one sample more than BUSY answers. -/
def Obligations.WaitReadySucceeds : Prop :=
  ∀ (s : State) (rsv : BitVec 4) (arg : Addr) (n : Nat) (w : WaitRun),
    s.ready → s.rda = false → s.sel = false → n ≤ 2 ^ 32 →
    waitRun (arg.setWidth 32) n s.clk s.env = some w → w.ok = true →
    exec (.waitReady rsv arg) s = .next
      { s with
        op := 0x2, arg := arg, tmo := arg.setWidth 32, t0 := w.t0, clk := w.clk, sr := w.sr, res := true
        env := w.env, xferStart := false, xferOut := 0x00
        rsp := { valid := true, st := .ok, val := Config.anyVal s.fresh }, fresh := s.fresh + 1
        trace := s.trace ++ .command (mkCommandWord 0x2 rsv arg) ::
          (w.events ++ [.response .ok (Config.anyVal s.fresh)]) }

/-- WAIT_READY whose wait times out, after however many polls (R135, R137, R178): FAIL. -/
def Obligations.WaitReadyTimesOut : Prop :=
  ∀ (s : State) (rsv : BitVec 4) (arg : Addr) (n : Nat) (w : WaitRun),
    s.ready → s.rda = false → s.sel = false → n ≤ 2 ^ 32 →
    waitRun (arg.setWidth 32) n s.clk s.env = some w → w.ok = false →
    exec (.waitReady rsv arg) s = .next
      { s with
        op := 0x2, arg := arg, tmo := arg.setWidth 32, t0 := w.t0, clk := w.clk, sr := w.sr, res := false
        env := w.env, xferStart := false, xferOut := 0x00
        rsp := { valid := true, st := .fail, val := Config.anyVal s.fresh }, fresh := s.fresh + 1
        trace := s.trace ++ .command (mkCommandWord 0x2 rsv arg) ::
          (w.events ++ [.response .fail (Config.anyVal s.fresh)]) }

/-- What WAIT_READY's response means, over every number of polls (R135, R136, R137): OK exactly when
the last poll showed BUSY clear; FAIL only when the last poll showed BUSY set and the last sample
showed more than the timeout elapsed since T0. At least one poll is made. -/
def Obligations.WaitReadyResultMeaning : Prop :=
  ∀ (s t : State) (rsv : BitVec 4) (arg : Addr),
    s.ready → s.rda = false → exec (.waitReady rsv arg) s = .next t → t.ph = .idle →
    t.rsp.valid = true ∧ t.tmo.toNat = arg.toNat ∧
    (t.rsp.st = .ok ∧ t.sr.getLsbD 0 = false ∨
      t.rsp.st = .fail ∧ t.sr.getLsbD 0 = true ∧ (t.clk.value - t.t0).toNat > arg.toNat) ∧
    ∃ x sr es, t.trace = s.trace ++ .command (mkCommandWord 0x2 rsv arg) :: .time s.clk.advance.value ::
      .select :: .xfer 0x05 x :: .xfer 0x00 sr :: .deselect :: es

/-- WRITE_ENABLE (R145, R146, R149): one enable frame, exactly one status re-read, and OK exactly when
bit 1 of that re-read is set, whatever its other bits; PROTOCOL in a read session. -/
def Obligations.WriteEnableReflectsReread : Prop :=
  ∀ (s : State) (rsv : BitVec 4) (arg : Addr), s.ready →
    (s.rda = true → exec (.writeEnable rsv arg) s = .next (answeredProtocol 0x3 rsv arg s)) ∧
    ∀ (x y sr : Byte) (e e' : Env), s.rda = false → s.sel = false →
    s.env.frame [0x06] = some ([x], e) → e.frame [0x05, 0x00] = some ([y, sr], e') →
    let st : Status := if sr.getLsbD 1 then .ok else .fail
    exec (.writeEnable rsv arg) s = .next
      { s with
        op := 0x3, arg := arg, sr := sr, res := sr.getLsbD 1, env := e', xferStart := false
        xferOut := 0x00
        rsp := { valid := true, st := st, val := Config.anyVal s.fresh }, fresh := s.fresh + 1
        trace := s.trace ++ .command (mkCommandWord 0x3 rsv arg) ::
          (enableEvents x y sr ++ [.response st (Config.anyVal s.fresh)]) }

/-- WRITE_DISABLE (R147, R150): one frame, always OK, RES not written; PROTOCOL in a read session. -/
def Obligations.WriteDisableSendsOneFrame : Prop :=
  ∀ (s : State) (rsv : BitVec 4) (arg : Addr), s.ready →
    (s.rda = true → exec (.writeDisable rsv arg) s = .next (answeredProtocol 0x4 rsv arg s)) ∧
    ∀ (x : Byte) (e : Env), s.rda = false → s.sel = false → s.env.frame [0x04] = some ([x], e) →
    exec (.writeDisable rsv arg) s = .next
      { s with
        op := 0x4, arg := arg, env := e, xferStart := false, xferOut := 0x04
        rsp := { valid := true, st := .ok, val := Config.anyVal s.fresh }, fresh := s.fresh + 1
        trace := s.trace ++ .command (mkCommandWord 0x4 rsv arg) ::
          (disableEvents x ++ [.response .ok (Config.anyVal s.fresh)]) }

/-- ERASE_CHIP on its success path, with however many polls a wait (R153): the frames in order, no bound
check (it runs with every CAP), OK. That the OK ends the doubt about what earlier erases lost, the clause
`settle`, is the model's reading of U1 against R188 (log 11). -/
def Obligations.EraseChipSucceeds : Prop :=
  ∀ (s : State) (rsv : BitVec 4) (arg : Addr) (n : Nat) (w w' : WaitRun) (x1 y1 sr1 x2 x4 : Byte)
    (e1 e2 e3 e5 : Env),
    s.ready → s.rda = false → s.sel = false → n ≤ 2 ^ 32 →
    waitRun s.par.tDefault n s.clk s.env = some w → w.ok = true →
    w.env.frame [0x06] = some ([x1], e1) → e1.frame [0x05, 0x00] = some ([y1, sr1], e2) →
    sr1.getLsbD 1 = true → e2.frame [0x60] = some ([x2], e3) →
    waitRun s.par.tChip n w.clk e3 = some w' → w'.ok = true →
    w'.env.frame [0x04] = some ([x4], e5) →
    exec (.eraseChip rsv arg) s = .next
      { s with
        op := 0x5, arg := arg, tmo := s.par.tChip, t0 := w'.t0, clk := w'.clk, sr := w'.sr, res := true
        env := e5.settle .whole, xferStart := false, xferOut := 0x04
        rsp := { valid := true, st := .ok, val := Config.anyVal s.fresh }, fresh := s.fresh + 1
        trace := s.trace ++ .command (mkCommandWord 0x5 rsv arg) ::
          (w.events ++ enableEvents x1 y1 sr1 ++ frameEvents [0x60] [x2] ++ w'.events ++
            disableEvents x4 ++ [.response .ok (Config.anyVal s.fresh)]) }

/-- ERASE_SECTOR on its success path, with however many polls a wait (R155): the bound check on the
address as given, then the frames in order, the three address bytes unchanged. That the OK ends the doubt
about what earlier erases lost, the clause `settle`, is the model's reading of U1 against R188 (log 11). -/
def Obligations.EraseSectorSucceeds : Prop :=
  ∀ (s : State) (rsv : BitVec 4) (a : Addr) (n : Nat) (w w' : WaitRun) (x1 y1 sr1 x4 : Byte)
    (is : List Byte) (e1 e2 e3 e5 : Env),
    s.ready → s.rda = false → s.sel = false → a.toNat < s.cap.toNat → n ≤ 2 ^ 32 →
    waitRun s.par.tDefault n s.clk s.env = some w → w.ok = true →
    w.env.frame [0x06] = some ([x1], e1) → e1.frame [0x05, 0x00] = some ([y1, sr1], e2) →
    sr1.getLsbD 1 = true → e2.frame [0x20, addrHigh a, addrMid a, addrLow a] = some (is, e3) →
    waitRun s.par.tSector n w.clk e3 = some w' → w'.ok = true →
    w'.env.frame [0x04] = some ([x4], e5) →
    exec (.eraseSector rsv a) s = .next
      { s with
        op := 0x6, arg := a, tmo := s.par.tSector, t0 := w'.t0, clk := w'.clk, sr := w'.sr, res := true
        env := e5.settle (.sector a), xferStart := false, xferOut := 0x04
        rsp := { valid := true, st := .ok, val := Config.anyVal s.fresh }, fresh := s.fresh + 1
        trace := s.trace ++ .command (mkCommandWord 0x6 rsv a) ::
          (w.events ++ enableEvents x1 y1 sr1 ++ frameEvents [0x20, addrHigh a, addrMid a, addrLow a] is ++
            w'.events ++ disableEvents x4 ++ [.response .ok (Config.anyVal s.fresh)]) }

/-- WRITE_PAGE on its success path, with however many polls a wait (R161, R162, R163): the page-program
frame is the opcode, two address bytes, 0x00 and the 256 bytes of the buffer, each once and in order;
then the settling delay and the closing wait. That the OK ends the doubt about a page that a write had lost
and that was erased since, the clause `settle`, is the model's (R188, R207; log 11), and so is a Delay of
exactly T_SETTLE (R116; log 6). -/
def Obligations.WritePageSucceeds : Prop :=
  ∀ (s : State) (rsv : BitVec 4) (a : Addr) (buf : List Byte) (n : Nat) (w w' : WaitRun)
    (x1 y1 sr1 x4 : Byte) (is : List Byte) (e1 e2 e3 e5 : Env),
    s.ready → s.rda = false → s.sel = false → a.toNat < s.cap.toNat → buf.length = 256 → n ≤ 2 ^ 32 →
    waitRun s.par.tDefault n s.clk s.env = some w → w.ok = true →
    w.env.frame [0x06] = some ([x1], e1) → e1.frame [0x05, 0x00] = some ([y1, sr1], e2) →
    sr1.getLsbD 1 = true → e2.frame (0x02 :: addrHigh a :: addrMid a :: 0x00 :: buf) = some (is, e3) →
    waitRun s.par.tDefault n (settled s.par.tSettle w.clk) e3 = some w' → w'.ok = true →
    w'.env.frame [0x04] = some ([x4], e5) →
    exec (.writePage rsv a buf) s = .next
      { s with
        op := 0x7, arg := a, page := buf, cnt := 0xFF, tmo := s.par.tDefault, t0 := w'.t0, clk := w'.clk
        sr := w'.sr, res := true, env := e5.settle (.page a), xferStart := false, xferOut := 0x04
        rsp := { valid := true, st := .ok, val := Config.anyVal s.fresh }, fresh := s.fresh + 1
        trace := s.trace ++ .command (mkCommandWord 0x7 rsv a) ::
          (w.events ++ enableEvents x1 y1 sr1 ++
            frameEvents (0x02 :: addrHigh a :: addrMid a :: 0x00 :: buf) is ++ .delay s.par.tSettle ::
            (w'.events ++ disableEvents x4 ++ [.response .ok (Config.anyVal s.fresh)])) }

/-- BEGIN_READ on its success path, with however many polls (R167): the read frame is left open, SEL = 1,
RDA = 1, OK, and no data byte has been exchanged. -/
def Obligations.BeginReadOpensSession : Prop :=
  ∀ (s : State) (rsv : BitVec 4) (a : Addr) (n : Nat) (w : WaitRun) (is : List Byte) (e1 : Env),
    s.ready → s.rda = false → s.sel = false → a.toNat < s.cap.toNat → n ≤ 2 ^ 32 →
    waitRun s.par.tDefault n s.clk s.env = some w → w.ok = true →
    w.env.openFrame [0x03, addrHigh a, addrMid a, addrLow a] = some (is, e1) →
    exec (.beginRead rsv a) s = .next
      { s with
        op := 0x8, arg := a, tmo := s.par.tDefault, t0 := w.t0, clk := w.clk
        sr := w.sr, res := true, env := e1, xferStart := false, xferOut := addrLow a
        rda := true, sel := true
        rsp := { valid := true, st := .ok, val := Config.anyVal s.fresh }, fresh := s.fresh + 1
        trace := s.trace ++ .command (mkCommandWord 0x8 rsv a) ::
          (w.events ++ .select :: xferEvents [0x03, addrHigh a, addrMid a, addrLow a] is ++
            [.response .ok (Config.anyVal s.fresh)]) }

/-- READ_NEXT in a session (R169): one exchange in the open frame, and OK with the byte received,
whatever it is; PROTOCOL, with no exchange, when no session is open. -/
def Obligations.ReadNextReturnsByte : Prop :=
  ∀ (s : State) (rsv : BitVec 4) (arg : Addr), s.ready →
    (s.rda = false → exec (.readNext rsv arg) s = .next (answeredProtocol 0x9 rsv arg s)) ∧
    ∀ (b : Byte) (e : Env), s.rda = true → s.sel = true → s.env.exchange 0x00 = some (b, e) →
    exec (.readNext rsv arg) s = .next
      { s with
        op := 0x9, arg := arg, env := e, xferStart := false, xferOut := 0x00
        rsp := { valid := true, st := .ok, val := b.setWidth 32 }
        trace := s.trace ++ [.command (mkCommandWord 0x9 rsv arg), .xfer 0x00 b,
          .response .ok (b.setWidth 32)] }

/-- END_READ (R171): with a session open it releases the chip-select and clears RDA; with none it does
nothing; OK in both cases. -/
def Obligations.EndReadClosesSession : Prop :=
  ∀ (s : State) (rsv : BitVec 4) (arg : Addr), s.ready →
    (s.rda = true → s.sel = true →
      exec (.endRead rsv arg) s = .next
        { s with
          op := 0xA, arg := arg, sel := false, rda := false, env := s.env.deselect
          rsp := { valid := true, st := .ok, val := Config.anyVal s.fresh }, fresh := s.fresh + 1
          trace := s.trace ++ [.command (mkCommandWord 0xA rsv arg), .deselect,
            .response .ok (Config.anyVal s.fresh)] }) ∧
    (s.rda = false →
      exec (.endRead rsv arg) s = .next
        { s with
          op := 0xA, arg := arg
          rsp := { valid := true, st := .ok, val := Config.anyVal s.fresh }, fresh := s.fresh + 1
          trace := s.trace ++ [.command (mkCommandWord 0xA rsv arg),
            .response .ok (Config.anyVal s.fresh)] })

/-! ## The failure endings -/

/-- FAIL/range (R177, TP1): for every address not below CAP the three bounded commands return FAIL with
no event on the transport or the clock and no register changed but the latches and RSP. -/
def Obligations.OutOfRangeFailsWithoutBus : Prop :=
  ∀ (s : State) (rsv : BitVec 4) (a : Addr) (buf : List Byte),
    s.ready → s.rda = false → s.cap.toNat ≤ a.toNat →
    let failed (code : BitVec 4) (page : List Byte) : State :=
      { s with
        op := code, arg := a, page := page
        rsp := { valid := true, st := .fail, val := Config.anyVal s.fresh }
        fresh := s.fresh + 1
        trace := s.trace ++
          [.command (mkCommandWord code rsv a), .response .fail (Config.anyVal s.fresh)] }
    exec (.eraseSector rsv a) s = .next (failed 0x6 s.page) ∧
    exec (.writePage rsv a buf) s = .next (failed 0x7 buf) ∧
    exec (.beginRead rsv a) s = .next (failed 0x8 s.page)

/-- FAIL/timeout of the opening wait (R178, R120), after however many polls: nothing but status frames was
sent, and SEL and RDA are 0. ERASE_CHIP does so with every CAP, the other three with an address in range. -/
def Obligations.OpeningWaitTimesOut : Prop :=
  ∀ (s : State) (rsv : BitVec 4) (a : Addr) (buf : List Byte) (n : Nat) (w : WaitRun),
    s.ready → s.rda = false → s.sel = false → n ≤ 2 ^ 32 →
    waitRun s.par.tDefault n s.clk s.env = some w → w.ok = false →
    let failed (code : BitVec 4) (page : List Byte) : State :=
      { s with
        op := code, arg := a, page := page, tmo := s.par.tDefault, t0 := w.t0, clk := w.clk, sr := w.sr
        res := false, env := w.env, xferStart := false, xferOut := 0x00
        rsp := { valid := true, st := .fail, val := Config.anyVal s.fresh }
        fresh := s.fresh + 1
        trace := s.trace ++ .command (mkCommandWord code rsv a) ::
          (w.events ++ [.response .fail (Config.anyVal s.fresh)]) }
    exec (.eraseChip rsv a) s = .next (failed 0x5 s.page) ∧
    (a.toNat < s.cap.toNat →
      exec (.eraseSector rsv a) s = .next (failed 0x6 s.page) ∧
      exec (.writePage rsv a buf) s = .next (failed 0x7 buf) ∧
      exec (.beginRead rsv a) s = .next (failed 0x8 s.page))

/-- FAIL/latch (R179, R120): the opening wait ends well, after however many polls, but bit 1 of the
re-read is clear; no erase or program frame and no closing frame is sent. ERASE_CHIP does so with every
CAP. -/
def Obligations.LatchNotConfirmedFails : Prop :=
  ∀ (s : State) (rsv : BitVec 4) (a : Addr) (buf : List Byte) (n : Nat) (w : WaitRun)
    (x1 y1 sr1 : Byte) (e1 e2 : Env),
    s.ready → s.rda = false → s.sel = false → n ≤ 2 ^ 32 →
    waitRun s.par.tDefault n s.clk s.env = some w → w.ok = true →
    w.env.frame [0x06] = some ([x1], e1) → e1.frame [0x05, 0x00] = some ([y1, sr1], e2) →
    sr1.getLsbD 1 = false →
    let failed (code : BitVec 4) (page : List Byte) : State :=
      { s with
        op := code, arg := a, page := page, tmo := s.par.tDefault, t0 := w.t0, clk := w.clk, sr := sr1
        res := false, env := e2, xferStart := false, xferOut := 0x00
        rsp := { valid := true, st := .fail, val := Config.anyVal s.fresh }
        fresh := s.fresh + 1
        trace := s.trace ++ .command (mkCommandWord code rsv a) ::
          (w.events ++ enableEvents x1 y1 sr1 ++ [.response .fail (Config.anyVal s.fresh)]) }
    exec (.eraseChip rsv a) s = .next (failed 0x5 s.page) ∧
    (a.toNat < s.cap.toNat →
      exec (.eraseSector rsv a) s = .next (failed 0x6 s.page) ∧
      exec (.writePage rsv a buf) s = .next (failed 0x7 buf))

/-- FAIL at the closing wait of ERASE_CHIP, ERASE_SECTOR and WRITE_PAGE, after however many polls (R153,
R155, R158, R161, R165): the erase or program frame was sent, no write-disable frame is, and on a chip
the region's contents, BUSY and the latch are any value (U1, U5; log 11). The settling delay of WRITE_PAGE
is exactly T_SETTLE by the model's choice (log 6). -/
def Obligations.ClosingWaitTimesOut : Prop :=
  ∀ (s : State) (rsv : BitVec 4) (a : Addr) (buf : List Byte) (n : Nat) (w w' : WaitRun)
    (x1 y1 sr1 : Byte) (is : List Byte) (e1 e2 e3 : Env),
    s.ready → s.rda = false → s.sel = false → n ≤ 2 ^ 32 →
    waitRun s.par.tDefault n s.clk s.env = some w → w.ok = true →
    w.env.frame [0x06] = some ([x1], e1) → e1.frame [0x05, 0x00] = some ([y1, sr1], e2) →
    sr1.getLsbD 1 = true → w'.ok = false →
    let failed (code : BitVec 4) (tmo : Word) (region : Region) (events : List Event) : State :=
      { s with
        op := code, arg := a, tmo := tmo, t0 := w'.t0, clk := w'.clk, sr := w'.sr, res := false
        env := w'.env.abandon (some region), xferStart := false, xferOut := 0x00
        rsp := { valid := true, st := .fail, val := Config.anyVal s.fresh }, fresh := s.fresh + 1
        trace := s.trace ++ .command (mkCommandWord code rsv a) ::
          (w.events ++ enableEvents x1 y1 sr1 ++ events ++ w'.events ++
            [.response .fail (Config.anyVal s.fresh)]) }
    (e2.frame [0x60] = some (is, e3) → waitRun s.par.tChip n w.clk e3 = some w' →
      exec (.eraseChip rsv a) s = .next (failed 0x5 s.par.tChip .whole (frameEvents [0x60] is))) ∧
    (a.toNat < s.cap.toNat → e2.frame [0x20, addrHigh a, addrMid a, addrLow a] = some (is, e3) →
      waitRun s.par.tSector n w.clk e3 = some w' →
      exec (.eraseSector rsv a) s = .next
        (failed 0x6 s.par.tSector (.sector a) (frameEvents [0x20, addrHigh a, addrMid a, addrLow a] is))) ∧
    (a.toNat < s.cap.toNat → buf.length = 256 →
      e2.frame (0x02 :: addrHigh a :: addrMid a :: 0x00 :: buf) = some (is, e3) →
      waitRun s.par.tDefault n (settled s.par.tSettle w.clk) e3 = some w' →
      exec (.writePage rsv a buf) s = .next
        { failed 0x7 s.par.tDefault (.page a)
            (frameEvents (0x02 :: addrHigh a :: addrMid a :: 0x00 :: buf) is ++ [.delay s.par.tSettle]) with
          page := buf, cnt := 0xFF })

/-! ## The wire rows -/

/-- The one-byte rows W_WRITE_DISABLE, W_WRITE_ENABLE and W_CHIP_ERASE: layout L1, every received byte
discarded (R88, R92). -/
def Obligations.OpcodeOnlyRowsSendOneByte : Prop :=
  ∀ (s : State) (x : Byte) (e : Env), s.ready → s.sel = false →
    let sent (op : Byte) : State :=
      { s with
        env := e, xferStart := false, xferOut := op
        trace := s.trace ++ [.select, .xfer op x, .deselect] }
    (s.env.frame [0x04] = some ([x], e) → exec .wWriteDisable s = .next (sent 0x04)) ∧
    (s.env.frame [0x06] = some ([x], e) → exec .wWriteEnable s = .next (sent 0x06)) ∧
    (s.env.frame [0x60] = some ([x], e) → exec .wChipErase s = .next (sent 0x60))

/-- The rows whose received bytes SEQ keeps: W_READ_STATUS_1 (layout L2, the second byte to SR) and
W_READ_IDENTIFICATION (layout L6, the second to fourth bytes to ID, first byte high) (R88, R92, R48). -/
def Obligations.ReceivingRowsKeepBytes : Prop :=
  (∀ (s : State) (x sr : Byte) (e : Env), s.ready → s.sel = false →
    s.env.frame [0x05, 0x00] = some ([x, sr], e) →
    exec .wReadStatus1 s = .next
      { s with
        sr := sr, env := e, xferStart := false, xferOut := 0x00
        trace := s.trace ++ [.select, .xfer 0x05 x, .xfer 0x00 sr, .deselect] }) ∧
  (∀ (s : State) (x i1 i2 i3 : Byte) (e : Env), s.ready → s.sel = false →
    s.env.frame [0x90, 0x00, 0x00, 0x00] = some ([x, i1, i2, i3], e) →
    exec .wReadIdentification s = .next
      { s with
        ident := (i1 ++ i2 ++ i3 : BitVec 24), env := e, xferStart := false, xferOut := 0x00
        trace := s.trace ++ [.select, .xfer 0x90 x, .xfer 0x00 i1, .xfer 0x00 i2, .xfer 0x00 i3,
          .deselect] })

/-- The rows with an address: W_SECTOR_ERASE_4K (layout L3), W_PAGE_PROGRAM (layout L4, low address
byte 0x00, exactly 256 data bytes) and W_READ_DATA (layout L5, one DUMMY per byte wanted) (R88, R89,
R91, R162). -/
def Obligations.AddressedRowsSendLayout : Prop :=
  ∀ (s : State) (is : List Byte) (e : Env), s.ready → s.sel = false →
    let sent (bytes : List Byte) (last : Byte) : State :=
      { s with
        env := e, xferStart := false, xferOut := last, trace := s.trace ++ frameEvents bytes is }
    (∀ a : Addr, s.env.frame [0x20, addrHigh a, addrMid a, addrLow a] = some (is, e) →
      exec (.wSectorErase4k a) s = .next (sent [0x20, addrHigh a, addrMid a, addrLow a] (addrLow a))) ∧
    (∀ (page : BitVec 16) (data : List Byte), data.length = 256 →
      s.env.frame (0x02 :: page.extractLsb' 8 8 :: page.extractLsb' 0 8 :: 0x00 :: data) = some (is, e) →
      exec (.wPageProgram page data) s = .next
        (sent (0x02 :: page.extractLsb' 8 8 :: page.extractLsb' 0 8 :: 0x00 :: data)
          (data.getLastD 0))) ∧
    (∀ (a : Addr) (n : Nat),
      s.env.frame (0x03 :: addrHigh a :: addrMid a :: addrLow a :: List.replicate n 0x00) = some (is, e) →
      exec (.wReadData a n) s = .next
        (sent (0x03 :: addrHigh a :: addrMid a :: addrLow a :: List.replicate n 0x00)
          (if n = 0 then addrLow a else 0x00)))

/-- A frame by itself that cannot run whole. While the chip is selected it stops (R87 "never nests
frames", R112; the name is the model's, log 16). Where ENV answers fewer bytes than the frame has, SEQ
waits at the first byte with no answer, presenting it (R69); when the other answers come, the next step
sends the rest of the frame and is idle. -/
def Obligations.FrameStopsOrWaits : Prop :=
  ∀ (s : State) (i : Instr) (bytes : List Byte), s.ready → i.wellFormed = true → encode i = .frame bytes →
    (s.sel = true → exec i s = .fault .selectWhileSelected) ∧
    ∀ as : List Byte, s.sel = false → s.env = .script as → as.length < bytes.length →
      ∃ t, exec i s = .next t ∧ t.waiting = true ∧ t.sel = true ∧ t.xferStart = true ∧
        t.xferOut = bytes.getD as.length 0 ∧ t.trace = s.trace ++ .select :: xferEvents bytes as ∧
        ∀ bs : List Byte, as.length + bs.length = bytes.length →
          ∃ u, step { t with env := .script bs } = .next u ∧ u.ph = .idle ∧ u.sel = false ∧
            u.trace = s.trace ++ frameEvents bytes (as ++ bs)

/-! ## The reference chip -/

/-- W_READ_STATUS_1 on the reference chip (R61, R74), BUSY or not: SR takes the status byte, bit 0 BUSY
and bit 1 the latch as they were, and the chip's array is untouched. -/
def Obligations.StatusRowReportsBusyAndLatch : Prop :=
  ∀ (s : State) (c : Chip), s.ready → s.sel = false → s.env = .chip c →
    ∃ t, exec .wReadStatus1 s = .next t ∧ t.sr.getLsbD 0 = isBusy c.busy ∧ t.sr.getLsbD 1 = c.wel ∧
      t.sr.toNat < 4 ∧ ∀ a, t.byteAt a = s.byteAt a

/-- W_WRITE_ENABLE and W_WRITE_DISABLE on the reference chip (R63, R75): not BUSY, the one sets the
latch to what LATCH allows, the other clears it; BUSY, neither has an effect. -/
def Obligations.LatchRowsSetAndClearLatch : Prop :=
  ∀ (s : State) (c : Chip), s.ready → s.sel = false → s.env = .chip c →
    (∃ t c', exec .wWriteEnable s = .next t ∧ t.env = .chip c' ∧ c'.busy = c.busy ∧ c'.mem = c.mem ∧
      c'.wel = (if isBusy c.busy then c.wel else c.par.latch)) ∧
    (∃ t c', exec .wWriteDisable s = .next t ∧ t.env = .chip c' ∧ c'.busy = c.busy ∧ c'.mem = c.mem ∧
      c'.wel = (if isBusy c.busy then c.wel else false))

/-- W_SECTOR_ERASE_4K on the reference chip (R64, R76): with the latch set and not BUSY, every byte of
the sector that contains the address reads ERASED, a byte in doubt is any value anew (R188; log 11), and
every other byte is unchanged. -/
def Obligations.SectorEraseRowErasesSector : Prop :=
  ∀ (s : State) (c : Chip) (a : Addr), s.ready → s.sel = false → s.env = .chip c →
    isBusy c.busy = false → c.wel = true → a.toNat / 4096 * 4096 < chipBytes c.par.size →
    ∃ t, exec (.wSectorErase4k a) s = .next t ∧
      ∀ b, (b / 4096 ≠ a.toNat / 4096 → t.byteAt b = s.byteAt b) ∧
        (b / 4096 = a.toNat / 4096 →
          (c.doubt b = .none → t.byteAt b = some 0xFF) ∧
          (c.doubt b ≠ .none → anyValueSince c b (t.byteAt b)))

/-- W_CHIP_ERASE on the reference chip (R64, R76): with the latch set and not BUSY, every byte of the
chip reads ERASED, and a byte in doubt is any value anew (R188; log 11). -/
def Obligations.ChipEraseRowErasesChip : Prop :=
  ∀ (s : State) (c : Chip), s.ready → s.sel = false → s.env = .chip c →
    isBusy c.busy = false → c.wel = true →
    ∃ t, exec .wChipErase s = .next t ∧
      ∀ b, (chipBytes c.par.size ≤ b → t.byteAt b = s.byteAt b) ∧
        (b < chipBytes c.par.size →
          (c.doubt b = .none → t.byteAt b = some 0xFF) ∧
          (c.doubt b ≠ .none → anyValueSince c b (t.byteAt b)))

/-- W_PAGE_PROGRAM on the reference chip (R65, R77): with the latch set and not BUSY, byte k of the
page becomes old AND data k, a byte in doubt is any value anew (R188; log 11), and every byte outside the
page is unchanged. -/
def Obligations.PageProgramRowProgramsPage : Prop :=
  ∀ (s : State) (c : Chip) (page : BitVec 16) (data : List Byte), s.ready → s.sel = false →
    s.env = .chip c → isBusy c.busy = false → c.wel = true → Memory.wf c.mem = true →
    data.length = 256 → page.toNat * 256 < chipBytes c.par.size →
    ∃ t, exec (.wPageProgram page data) s = .next t ∧
      ∀ b, (b / 256 ≠ page.toNat → t.byteAt b = s.byteAt b) ∧
        (b / 256 = page.toNat →
          (c.doubt b = .none → t.byteAt b = some (c.content b &&& data.getD (b % 256) 0)) ∧
          (c.doubt b ≠ .none → anyValueSince c b (t.byteAt b)))

/-- W_READ_IDENTIFICATION on the reference chip (R67, R79): not BUSY, ID takes IDV. -/
def Obligations.IdentificationRowReadsIdentifier : Prop :=
  ∀ (s : State) (c : Chip), s.ready → s.sel = false → s.env = .chip c → isBusy c.busy = false →
    ∃ t, exec .wReadIdentification s = .next t ∧ t.ident = c.par.idv ∧ ∀ a, t.byteAt a = s.byteAt a

/-- A BUSY reference chip rejects every frame but the status frame (R62, R75): the wire rows leave its
array, its latch and its BUSY as they were. -/
def Obligations.BusyChipRejectsFrames : Prop :=
  ∀ (s : State) (c : Chip) (i : Instr), s.ready → s.sel = false → s.env = .chip c →
    isBusy c.busy = true → i.wellFormed = true → isHostCommand i = false → i ≠ .wReadStatus1 →
    ∃ t c', exec i s = .next t ∧ t.env = .chip c' ∧ c'.mem = c.mem ∧ c'.wel = c.wel ∧ c'.busy = c.busy ∧
      ∀ a, t.byteAt a = s.byteAt a

/-- W_READ_DATA on the reference chip (R66, R78), not BUSY, for n bytes that lie inside the chip: after the
opcode and the address the chip answers its contents at a, a+1, …, a+n-1, in order; the pointer stands
after the last byte read and the array is untouched. -/
def Obligations.ReadRowYieldsContents : Prop :=
  ∀ (s : State) (c : Chip) (a : Addr) (n : Nat), s.ready → s.sel = false → s.env = .chip c →
    isBusy c.busy = false → a.toNat + n ≤ chipBytes c.par.size →
    ∃ t c' x0 x1 x2 x3, exec (.wReadData a n) s = .next t ∧ t.env = .chip c' ∧ c'.ptr = a.toNat + n ∧
      t.trace = s.trace ++
        frameEvents (0x03 :: addrHigh a :: addrMid a :: addrLow a :: List.replicate n 0x00)
          (x0 :: x1 :: x2 :: x3 :: (List.range n).map fun k => c.content (a.toNat + k)) ∧
      ∀ b, t.byteAt b = s.byteAt b

/-! ## Flash contents through the commands -/

/-- The session property (R173, R66, TP5): on a ready reference chip, BEGIN_READ at an in-range address
and then N READ_NEXT commands answer the chip's contents at a, a+1, …, a+N-1, in order; the array is
unchanged and the chip is still selected. -/
def Obligations.ReadSessionYieldsContents : Prop :=
  ∀ (s : State) (c : Chip) (r r' : BitVec 4) (a a' : Addr) (n : Nat),
    s.ready → s.rda = false → s.sel = false → s.env = .chip c → readyChip c →
    a.toNat < s.cap.toNat → a.toNat + n ≤ chipBytes c.par.size →
    ∃ t u, exec (.beginRead r a) s = .next t ∧ t.rsp.st = .ok ∧
      readMany r' a' n t =
        some ((List.range n).map fun k => (c.content (a.toNat + k)).setWidth 32, u) ∧
      u.sel = true ∧ u.rda = true ∧ u.ph = .idle ∧ ∀ b, u.byteAt b = s.byteAt b

/-- The two erase commands on the reference chip (R153, R155, R64, R76, R213). Whenever ERASE_SECTOR of an
address of the chip responds OK, every byte of the sector that contains the address reads ERASED (log 9)
and every byte outside it is unchanged; whenever ERASE_CHIP responds OK, every byte of the chip reads
ERASED: with any BUSY, latch and counts before, and what earlier erases had lost is known again (U1). A
byte that a page write had lost stays any value until a write returns OK too (R188; log 11). And they do
respond OK on a chip that takes the next command, where its BUSY count ends within T_SECTOR or T_CHIP. -/
def Obligations.EraseCommandsEraseTheirRegion : Prop :=
  ∀ (s : State) (c : Chip) (rsv : BitVec 4) (a : Addr),
    s.ready → s.rda = false → s.sel = false → s.env = .chip c → c.frame = none → Memory.wf c.mem = true →
    (∀ t, exec (.eraseSector rsv a) s = .next t → t.ph = .idle → t.rsp.st = .ok →
      a.toNat < chipBytes c.par.size →
      ∀ b, (b / 4096 ≠ a.toNat / 4096 → t.byteAt b = s.byteAt b) ∧
        (b / 4096 = a.toNat / 4096 →
          (lostByWrite (c.doubt b) = false → t.byteAt b = some 0xFF) ∧
          (lostByWrite (c.doubt b) = true → anyValueSince c b (t.byteAt b)))) ∧
    (∀ t, exec (.eraseChip rsv a) s = .next t → t.ph = .idle → t.rsp.st = .ok →
      ∀ b, (chipBytes c.par.size ≤ b → t.byteAt b = s.byteAt b) ∧
        (b < chipBytes c.par.size →
          (lostByWrite (c.doubt b) = false → t.byteAt b = some 0xFF) ∧
          (lostByWrite (c.doubt b) = true → anyValueSince c b (t.byteAt b)))) ∧
    (readyChip c → a.toNat < s.cap.toNat → endsInTime c.par.ks s.par.tSector s.clk.advance →
      ∃ t, exec (.eraseSector rsv a) s = .next t ∧ t.ph = .idle ∧ t.rsp.st = .ok) ∧
    (readyChip c → endsInTime c.par.kc s.par.tChip s.clk.advance →
      ∃ t, exec (.eraseChip rsv a) s = .next t ∧ t.ph = .idle ∧ t.rsp.st = .ok)

/-- WRITE_PAGE on the reference chip (R161, R65, R77, R213). Whenever WRITE_PAGE of an address of the chip
responds OK, buffer byte k has landed at `{a[23:8], 0x00} + k` (old AND new; log 9), not at a + k, and
every byte outside that page is unchanged: with any BUSY, latch and counts before. A byte that still
waits for an erase stays any value (R188; log 11). After ERASE_SECTOR and then WRITE_PAGE have both
returned OK the page holds the buffer, whatever was known before (R188, R207). And WRITE_PAGE does respond
OK on a chip that takes the next command, where its BUSY count ends within T_DEFAULT after a settling
delay of exactly T_SETTLE (log 6). -/
def Obligations.WritePageProgramsContainingPage : Prop :=
  ∀ (s : State) (c : Chip) (rsv : BitVec 4) (a : Addr) (buf : List Byte),
    s.ready → s.rda = false → s.sel = false → s.env = .chip c → c.frame = none → Memory.wf c.mem = true →
    buf.length = 256 →
    (∀ t, exec (.writePage rsv a buf) s = .next t → t.ph = .idle → t.rsp.st = .ok →
      ∀ b, (b / 256 ≠ a.toNat / 256 → t.byteAt b = s.byteAt b) ∧
        (b / 256 = a.toNat / 256 → a.toNat < chipBytes c.par.size →
          (c.doubt b = .none → t.byteAt b = some (c.content b &&& buf.getD (b % 256) 0)) ∧
          (∀ e, c.doubt b = .tillErase e ∨ c.doubt b = .tillEraseWrite e →
            anyValueSince c b (t.byteAt b)))) ∧
    (∀ rsv' t u, exec (.eraseSector rsv' a) s = .next t → t.ph = .idle → t.rsp.st = .ok →
      exec (.writePage rsv a buf) t = .next u → u.ph = .idle → u.rsp.st = .ok →
      a.toNat < chipBytes c.par.size →
      ∀ b, b / 256 = a.toNat / 256 → u.byteAt b = some (buf.getD (b % 256) 0)) ∧
    (readyChip c → a.toNat < s.cap.toNat →
      endsInTime c.par.kp s.par.tDefault (settled s.par.tSettle s.clk.advance) →
      ∃ t, exec (.writePage rsv a buf) s = .next t ∧ t.ph = .idle ∧ t.rsp.st = .ok)

/-- The commands that store nothing leave every byte of the flash as it was, on every path and with
any chip (R46, R51). -/
def Obligations.ReadOnlyCommandsKeepFlash : Prop :=
  ∀ (s t : State) (i : Instr), s.Inv → s.rstIn = [] → isReadOnly i = true → exec i s = .next t →
    ∀ a, t.byteAt a = s.byteAt a

/-- ERASE_SECTOR and WRITE_PAGE leave every byte outside the sector or the page that contains the
address as it was, on every path, failing ones included, and with any chip (R50, R53). -/
def Obligations.StoresStayInTheirRegion : Prop :=
  ∀ (s t : State) (rsv : BitVec 4) (a : Addr) (buf : List Byte), s.Inv → s.ready →
    (exec (.eraseSector rsv a) s = .next t →
      ∀ b, ¬(regionBase (.sector a) ≤ b ∧ b < regionBase (.sector a) + 4096) → t.byteAt b = s.byteAt b) ∧
    (exec (.writePage rsv a buf) s = .next t →
      ∀ b, ¬(regionBase (.page a) ≤ b ∧ b < regionBase (.page a) + 256) → t.byteAt b = s.byteAt b)

/-! ## Whole-machine rules -/

/-- The frame of the registers, on every path with no reset to come: CAP is written only by INIT (R20);
RDA only by BEGIN_READ and END_READ (R21); ID only by INIT and the identification frame, CNT only by
WRITE_PAGE (R26); TMO, T0 and RES not by INIT, WRITE_DISABLE, READ_NEXT, END_READ or a frame (R24, R26);
SR not by those but the status frame (R25); OP, ARG and RSP not by a frame, nor PH unless the frame waits
for ENV (log 5); the clock is not sampled by WRITE_ENABLE either (R191). -/
def Obligations.RegistersWrittenOnlyByTheirCommands : Prop :=
  ∀ (s t : State) (i : Instr), s.rstIn = [] → exec i s = .next t →
    ((∀ r a, i ≠ .init r a) → t.cap = s.cap) ∧
    ((∀ r a, i ≠ .beginRead r a ∧ i ≠ .endRead r a) → t.rda = s.rda) ∧
    ((∀ r a, i ≠ .init r a) → i ≠ .wReadIdentification → t.ident = s.ident) ∧
    ((∀ r a b, i ≠ .writePage r a b) → t.cnt = s.cnt ∧ t.page = s.page) ∧
    ((∃ r a, i = .init r a ∨ i = .writeDisable r a ∨ i = .readNext r a ∨ i = .endRead r a) ∨
        isHostCommand i = false →
      t.tmo = s.tmo ∧ t.t0 = s.t0 ∧ t.res = s.res ∧ t.clk = s.clk ∧ (i ≠ .wReadStatus1 → t.sr = s.sr)) ∧
    ((∃ r a, i = .writeEnable r a) → t.tmo = s.tmo ∧ t.t0 = s.t0 ∧ t.clk = s.clk) ∧
    (isHostCommand i = false →
      t.op = s.op ∧ t.arg = s.arg ∧ t.rsp = s.rsp ∧ (t.ph = s.ph ∨ t.waiting = true))

/-- No instruction changes the parameters of the instance (R37), takes anything from the command port
(R30) or shortens the trace (R118), the model's own field (log 10). That the clock does not go back is
what R190 (a) assumes of CLK; the model's clock meets it by construction (log 6). -/
def Obligations.ParametersAndTraceArePreserved : Prop :=
  ∀ (s t : State) (i : Instr), exec i s = .next t →
    t.par = s.par ∧ t.host = s.host ∧ s.clk.now ≤ t.clk.now ∧ ∃ es, t.trace = s.trace ++ es

/-- Every command that comes to its end has given exactly one response (R31, R110); and there the run is
over exactly when nothing more is presented (R124). -/
def Obligations.OneResponsePerCommand : Prop :=
  ∀ (s t : State) (i : Instr), s.ready → isHostCommand i = true → exec i s = .next t → t.ph = .idle →
    responses t.trace = responses s.trace + 1 ∧ t.rsp.valid = true ∧ (t.final = true ↔ s.host = [])

/-- The invariant holds after reset (R35, R36). -/
def Obligations.ResetMeetsInvariant : Prop := State.reset.Inv

/-- Every step keeps the invariant: idle, SEL = RDA; `Select` only when released, `Deselect` and every
exchange only when selected; every frame begins with one of the eight opcodes and holds an exchange;
CAP stays one of its six values; the flash array stays canonical (R36, R97, R20). -/
def Obligations.StepKeepsInvariant : Prop :=
  ∀ s t : State, s.Inv → step s = .next t → t.Inv

/-- From a state that meets the invariant no host command ever performs a primitive out of place: exec
answers a next state, on every path and with any ENV (R36, R112 to R114). -/
def Obligations.CommandsNeverStop : Prop :=
  ∀ (s : State) (i : Instr), s.Inv → isHostCommand i = true → ∃ t, exec i s = .next t ∧ t.Inv

/-- R154: in no run of host commands does an erase frame, or a page-program frame, open unless the frame
before it was a status frame that showed WRITE-ENABLED and the one before that the enable frame. Of one
command run from IDLE; and, by the invariant that reset meets and every step keeps while the port brings
command words, of every run, at every phase, commands that waited for ENV and went on included. -/
def Obligations.EraseNeedsConfirmedEnable : Prop :=
  (∀ (s t : State) (i : Instr), s.Inv → s.ph = .idle → guarded s.trace = true → isHostCommand i = true →
    exec i s = .next t → guarded t.trace = true) ∧
  State.reset.GuardInv ∧
  (∀ s t : State, s.Inv → s.GuardInv → (∀ r ∈ s.host, isCommandRequest r = true) → step s = .next t →
    t.GuardInv) ∧
  (∀ s : State, s.GuardInv → guarded s.trace = true)

/-- Termination (R139), with a clock that meets R190 (b) and any ENV: a host command comes to its response
in one step of the machine, or stands at an exchange that ENV does not answer (R69); and under the named
premise that ENV always answers, it comes to its response. R190 (c), that the clock goes on, is built
into the model's clock (log 6). -/
def Obligations.CommandsComeToResponse : Prop :=
  ∀ (s : State) (i : Instr), s.Inv → s.ready → isHostCommand i = true → s.clockBounded →
    ∃ t, exec i s = .next t ∧ (t.ph = .idle ∧ t.rsp.valid = true ∨ t.waiting = true) ∧
      (s.env.alwaysAnswers → t.ph = .idle ∧ t.rsp.valid = true)

/-- A reset in the middle of a command, at the chip (R201, U15): the command gives no response; BUSY and
the latch are any value, the contents of the region the command addressed are any value, and every other
byte is unchanged (log 11). -/
def Obligations.ResetInCommandForgetsRegion : Prop :=
  ∀ (s t : State) (c : Chip) (i : Instr), s.Inv → s.ph = .idle → rstNow s = false → s.env = .chip c →
    isHostCommand i = true → exec i s = .next t → t.ph = .idle → t.rsp.valid = false →
    ∃ c' k e, t.env = .chip c' ∧ c'.busy = Config.anyBusy k ∧ c'.wel = Config.anyLatch k ∧
      ∀ b, (inRegion (chipBytes c.par.size) (commandRegion i) b → t.byteAt b = some (Config.anyContent e b)) ∧
        (¬inRegion (chipBytes c.par.size) (commandRegion i) b → t.byteAt b = s.byteAt b)
end

