-- ==== Sys2Proof/Laws/Encoding.lean ====
section
/-! SUPPORT. The command word bit by bit: each field read back from the word built of three
(spec/30_encoding.md R80). -/

namespace Sys2Proof

/-- Every bit of a command word belongs to ARG, RSV or OP. -/
theorem mkCommandWord_getLsbD (op rsv : BitVec 4) (arg : Addr) (i : Nat) :
    (mkCommandWord op rsv arg).getLsbD i =
      if i < 24 then arg.getLsbD i else if i < 28 then rsv.getLsbD (i - 24) else op.getLsbD (i - 28) := by
  rw [show (mkCommandWord op rsv arg).getLsbD i =
    BitVec.getLsbD (w := 4 + 4 + 24) (op ++ rsv ++ arg) i from rfl, BitVec.getLsbD_append, BitVec.getLsbD_append]
  by_cases h1 : i < 24
  · simp [h1]
  · by_cases h2 : i < 28
    · simp [h1, h2, show i - 24 < 4 by omega]
    · simp [h1, h2, show ¬ i - 24 < 4 by omega, show i - 24 - 4 = i - 28 by omega]

@[simp] theorem cwOp_mkCommandWord (op rsv : BitVec 4) (arg : Addr) : cwOp (mkCommandWord op rsv arg) = op := by
  apply BitVec.eq_of_getLsbD_eq
  intro i hi
  simp only [cwOp, BitVec.getLsbD_extractLsb', mkCommandWord_getLsbD]
  simp [hi, show ¬ 28 + i < 24 by omega]

@[simp] theorem cwRsv_mkCommandWord (op rsv : BitVec 4) (arg : Addr) : cwRsv (mkCommandWord op rsv arg) = rsv := by
  apply BitVec.eq_of_getLsbD_eq
  intro i hi
  simp only [cwRsv, BitVec.getLsbD_extractLsb', mkCommandWord_getLsbD]
  simp [hi, show 24 + i < 28 by omega]

@[simp] theorem cwArg_mkCommandWord (op rsv : BitVec 4) (arg : Addr) : cwArg (mkCommandWord op rsv arg) = arg := by
  apply BitVec.eq_of_getLsbD_eq
  intro i hi
  simp only [cwArg, BitVec.getLsbD_extractLsb', mkCommandWord_getLsbD]
  simp [hi]

/-- A command word keeps OP in its four high bits, whatever RSV and ARG hold. -/
theorem mkCommandWord_op (op rsv : BitVec 4) (arg : Addr) :
    mkCommandWord op rsv arg &&& 0xF0000000 = op.setWidth 32 <<< 28 := by
  apply BitVec.eq_of_getLsbD_eq
  intro i hi
  rw [BitVec.getLsbD_and, mkCommandWord_getLsbD]
  interval_cases i <;> simp

end Sys2Proof
end

