-- ==== Sys2Proof/Laws/Memory.lean ====
section
/-! SUPPORT. The laws of the flash array: a read after a write, the bytes an operation leaves alone,
and that every operation keeps the canonical form. -/

namespace Sys2Proof.Machine

@[simp] theorem Memory.read_nil (a : Nat) : Memory.read [] a = Config.erased := rfl

theorem Memory.read_cons (k : Nat) (v : Byte) (m : Memory) (a : Nat) :
    Memory.read ((k, v) :: m) a = if k = a then v else Memory.read m a := rfl

theorem Memory.wfAbove_mono {m : Memory} {a b : Nat} (h : Memory.wfAbove b m = true) (hab : a ≤ b) :
    Memory.wfAbove a m = true := by
  cases m with
  | nil => rfl
  | cons c m =>
    obtain ⟨k, v⟩ := c
    simp only [Memory.wfAbove, Bool.and_eq_true, decide_eq_true_eq] at h ⊢
    exact ⟨⟨le_trans hab h.1.1, h.1.2⟩, h.2⟩

/-- Below the addresses of a canonical list every byte is ERASED. -/
theorem Memory.read_below {m : Memory} {a b : Nat} (h : Memory.wfAbove b m = true) (hab : a < b) :
    Memory.read m a = Config.erased := by
  induction m generalizing b with
  | nil => rfl
  | cons c m ih =>
    obtain ⟨k, v⟩ := c
    simp only [Memory.wfAbove, Bool.and_eq_true, decide_eq_true_eq] at h
    rw [Memory.read_cons, if_neg (by omega)]
    exact ih h.2 (by omega)

/-- A write keeps the canonical form. -/
theorem Memory.write_wfAbove {m : Memory} {a b : Nat} (v : Byte) (h : Memory.wfAbove b m = true)
    (hab : b ≤ a) : Memory.wfAbove b (Memory.write m a v) = true := by
  induction m generalizing b with
  | nil =>
    by_cases hv : v = Config.erased
    · simp [Memory.write, Memory.wfAbove, hv]
    · simp [Memory.write, Memory.wfAbove, hv, hab]
  | cons c m ih =>
    obtain ⟨k, w⟩ := c
    simp only [Memory.wfAbove, Bool.and_eq_true, decide_eq_true_eq] at h
    obtain ⟨⟨hbk, hw⟩, hm⟩ := h
    unfold Memory.write
    split
    · split <;> simp_all [Memory.wfAbove]
    · split
      · split
        · exact Memory.wfAbove_mono hm (by omega)
        · simp_all [Memory.wfAbove]
      · simp only [Memory.wfAbove, Bool.and_eq_true, decide_eq_true_eq]
        exact ⟨⟨hbk, hw⟩, ih hm (by omega)⟩

theorem Memory.write_wf {m : Memory} (a : Nat) (v : Byte) (h : Memory.wf m = true) :
    Memory.wf (Memory.write m a v) = true :=
  Memory.write_wfAbove v h (Nat.zero_le a)

/-- A read after a write. -/
theorem Memory.read_write {m : Memory} {b : Nat} (a c : Nat) (v : Byte) (h : Memory.wfAbove b m = true) :
    Memory.read (Memory.write m a v) c = if a = c then v else Memory.read m c := by
  induction m generalizing b with
  | nil =>
    unfold Memory.write
    split <;> simp_all [Memory.read_cons]
  | cons x m ih =>
    obtain ⟨k, w⟩ := x
    simp only [Memory.wfAbove, Bool.and_eq_true, decide_eq_true_eq] at h
    obtain ⟨-, hm⟩ := h
    unfold Memory.write
    split
    · split
      · by_cases hc : a = c
        · subst hc
          rw [if_pos rfl, Memory.read_cons, if_neg (by omega), Memory.read_below hm (by omega)]
          simp_all
        · rw [if_neg hc]
      · simp only [Memory.read_cons]
    · split
      · rename_i hak
        subst hak
        split
        · by_cases hc : a = c
          · subst hc
            rw [if_pos rfl, Memory.read_below hm (by omega)]
            simp_all
          · rw [if_neg hc, Memory.read_cons, if_neg hc]
        · simp only [Memory.read_cons]
          split <;> rfl
      · simp only [Memory.read_cons, ih hm]
        split
        · rename_i hkc
          rw [if_neg (by omega)]
        · rfl

theorem Memory.erase_wfAbove {m : Memory} {b : Nat} (lo len : Nat) (h : Memory.wfAbove b m = true) :
    Memory.wfAbove b (Memory.erase m lo len) = true := by
  induction m generalizing b with
  | nil => rfl
  | cons x m ih =>
    obtain ⟨k, w⟩ := x
    simp only [Memory.wfAbove, Bool.and_eq_true, decide_eq_true_eq] at h
    obtain ⟨⟨hbk, hw⟩, hm⟩ := h
    have hrest := ih hm
    unfold Memory.erase at hrest ⊢
    rw [List.filter_cons]
    split
    · simp only [Memory.wfAbove, Bool.and_eq_true, decide_eq_true_eq]
      exact ⟨⟨hbk, hw⟩, hrest⟩
    · exact Memory.wfAbove_mono hrest (by omega)

theorem Memory.erase_wf {m : Memory} (lo len : Nat) (h : Memory.wf m = true) :
    Memory.wf (Memory.erase m lo len) = true :=
  Memory.erase_wfAbove lo len h

/-- A read after an erase: ERASED in the erased range, the old byte outside it. -/
theorem Memory.read_erase (m : Memory) (lo len a : Nat) :
    Memory.read (Memory.erase m lo len) a =
      if lo ≤ a ∧ a < lo + len then Config.erased else Memory.read m a := by
  induction m with
  | nil => simp [Memory.erase]
  | cons x m ih =>
    obtain ⟨k, w⟩ := x
    unfold Memory.erase at ih ⊢
    rw [List.filter_cons]
    by_cases hk : lo ≤ k ∧ k < lo + len
    · rw [if_neg (by simp [hk]), ih, Memory.read_cons]
      split
      · rfl
      · rw [if_neg (by rintro rfl; exact absurd hk ‹_›)]
    · rw [if_pos (by simp only [Bool.not_eq_true', Bool.and_eq_false_iff, decide_eq_false_iff_not]; omega),
        Memory.read_cons, ih, Memory.read_cons]
      by_cases hka : k = a
      · subst hka
        simp [hk]
      · simp [hka]

theorem Memory.program_wf {m : Memory} (lo : Nat) (ds : List Byte) (h : Memory.wf m = true) :
    Memory.wf (Memory.program m lo ds) = true := by
  induction ds generalizing m lo with
  | nil => exact h
  | cons d ds ih => exact ih (lo + 1) (Memory.write_wf _ _ h)

/-- A read after a program: old AND new in the programmed range, the old byte outside it. -/
theorem Memory.read_program {m : Memory} (lo a : Nat) (ds : List Byte) (h : Memory.wf m = true) :
    Memory.read (Memory.program m lo ds) a =
      if lo ≤ a ∧ a < lo + ds.length then Memory.read m a &&& ds.getD (a - lo) 0 else Memory.read m a := by
  induction ds generalizing m lo with
  | nil =>
    rw [if_neg (by simp only [List.length_nil]; omega)]
    rfl
  | cons d ds ih =>
    rw [Memory.program, ih (lo + 1) (Memory.write_wf _ _ h), Memory.read_write (b := 0) _ _ _ h]
    rcases Nat.lt_trichotomy a lo with hlt | heq | hgt
    · rw [if_neg (by omega), if_neg (by omega), if_neg (by omega)]
    · subst heq
      rw [if_neg (by omega), if_pos rfl, if_pos (by simp)]
      simp
    · have hsub : a - lo = (a - (lo + 1)) + 1 := by omega
      rw [if_neg (show ¬lo = a by omega), hsub, List.getD_cons_succ, List.length_cons]
      by_cases hin : a < lo + 1 + ds.length
      · rw [if_pos (by omega), if_pos (by omega)]
      · rw [if_neg (by omega), if_neg (by omega)]

end Sys2Proof.Machine
end

