-- ==== Sys2Proof/Laws/State.lean ====
section
/-! SUPPORT. One lemma per field per update of State, each true by rfl: no later proof unfolds a
record update. -/

namespace Sys2Proof.Machine

/-! ## `goto` -/

@[simp] theorem goto_cap (p : Phase) (s : State) : (goto p s).cap = s.cap := rfl
@[simp] theorem goto_rda (p : Phase) (s : State) : (goto p s).rda = s.rda := rfl
@[simp] theorem goto_sel (p : Phase) (s : State) : (goto p s).sel = s.sel := rfl
@[simp] theorem goto_op (p : Phase) (s : State) : (goto p s).op = s.op := rfl
@[simp] theorem goto_arg (p : Phase) (s : State) : (goto p s).arg = s.arg := rfl
@[simp] theorem goto_tmo (p : Phase) (s : State) : (goto p s).tmo = s.tmo := rfl
@[simp] theorem goto_t0 (p : Phase) (s : State) : (goto p s).t0 = s.t0 := rfl
@[simp] theorem goto_sr (p : Phase) (s : State) : (goto p s).sr = s.sr := rfl
@[simp] theorem goto_ident (p : Phase) (s : State) : (goto p s).ident = s.ident := rfl
@[simp] theorem goto_cnt (p : Phase) (s : State) : (goto p s).cnt = s.cnt := rfl
@[simp] theorem goto_res (p : Phase) (s : State) : (goto p s).res = s.res := rfl
@[simp] theorem goto_ph (p : Phase) (s : State) : (goto p s).ph = p := rfl
@[simp] theorem goto_rsp (p : Phase) (s : State) : (goto p s).rsp = s.rsp := rfl
@[simp] theorem goto_xferStart (p : Phase) (s : State) : (goto p s).xferStart = s.xferStart := rfl
@[simp] theorem goto_xferOut (p : Phase) (s : State) : (goto p s).xferOut = s.xferOut := rfl
@[simp] theorem goto_rstIn (p : Phase) (s : State) : (goto p s).rstIn = s.rstIn := rfl
@[simp] theorem goto_host (p : Phase) (s : State) : (goto p s).host = s.host := rfl
@[simp] theorem goto_page (p : Phase) (s : State) : (goto p s).page = s.page := rfl
@[simp] theorem goto_clk (p : Phase) (s : State) : (goto p s).clk = s.clk := rfl
@[simp] theorem goto_env (p : Phase) (s : State) : (goto p s).env = s.env := rfl
@[simp] theorem goto_par (p : Phase) (s : State) : (goto p s).par = s.par := rfl
@[simp] theorem goto_trace (p : Phase) (s : State) : (goto p s).trace = s.trace := rfl
@[simp] theorem goto_fresh (p : Phase) (s : State) : (goto p s).fresh = s.fresh := rfl

/-! ## `emit` -/

@[simp] theorem emit_cap (e : Event) (s : State) : (emit e s).cap = s.cap := rfl
@[simp] theorem emit_rda (e : Event) (s : State) : (emit e s).rda = s.rda := rfl
@[simp] theorem emit_sel (e : Event) (s : State) : (emit e s).sel = s.sel := rfl
@[simp] theorem emit_op (e : Event) (s : State) : (emit e s).op = s.op := rfl
@[simp] theorem emit_arg (e : Event) (s : State) : (emit e s).arg = s.arg := rfl
@[simp] theorem emit_tmo (e : Event) (s : State) : (emit e s).tmo = s.tmo := rfl
@[simp] theorem emit_t0 (e : Event) (s : State) : (emit e s).t0 = s.t0 := rfl
@[simp] theorem emit_sr (e : Event) (s : State) : (emit e s).sr = s.sr := rfl
@[simp] theorem emit_ident (e : Event) (s : State) : (emit e s).ident = s.ident := rfl
@[simp] theorem emit_cnt (e : Event) (s : State) : (emit e s).cnt = s.cnt := rfl
@[simp] theorem emit_res (e : Event) (s : State) : (emit e s).res = s.res := rfl
@[simp] theorem emit_ph (e : Event) (s : State) : (emit e s).ph = s.ph := rfl
@[simp] theorem emit_rsp (e : Event) (s : State) : (emit e s).rsp = s.rsp := rfl
@[simp] theorem emit_xferStart (e : Event) (s : State) : (emit e s).xferStart = s.xferStart := rfl
@[simp] theorem emit_xferOut (e : Event) (s : State) : (emit e s).xferOut = s.xferOut := rfl
@[simp] theorem emit_rstIn (e : Event) (s : State) : (emit e s).rstIn = s.rstIn := rfl
@[simp] theorem emit_host (e : Event) (s : State) : (emit e s).host = s.host := rfl
@[simp] theorem emit_page (e : Event) (s : State) : (emit e s).page = s.page := rfl
@[simp] theorem emit_clk (e : Event) (s : State) : (emit e s).clk = s.clk := rfl
@[simp] theorem emit_env (e : Event) (s : State) : (emit e s).env = s.env := rfl
@[simp] theorem emit_par (e : Event) (s : State) : (emit e s).par = s.par := rfl
@[simp] theorem emit_trace (e : Event) (s : State) : (emit e s).trace = s.trace ++ [e] := rfl
@[simp] theorem emit_fresh (e : Event) (s : State) : (emit e s).fresh = s.fresh := rfl

/-! ## `respond` -/

@[simp] theorem respond_cap (st : Status) (v : Word) (s : State) : (respond st v s).cap = s.cap := rfl
@[simp] theorem respond_rda (st : Status) (v : Word) (s : State) : (respond st v s).rda = s.rda := rfl
@[simp] theorem respond_sel (st : Status) (v : Word) (s : State) : (respond st v s).sel = s.sel := rfl
@[simp] theorem respond_op (st : Status) (v : Word) (s : State) : (respond st v s).op = s.op := rfl
@[simp] theorem respond_arg (st : Status) (v : Word) (s : State) : (respond st v s).arg = s.arg := rfl
@[simp] theorem respond_tmo (st : Status) (v : Word) (s : State) : (respond st v s).tmo = s.tmo := rfl
@[simp] theorem respond_t0 (st : Status) (v : Word) (s : State) : (respond st v s).t0 = s.t0 := rfl
@[simp] theorem respond_sr (st : Status) (v : Word) (s : State) : (respond st v s).sr = s.sr := rfl
@[simp] theorem respond_ident (st : Status) (v : Word) (s : State) : (respond st v s).ident = s.ident := rfl
@[simp] theorem respond_cnt (st : Status) (v : Word) (s : State) : (respond st v s).cnt = s.cnt := rfl
@[simp] theorem respond_res (st : Status) (v : Word) (s : State) : (respond st v s).res = s.res := rfl
@[simp] theorem respond_ph (st : Status) (v : Word) (s : State) : (respond st v s).ph = .idle := rfl
@[simp] theorem respond_rsp (st : Status) (v : Word) (s : State) : (respond st v s).rsp = { valid := true, st := st, val := v } := rfl
@[simp] theorem respond_xferStart (st : Status) (v : Word) (s : State) : (respond st v s).xferStart = s.xferStart := rfl
@[simp] theorem respond_xferOut (st : Status) (v : Word) (s : State) : (respond st v s).xferOut = s.xferOut := rfl
@[simp] theorem respond_rstIn (st : Status) (v : Word) (s : State) : (respond st v s).rstIn = s.rstIn := rfl
@[simp] theorem respond_host (st : Status) (v : Word) (s : State) : (respond st v s).host = s.host := rfl
@[simp] theorem respond_page (st : Status) (v : Word) (s : State) : (respond st v s).page = s.page := rfl
@[simp] theorem respond_clk (st : Status) (v : Word) (s : State) : (respond st v s).clk = s.clk := rfl
@[simp] theorem respond_env (st : Status) (v : Word) (s : State) : (respond st v s).env = s.env := rfl
@[simp] theorem respond_par (st : Status) (v : Word) (s : State) : (respond st v s).par = s.par := rfl
@[simp] theorem respond_trace (st : Status) (v : Word) (s : State) : (respond st v s).trace = s.trace ++ [.response st v] := rfl
@[simp] theorem respond_fresh (st : Status) (v : Word) (s : State) : (respond st v s).fresh = s.fresh := rfl

/-! ## `respondAny` -/

@[simp] theorem respondAny_cap (st : Status) (s : State) : (respondAny st s).cap = s.cap := rfl
@[simp] theorem respondAny_rda (st : Status) (s : State) : (respondAny st s).rda = s.rda := rfl
@[simp] theorem respondAny_sel (st : Status) (s : State) : (respondAny st s).sel = s.sel := rfl
@[simp] theorem respondAny_op (st : Status) (s : State) : (respondAny st s).op = s.op := rfl
@[simp] theorem respondAny_arg (st : Status) (s : State) : (respondAny st s).arg = s.arg := rfl
@[simp] theorem respondAny_tmo (st : Status) (s : State) : (respondAny st s).tmo = s.tmo := rfl
@[simp] theorem respondAny_t0 (st : Status) (s : State) : (respondAny st s).t0 = s.t0 := rfl
@[simp] theorem respondAny_sr (st : Status) (s : State) : (respondAny st s).sr = s.sr := rfl
@[simp] theorem respondAny_ident (st : Status) (s : State) : (respondAny st s).ident = s.ident := rfl
@[simp] theorem respondAny_cnt (st : Status) (s : State) : (respondAny st s).cnt = s.cnt := rfl
@[simp] theorem respondAny_res (st : Status) (s : State) : (respondAny st s).res = s.res := rfl
@[simp] theorem respondAny_ph (st : Status) (s : State) : (respondAny st s).ph = .idle := rfl
@[simp] theorem respondAny_rsp (st : Status) (s : State) : (respondAny st s).rsp = { valid := true, st := st, val := Config.anyVal s.fresh } := rfl
@[simp] theorem respondAny_xferStart (st : Status) (s : State) : (respondAny st s).xferStart = s.xferStart := rfl
@[simp] theorem respondAny_xferOut (st : Status) (s : State) : (respondAny st s).xferOut = s.xferOut := rfl
@[simp] theorem respondAny_rstIn (st : Status) (s : State) : (respondAny st s).rstIn = s.rstIn := rfl
@[simp] theorem respondAny_host (st : Status) (s : State) : (respondAny st s).host = s.host := rfl
@[simp] theorem respondAny_page (st : Status) (s : State) : (respondAny st s).page = s.page := rfl
@[simp] theorem respondAny_clk (st : Status) (s : State) : (respondAny st s).clk = s.clk := rfl
@[simp] theorem respondAny_env (st : Status) (s : State) : (respondAny st s).env = s.env := rfl
@[simp] theorem respondAny_par (st : Status) (s : State) : (respondAny st s).par = s.par := rfl
@[simp] theorem respondAny_trace (st : Status) (s : State) : (respondAny st s).trace = s.trace ++ [.response st (Config.anyVal s.fresh)] := rfl
@[simp] theorem respondAny_fresh (st : Status) (s : State) : (respondAny st s).fresh = s.fresh + 1 := rfl

/-! ## `accept` -/

@[simp] theorem accept_cap (cw : Word) (s : State) : (accept cw s).cap = s.cap := rfl
@[simp] theorem accept_rda (cw : Word) (s : State) : (accept cw s).rda = s.rda := rfl
@[simp] theorem accept_sel (cw : Word) (s : State) : (accept cw s).sel = s.sel := rfl
@[simp] theorem accept_op (cw : Word) (s : State) : (accept cw s).op = cwOp cw := rfl
@[simp] theorem accept_arg (cw : Word) (s : State) : (accept cw s).arg = cwArg cw := rfl
@[simp] theorem accept_tmo (cw : Word) (s : State) : (accept cw s).tmo = s.tmo := rfl
@[simp] theorem accept_t0 (cw : Word) (s : State) : (accept cw s).t0 = s.t0 := rfl
@[simp] theorem accept_sr (cw : Word) (s : State) : (accept cw s).sr = s.sr := rfl
@[simp] theorem accept_ident (cw : Word) (s : State) : (accept cw s).ident = s.ident := rfl
@[simp] theorem accept_cnt (cw : Word) (s : State) : (accept cw s).cnt = s.cnt := rfl
@[simp] theorem accept_res (cw : Word) (s : State) : (accept cw s).res = s.res := rfl
@[simp] theorem accept_ph (cw : Word) (s : State) : (accept cw s).ph = s.ph := rfl
@[simp] theorem accept_rsp (cw : Word) (s : State) : (accept cw s).rsp = { s.rsp with valid := false } := rfl
@[simp] theorem accept_xferStart (cw : Word) (s : State) : (accept cw s).xferStart = s.xferStart := rfl
@[simp] theorem accept_xferOut (cw : Word) (s : State) : (accept cw s).xferOut = s.xferOut := rfl
@[simp] theorem accept_rstIn (cw : Word) (s : State) : (accept cw s).rstIn = s.rstIn.tail := rfl
@[simp] theorem accept_host (cw : Word) (s : State) : (accept cw s).host = s.host := rfl
@[simp] theorem accept_page (cw : Word) (s : State) : (accept cw s).page = s.page := rfl
@[simp] theorem accept_clk (cw : Word) (s : State) : (accept cw s).clk = s.clk := rfl
@[simp] theorem accept_env (cw : Word) (s : State) : (accept cw s).env = s.env := rfl
@[simp] theorem accept_par (cw : Word) (s : State) : (accept cw s).par = s.par := rfl
@[simp] theorem accept_trace (cw : Word) (s : State) : (accept cw s).trace = s.trace ++ [.command cw] := rfl
@[simp] theorem accept_fresh (cw : Word) (s : State) : (accept cw s).fresh = s.fresh := rfl

/-! ## `takeReset` -/

@[simp] theorem takeReset_cap (s : State) : (takeReset s).cap = 0 := rfl
@[simp] theorem takeReset_rda (s : State) : (takeReset s).rda = false := rfl
@[simp] theorem takeReset_sel (s : State) : (takeReset s).sel = false := rfl
@[simp] theorem takeReset_op (s : State) : (takeReset s).op = 0 := rfl
@[simp] theorem takeReset_arg (s : State) : (takeReset s).arg = 0 := rfl
@[simp] theorem takeReset_tmo (s : State) : (takeReset s).tmo = 0 := rfl
@[simp] theorem takeReset_t0 (s : State) : (takeReset s).t0 = 0 := rfl
@[simp] theorem takeReset_sr (s : State) : (takeReset s).sr = 0 := rfl
@[simp] theorem takeReset_ident (s : State) : (takeReset s).ident = 0 := rfl
@[simp] theorem takeReset_cnt (s : State) : (takeReset s).cnt = 0 := rfl
@[simp] theorem takeReset_res (s : State) : (takeReset s).res = false := rfl
@[simp] theorem takeReset_ph (s : State) : (takeReset s).ph = .idle := rfl
@[simp] theorem takeReset_rsp (s : State) : (takeReset s).rsp = { valid := false, st := .ok, val := 0 } := rfl
@[simp] theorem takeReset_xferStart (s : State) : (takeReset s).xferStart = false := rfl
@[simp] theorem takeReset_xferOut (s : State) : (takeReset s).xferOut = 0 := rfl
@[simp] theorem takeReset_rstIn (s : State) : (takeReset s).rstIn = s.rstIn.tail := rfl
@[simp] theorem takeReset_host (s : State) : (takeReset s).host = s.host := rfl
@[simp] theorem takeReset_page (s : State) : (takeReset s).page = s.page := rfl
@[simp] theorem takeReset_clk (s : State) : (takeReset s).clk = s.clk := rfl
@[simp] theorem takeReset_env (s : State) : (takeReset s).env = resetEnv s := rfl
@[simp] theorem takeReset_par (s : State) : (takeReset s).par = s.par := rfl
@[simp] theorem takeReset_trace (s : State) : (takeReset s).trace = s.trace ++ [.reset] := rfl
@[simp] theorem takeReset_fresh (s : State) : (takeReset s).fresh = s.fresh := rfl

end Sys2Proof.Machine
end

