-- ==== Sys2Proof/Laws/Ops.lean ====
section
/-! SUPPORT. What each shared operation can do, said once: the primitives, Respond, ENV, acceptance. -/

namespace Sys2Proof.Machine

/-! ## The primitives -/

theorem select_of_released {s : State} (next : State → State) (h : s.sel = false) :
    select next s =
      .go (next { s with sel := true, env := s.env.select, trace := s.trace ++ [.select] }) := by
  simp [select, h]

/-- `Select` goes on only from a released chip-select, and does what R112 says. -/
theorem select_go {s t : State} {next : State → State} (h : select next s = .go t) :
    s.sel = false ∧
      t = next { s with sel := true, env := s.env.select, trace := s.trace ++ [.select] } := by
  unfold select at h
  split at h
  · cases h
  · cases h
    exact ⟨by simpa using ‹¬s.sel = true›, rfl⟩

theorem select_ne_wait {s t : State} {next : State → State} : select next s ≠ .wait t := by
  unfold select
  split <;> simp

theorem deselect_of_selected {s : State} (next : State → State) (h : s.sel = true) :
    deselect next s =
      .go (next { s with sel := false, env := s.env.deselect, trace := s.trace ++ [.deselect] }) := by
  simp [deselect, h]

/-- `Deselect` goes on only from an asserted chip-select, and does what R113 says. -/
theorem deselect_go {s t : State} {next : State → State} (h : deselect next s = .go t) :
    s.sel = true ∧
      t = next { s with sel := false, env := s.env.deselect, trace := s.trace ++ [.deselect] } := by
  unfold deselect at h
  split at h
  · cases h
    exact ⟨‹_›, rfl⟩
  · cases h

theorem deselect_ne_wait {s t : State} {next : State → State} : deselect next s ≠ .wait t := by
  unfold deselect
  split <;> simp

theorem xfer_of_answer {s : State} {o i : Byte} {e : Env} (next : Byte → State → State)
    (h : s.sel = true) (ha : s.env.exchange o = some (i, e)) :
    xfer o next s =
      .go (next i
        { s with env := e, xferStart := false, xferOut := o, trace := s.trace ++ [.xfer o i] }) := by
  simp [xfer, h, ha]

/-- `Xfer` goes on only while selected and with the byte ENV answers, and does what R114 says. -/
theorem xfer_go {s t : State} {o : Byte} {next : Byte → State → State} (h : xfer o next s = .go t) :
    s.sel = true ∧ ∃ i e, s.env.exchange o = some (i, e) ∧
      t = next i { s with env := e, xferStart := false, xferOut := o, trace := s.trace ++ [.xfer o i] } := by
  unfold xfer at h
  split at h
  · split at h
    · cases h
    · cases h
      exact ⟨‹_›, _, _, ‹_›, rfl⟩
  · cases h

/-- `Xfer` waits exactly where ENV offers no answer (R69). -/
theorem xfer_wait {s t : State} {o : Byte} {next : Byte → State → State} (h : xfer o next s = .wait t) :
    s.sel = true ∧ s.env.exchange o = none ∧ t = { s with xferStart := true, xferOut := o } := by
  unfold xfer at h
  split at h
  · split at h
    · cases h
      exact ⟨‹_›, ‹_›, rfl⟩
    · cases h
  · cases h

theorem select_ne_stop {s : State} {f : Fault} (next : State → State) (h : s.sel = false) :
    select next s ≠ .stop f := by
  simp [select, h]

theorem deselect_ne_stop {s : State} {f : Fault} (next : State → State) (h : s.sel = true) :
    deselect next s ≠ .stop f := by
  simp [deselect, h]

theorem xfer_ne_stop {s : State} {f : Fault} {o : Byte} (next : Byte → State → State)
    (h : s.sel = true) : xfer o next s ≠ .stop f := by
  unfold xfer
  rw [if_pos h]
  split <;> simp

theorem now_go {s t : State} {next : Word → State → State} (h : now next s = .go t) :
    t = next s.clk.advance.value
      { s with clk := s.clk.advance, trace := s.trace ++ [.time s.clk.advance.value] } := by
  cases h
  rfl

theorem delay_go {s t : State} {d : Word} {next : State → State} (h : delay d next s = .go t) :
    t = next { s with clk := { s.clk with now := s.clk.now + d.toNat }, trace := s.trace ++ [.delay d] } := by
  cases h
  rfl

/-! ## The caller's test of a result -/

@[simp] theorem passOrFail_true (p : Phase) (s : State) : passOrFail true p s = goto p s := rfl
@[simp] theorem passOrFail_false (p : Phase) (s : State) : passOrFail false p s = respondAny .fail s := rfl
@[simp] theorem passOrForget_true (g : Region) (p : Phase) (s : State) :
    passOrForget true g p s = goto p s := rfl
@[simp] theorem passOrForget_false (g : Region) (p : Phase) (s : State) :
    passOrForget false g p s = respondAny .fail { s with env := s.env.abandon (some g) } := rfl

/-! ## The clock -/

theorem Clock.now_le_advance (c : Clock) : c.now ≤ c.advance.now := by
  unfold Clock.advance
  split <;> simp only <;> omega

/-! ## Acceptance -/

theorem rstNow_quiet {s : State} (h : s.rstIn = []) : rstNow s = false := by
  simp [rstNow, h]

theorem cmdReady_of_ready {s : State} (h : s.ready) : cmdReady s = true := by
  simp [cmdReady, rstNow_quiet h.2, h.1]

theorem cmdReady_idle {s : State} (h : cmdReady s = true) : s.ph = .idle ∧ rstNow s = false := by
  simpa [cmdReady] using h

/-! ## ENV -/

@[simp] theorem Env.exchanges_nil (e : Env) : e.exchanges [] = some ([], e) := rfl

/-- A run of exchanges is the first one and the rest. -/
theorem Env.exchanges_cons {o : Byte} {os is : List Byte} {e e' : Env} :
    e.exchanges (o :: os) = some (is, e') ↔
      ∃ i js e1, e.exchange o = some (i, e1) ∧ e1.exchanges os = some (js, e') ∧ is = i :: js := by
  constructor
  · intro h
    simp only [Env.exchanges] at h
    split at h
    · cases h
    · rename_i i e1 h1
      split at h
      · cases h
      · rename_i js e2 h2
        cases h
        exact ⟨i, js, e1, h1, h2, rfl⟩
  · rintro ⟨i, js, e1, h1, h2, rfl⟩
    simp [Env.exchanges, h1, h2]

theorem Env.exchanges_length {os is : List Byte} {e e' : Env} (h : e.exchanges os = some (is, e')) :
    is.length = os.length := by
  induction os generalizing e is with
  | nil => cases h; rfl
  | cons o os ih =>
    obtain ⟨i, js, e1, -, h2, rfl⟩ := Env.exchanges_cons.mp h
    simp [ih h2]

/-- A whole frame is its exchanges between a select and a deselect (R87). -/
theorem Env.frame_some {bytes is : List Byte} {e e' : Env} :
    e.frame bytes = some (is, e') ↔
      ∃ e1, e.openFrame bytes = some (is, e1) ∧ e' = e1.deselect := by
  unfold Env.frame
  constructor
  · intro h
    split at h
    · cases h
    · rename_i js e1 h1
      cases h
      exact ⟨e1, h1, rfl⟩
  · rintro ⟨e1, h1, rfl⟩
    simp [h1]

/-- The reference chip answers every exchange (R69). -/
theorem Env.exchange_chip (c : Chip) (o : Byte) :
    (Env.chip c).exchange o = some ((c.onXfer o).1, .chip (c.onXfer o).2) := rfl

theorem chip_alwaysAnswers (c : Chip) : (Env.chip c).alwaysAnswers := by
  intro bytes
  induction bytes generalizing c with
  | nil => rfl
  | cons o os ih =>
    obtain ⟨r, hr⟩ := Option.isSome_iff_exists.mp (ih (c.onXfer o).2)
    exact Option.isSome_iff_exists.mpr
      ⟨_, Env.exchanges_cons.mpr ⟨_, r.1, _, Env.exchange_chip c o, hr, rfl⟩⟩

/-! ## What is known of the array's contents -/

/-- What befalls one region and nothing else of the chip: `forget`, `renew` and `settle` are this or the
chip as it was. -/
theorem Chip.doubt_mark (r : Region) (ev : RegionEvent) (c : Chip) (a : Nat) :
    (c.mark r ev).doubt a =
      if regionBase r ≤ a ∧ a < regionBase r + regionLength (chipBytes c.par.size) r then ev.after (c.doubt a)
      else c.doubt a := by
  simp [Chip.doubt, Chip.mark, doubtAt, Mark.covers]

theorem Chip.content_of_known {c : Chip} {a : Nat} (h : c.doubt a = .none) :
    c.content a = Memory.read c.mem a := by
  simp [Chip.content, h]

/-- A byte's contents are its byte of the array, its doubt and nothing else. -/
theorem Chip.content_congr {c d : Chip} {a : Nat} (hd : c.doubt a = d.doubt a)
    (hm : Memory.read c.mem a = Memory.read d.mem a) : c.content a = d.content a := by
  simp [Chip.content, hd, hm]

theorem Chip.doubt_of_no_marks {c : Chip} (h : c.marks = []) (a : Nat) : c.doubt a = .none := by
  simp [Chip.doubt, doubtAt, h]

@[simp] theorem Chip.mark_mem (r : Region) (ev : RegionEvent) (c : Chip) : (c.mark r ev).mem = c.mem := rfl
@[simp] theorem Chip.mark_frame (r : Region) (ev : RegionEvent) (c : Chip) : (c.mark r ev).frame = c.frame := rfl
@[simp] theorem Chip.forget_mem (r : Region) (c : Chip) : (c.forget r).mem = c.mem := rfl
@[simp] theorem Chip.forget_frame (r : Region) (c : Chip) : (c.forget r).frame = c.frame := rfl
@[simp] theorem Chip.forgetStatus_mem (c : Chip) : c.forgetStatus.mem = c.mem := rfl
@[simp] theorem Chip.forgetStatus_frame (c : Chip) : c.forgetStatus.frame = c.frame := rfl

@[simp] theorem Chip.renew_mem (r : Region) (c : Chip) : (c.renew r).mem = c.mem := by
  unfold Chip.renew
  split <;> rfl

@[simp] theorem Chip.settle_mem (r : Region) (c : Chip) : (c.settle r).mem = c.mem := by
  unfold Chip.settle
  split
  · rfl
  · split <;> rfl

@[simp] theorem Chip.settle_frame (r : Region) (c : Chip) : (c.settle r).frame = c.frame := by
  unfold Chip.settle
  split
  · rfl
  · split <;> rfl

/-- After a region is forgotten each of its bytes is an opaque value, and no other byte's doubt changed. -/
theorem Chip.content_forget {r : Region} {c : Chip} {a : Nat}
    (h : regionBase r ≤ a ∧ a < regionBase r + regionLength (chipBytes c.par.size) r) :
    (c.forget r).content a = Config.anyContent c.fresh a := by
  have hd : ∀ ev, ({ c.mark r ev with fresh := c.fresh + 1 } : Chip).doubt a = ev.after (c.doubt a) :=
    fun ev => (Chip.doubt_mark r ev c a).trans (if_pos h)
  cases r <;> simp only [Chip.forget, Chip.content, hd, RegionEvent.after]
  all_goals cases c.doubt a <;> rfl

theorem Chip.doubt_forget_outside {r : Region} {c : Chip} {a : Nat}
    (h : ¬(regionBase r ≤ a ∧ a < regionBase r + regionLength (chipBytes c.par.size) r)) :
    (c.forget r).doubt a = c.doubt a := by
  cases r <;> exact (Chip.doubt_mark _ _ c a).trans (if_neg h)

theorem Chip.doubt_renew_outside {r : Region} {c : Chip} {a : Nat}
    (h : ¬(regionBase r ≤ a ∧ a < regionBase r + regionLength (chipBytes c.par.size) r)) :
    (c.renew r).doubt a = c.doubt a := by
  unfold Chip.renew
  split
  · rfl
  · exact (Chip.doubt_mark _ _ c a).trans (if_neg h)

theorem Chip.doubt_settle_outside {r : Region} {c : Chip} {a : Nat}
    (h : ¬(regionBase r ≤ a ∧ a < regionBase r + regionLength (chipBytes c.par.size) r)) :
    (c.settle r).doubt a = c.doubt a := by
  unfold Chip.settle
  split
  · rfl
  · split <;> exact (Chip.doubt_mark _ _ c a).trans (if_neg h)

/-! ## The reference chip keeps its array canonical -/

theorem Chip.answer_mem (f : List Byte) (c : Chip) : (c.answer f).2.mem = c.mem := by
  unfold Chip.answer
  split
  · rfl
  · split
    · unfold Chip.answerStatus
      split <;> rfl
    · split
      · unfold Chip.answerRead
        split <;> rfl
      · split <;> rfl

theorem Chip.onXfer_mem (o : Byte) (c : Chip) : (c.onXfer o).2.mem = c.mem := by
  unfold Chip.onXfer
  split
  · rfl
  · exact Chip.answer_mem _ c

@[simp] theorem Chip.onSelect_mem (c : Chip) : c.onSelect.mem = c.mem := rfl

theorem Chip.act_wf (f : List Byte) (c : Chip) (h : Memory.wf c.mem = true) :
    Memory.wf (c.act f).mem = true := by
  unfold Chip.act
  split
  · unfold Chip.actOpcode
    split
    · exact h
    · split
      · exact h
      · split
        · simpa [Chip.eraseAll, Chip.startOperation] using Memory.erase_wf _ _ h
        · exact h
  · unfold Chip.actAddressed
    split
    · simp only [Chip.eraseSector, Chip.startOperation]
      split
      · simpa using Memory.erase_wf _ _ h
      · exact h
    · split
      · split
        · simp only [Chip.programPage, Chip.startOperation]
          split
          · simpa using Memory.program_wf _ _ h
          · exact h
        · exact h
      · exact h
  · exact h

theorem Chip.onDeselect_wf (c : Chip) (h : Memory.wf c.mem = true) :
    Memory.wf c.onDeselect.mem = true := by
  unfold Chip.onDeselect
  simp only
  split
  · exact h
  · exact Chip.act_wf _ c h

end Sys2Proof.Machine
end

