-- ==== Sys2Proof/Laws/Sequencer.lean ====
section
/-! SUPPORT. What the sequencer can do: one step, a run of steps and the invariants it keeps, the three
procedures run to their return, a command issued, a frame sent, one step of the machine. -/

namespace Sys2Proof.Machine

/-! ## One step -/

/-- With no reset to come, a step is the line at PH. -/
theorem tick_quiet {s : State} (h : s.rstIn = []) : tick s = line s := by
  have hs : ({ s with rstIn := s.rstIn.tail } : State) = s := by
    cases s
    simp_all
  simp [tick, rstNow_quiet h, hs]

/-- A step is a reset, or the line at PH. -/
theorem tick_cases (s : State) :
    (rstNow s = true ∧ tick s = .go (takeReset s)) ∨
      (rstNow s = false ∧ tick s = line { s with rstIn := s.rstIn.tail }) := by
  unfold tick
  cases h : rstNow s <;> simp

/-! ## A run of steps -/

@[simp] theorem run_zero (s : State) : run 0 s = .next s := rfl

theorem run_idle {s : State} (n : Nat) (h : s.ph = .idle) : run n s = .next s := by
  cases n <;> simp [run, h]

theorem run_go {s t : State} (n : Nat) (hp : s.ph ≠ .idle) (h : tick s = .go t) :
    run (n + 1) s = run n t := by
  simp [run, hp, h]

theorem run_wait {s t : State} (n : Nat) (hp : s.ph ≠ .idle) (h : tick s = .wait t) (hr : t.rstIn = []) :
    run (n + 1) s = .next t := by
  simp [run, hp, h, hr]

/-- What every step keeps, a run keeps. -/
theorem run_keeps {P : State → Prop}
    (hgo : ∀ s t, s.ph ≠ .idle → tick s = .go t → P s → P t)
    (hwait : ∀ s t, s.ph ≠ .idle → tick s = .wait t → P s → P t)
    {n : Nat} {s t : State} (h : run n s = .next t) (hs : P s) : P t := by
  induction n generalizing s with
  | zero => cases h; exact hs
  | succ n ih =>
    simp only [run] at h
    split at h
    · cases h; exact hs
    · rename_i hp
      split at h
      · exact ih h (hgo _ _ hp ‹_› hs)
      · split at h
        · cases h; exact hwait _ _ hp ‹_› hs
        · exact ih h (hwait _ _ hp ‹_› hs)
      · cases h

/-- A run that never meets a primitive out of place does not fault. -/
theorem run_no_fault {P : State → Prop}
    (hgo : ∀ s t, s.ph ≠ .idle → tick s = .go t → P s → P t)
    (hwait : ∀ s t, s.ph ≠ .idle → tick s = .wait t → P s → P t)
    (hstop : ∀ s f, s.ph ≠ .idle → P s → tick s ≠ .stop f)
    {n : Nat} {s : State} (hs : P s) : ∃ t, run n s = .next t := by
  induction n generalizing s with
  | zero => exact ⟨s, rfl⟩
  | succ n ih =>
    simp only [run]
    split
    · exact ⟨s, rfl⟩
    · rename_i hp
      split
      · exact ih (hgo _ _ hp ‹_› hs)
      · split
        · exact ⟨_, rfl⟩
        · exact ih (hwait _ _ hp ‹_› hs)
      · exact absurd ‹_› (hstop _ _ hp hs)

/-! ## The procedures -/

/-- The state after a poll of WaitReady saw `sr`, with W5 to come. -/
def afterPoll (c : WaitSite) (x sr : Byte) (e : Env) (s : State) : State :=
  { s with
    sr := sr, env := e, xferStart := false, xferOut := Config.dummy, ph := .inWait c .w5
    trace := s.trace ++ frameEvents [Config.opReadStatus, Config.dummy] [x, sr] }

/-- One poll of WaitReady (R135, W1 to W4). -/
theorem run_poll {s : State} {c : WaitSite} {x sr : Byte} {e : Env} (n : Nat)
    (hp : s.ph = .inWait c .w1) (hr : s.rstIn = []) (hs : s.sel = false)
    (hf : s.env.frame [Config.opReadStatus, Config.dummy] = some ([x, sr], e)) :
    run (n + 4) s = run n (afterPoll c x sr e s) := by
  obtain ⟨e1, ho, rfl⟩ := Env.frame_some.mp hf
  obtain ⟨i, js, e2, h1, h2, heq⟩ := Env.exchanges_cons.mp ho
  obtain ⟨j, ks, e3, h3, h4, rfl⟩ := Env.exchanges_cons.mp h2
  cases h4
  cases heq
  rw [run_go (n := n + 3) (hp := by simp [hp])
    (h := by rw [tick_quiet hr]; simp only [line, hp, lineWait]
             exact select_of_released _ hs)]
  rw [run_go (n := n + 2) (hp := by simp)
    (h := by rw [tick_quiet (by simpa using hr)]; simp only [line, goto_ph, lineWait]
             exact xfer_of_answer _ (by simp) (by simpa using h1))]
  rw [run_go (n := n + 1) (hp := by simp)
    (h := by rw [tick_quiet (by simpa using hr)]; simp only [line, goto_ph, lineWait]
             exact xfer_of_answer _ (by simp) (by simpa using h3))]
  rw [run_go (n := n) (hp := by simp)
    (h := by rw [tick_quiet (by simpa using hr)]; simp only [line, goto_ph, lineWait]
             exact deselect_of_selected _ (by simp))]
  congr 1
  simp [afterPoll, goto, hs, frameEvents, xferEvents]

/-- The state in which a wait returns to its caller. -/
def afterWait (w : WaitRun) (s : State) : State :=
  { s with
    sr := w.sr, clk := w.clk, env := w.env, xferStart := false, xferOut := Config.dummy
    trace := s.trace ++ w.events }

/-- What the phase was does not matter to the return of a wait. -/
theorem returnWait_ph (c : WaitSite) (r : Bool) (p : Phase) (s : State) :
    returnWait c r { s with ph := p } = returnWait c r s := by
  cases c <;> cases r <;> rfl

/-- The polls of WaitReady, however many, and its return (R135, R136). -/
theorem run_pollRun {tmo t0 : Word} {n : Nat} {w : WaitRun} {s : State} {c : WaitSite}
    (hp : s.ph = .inWait c .w1) (hr : s.rstIn = []) (hs : s.sel = false) (hm : s.tmo = tmo)
    (h0 : s.t0 = t0) (h : pollRun tmo t0 n s.clk s.env = some w) :
    w.t0 = t0 ∧ ∃ m ≤ 6 * n, ∀ k, run (k + m) s = run k (returnWait c w.ok (afterWait w s)) := by
  induction n generalizing s w with
  | zero => cases h
  | succ n ih =>
    simp only [pollRun] at h
    split at h
    · rename_i x sr e hf
      have hl : tick (afterPoll c x sr e s) = .go (if sr.getLsbD 0 then goto (.inWait c .w6)
          (afterPoll c x sr e s) else returnWait c true (afterPoll c x sr e s)) :=
        tick_quiet (s := afterPoll c x sr e s) hr
      split at h
      · rename_i hb
        cases h
        refine ⟨rfl, 5, by omega, fun k => ?_⟩
        rw [show k + 5 = (k + 1) + 4 from rfl, run_poll _ hp hr hs hf,
          run_go k (by simp [afterPoll]) hl, hb, if_neg (by simp), ← returnWait_ph c true s.ph]
        rfl
      · rename_i hb
        have hb : sr.getLsbD 0 = true := by simpa using hb
        have h5 : ∀ k, run (k + 5) s = run k (goto (.inWait c .w6) (afterPoll c x sr e s)) := fun k => by
          rw [show k + 5 = (k + 1) + 4 from rfl, run_poll _ hp hr hs hf,
            run_go k (by simp [afterPoll]) hl, hb, if_pos rfl]
        have h6 : ∀ k, run (k + 1) (goto (.inWait c .w6) (afterPoll c x sr e s)) =
            run k (if timedOut s.t0 s.clk.advance.value s.tmo then
              returnWait c false (afterWait ⟨false, frameEvents [Config.opReadStatus, Config.dummy] [x, sr] ++
                [.time s.clk.advance.value], t0, sr, s.clk.advance, e⟩ s)
              else { s with
                ph := .inWait c .w1, sr := sr, clk := s.clk.advance, env := e, xferStart := false
                xferOut := Config.dummy
                trace := s.trace ++ (frameEvents [Config.opReadStatus, Config.dummy] [x, sr] ++
                  [.time s.clk.advance.value]) }) := fun k => by
          refine (run_go k (by simp) (by
            rw [tick_quiet (by simpa [afterPoll] using hr)]
            simp only [line, goto_ph, lineWait, now]
            rfl)).trans (congrArg (run k) ?_)
          cases ht : timedOut s.t0 s.clk.advance.value s.tmo
          · simp [afterPoll, goto, ht]
          · simp only [afterPoll, goto, ht, if_true]
            rw [← returnWait_ph c false (.inWait c .w6) (afterWait _ s)]
            simp [afterWait]
        have hd : timedOut s.t0 s.clk.advance.value s.tmo =
            decide ((s.clk.advance.value - t0).toNat > tmo.toNat) := by
          rw [hm, h0]; rfl
        split at h
        · rename_i ht
          cases h
          refine ⟨rfl, 6, by omega, fun k => ?_⟩
          rw [show k + 6 = (k + 1) + 5 from rfl, h5, h6, hd, decide_eq_true ht, if_pos rfl]
        · rename_i ht
          obtain ⟨w', hw, rfl⟩ := Option.map_eq_some_iff.mp h
          have := ih (s := { s with
            ph := .inWait c .w1, sr := sr, clk := s.clk.advance, env := e, xferStart := false
            xferOut := Config.dummy
            trace := s.trace ++ (frameEvents [Config.opReadStatus, Config.dummy] [x, sr] ++
              [.time s.clk.advance.value]) }) rfl hr hs hm h0 hw
          obtain ⟨h1, m, hm', hk⟩ := this
          refine ⟨h1, m + 6, by omega, fun k => ?_⟩
          rw [show k + (m + 6) = (k + m + 1) + 5 by omega, h5, h6, hd, decide_eq_false ht,
            if_neg (by simp), hk]
          simp only [afterWait, List.append_assoc]
          rw [← returnWait_ph c w'.ok s.ph]
    · cases h

/-- WaitReady from its entry to its return, over every number of polls (R135, R136). -/
theorem run_waitRun {n : Nat} {w : WaitRun} {s : State} {c : WaitSite}
    (hp : s.ph = .inWait c .w0) (hr : s.rstIn = []) (hs : s.sel = false)
    (h : waitRun (timeoutOf c s) n s.clk s.env = some w) :
    ∃ m ≤ 6 * n + 1, ∀ k, run (k + m) s =
      run k (returnWait c w.ok (afterWait w { s with tmo := timeoutOf c s, t0 := w.t0 })) := by
  obtain ⟨w', hw, rfl⟩ := Option.map_eq_some_iff.mp h
  obtain ⟨h1, m, hm, hk⟩ := run_pollRun (c := c) (s := { s with
    tmo := timeoutOf c s, t0 := s.clk.advance.value, clk := s.clk.advance
    trace := s.trace ++ [.time s.clk.advance.value], ph := .inWait c .w1 }) rfl hr hs rfl rfl hw
  refine ⟨m + 1, by omega, fun k => ?_⟩
  rw [show k + (m + 1) = (k + m) + 1 from rfl,
    run_go (k + m) (by simp [hp]) (by rw [tick_quiet hr]; simp only [line, hp, lineWait, now]; rfl)]
  refine (hk k).trans ?_
  simp only [afterWait, h1, List.append_assoc, List.cons_append, List.nil_append]
  rw [← returnWait_ph c w'.ok s.ph]

/-- The state after WriteEnable's re-read showed `sr`, with V7 to come. -/
def afterEnable (c : EnableSite) (x y sr : Byte) (e : Env) (s : State) : State :=
  { s with
    sr := sr, env := e, xferStart := false, xferOut := Config.dummy, ph := .inEnable c .v7
    trace := s.trace ++ [.select, .xfer Config.opWriteEnable x, .deselect, .select,
      .xfer Config.opReadStatus y, .xfer Config.dummy sr, .deselect] }

/-- WriteEnable returns bit 1 of its one re-read (R145, R146). -/
theorem run_enable {s : State} {c : EnableSite} {x y sr : Byte} {e e' : Env} (n : Nat)
    (hp : s.ph = .inEnable c .v0) (hr : s.rstIn = []) (hs : s.sel = false)
    (hf : s.env.frame [Config.opWriteEnable] = some ([x], e))
    (hf' : e.frame [Config.opReadStatus, Config.dummy] = some ([y, sr], e')) :
    run (n + 8) s = run n (returnEnable c (writeEnabledBit sr) (afterEnable c x y sr e' s)) := by
  obtain ⟨e1, ho, rfl⟩ := Env.frame_some.mp hf
  obtain ⟨i, js, e2, h1, h2, heq⟩ := Env.exchanges_cons.mp ho
  cases h2
  cases heq
  obtain ⟨e3, ho', rfl⟩ := Env.frame_some.mp hf'
  obtain ⟨j, ks, e4, h3, h4, heq⟩ := Env.exchanges_cons.mp ho'
  obtain ⟨k, ls, e5, h5, h6, rfl⟩ := Env.exchanges_cons.mp h4
  cases h6
  cases heq
  rw [run_go (n := n + 7) (hp := by simp [hp])
    (h := by rw [tick_quiet hr]; simp only [line, hp, lineEnable]
             exact select_of_released _ hs)]
  rw [run_go (n := n + 6) (hp := by simp)
    (h := by rw [tick_quiet (by simpa using hr)]; simp only [line, goto_ph, lineEnable]
             exact xfer_of_answer _ (by simp) (by simpa using h1))]
  rw [run_go (n := n + 5) (hp := by simp)
    (h := by rw [tick_quiet (by simpa using hr)]; simp only [line, goto_ph, lineEnable]
             exact deselect_of_selected _ (by simp))]
  rw [run_go (n := n + 4) (hp := by simp)
    (h := by rw [tick_quiet (by simpa using hr)]; simp only [line, goto_ph, lineEnable]
             exact select_of_released _ (by simp))]
  rw [run_go (n := n + 3) (hp := by simp)
    (h := by rw [tick_quiet (by simpa using hr)]; simp only [line, goto_ph, lineEnable]
             exact xfer_of_answer _ (by simp) (by simpa using h3))]
  rw [run_go (n := n + 2) (hp := by simp)
    (h := by rw [tick_quiet (by simpa using hr)]; simp only [line, goto_ph, lineEnable]
             exact xfer_of_answer _ (by simp) (by simpa using h5))]
  rw [run_go (n := n + 1) (hp := by simp)
    (h := by rw [tick_quiet (by simpa using hr)]; simp only [line, goto_ph, lineEnable]
             exact deselect_of_selected _ (by simp))]
  rw [run_go (n := n) (hp := by simp)
    (h := by rw [tick_quiet (by simpa using hr)]; simp only [line, goto_ph, lineEnable]; rfl)]
  congr 1
  simp [afterEnable, goto, hs]

/-- The state after WriteDisable, back in its caller (R147). -/
def afterDisableFrame (c : DisableSite) (x : Byte) (e : Env) (s : State) : State :=
  { s with
    env := e, xferStart := false, xferOut := Config.opWriteDisable, ph := afterDisable c
    trace := s.trace ++ [.select, .xfer Config.opWriteDisable x, .deselect] }

/-- WriteDisable is one frame and cannot fail (R147). -/
theorem run_disable {s : State} {c : DisableSite} {x : Byte} {e : Env} (n : Nat)
    (hp : s.ph = .inDisable c .u0) (hr : s.rstIn = []) (hs : s.sel = false)
    (hf : s.env.frame [Config.opWriteDisable] = some ([x], e)) :
    run (n + 3) s = run n (afterDisableFrame c x e s) := by
  obtain ⟨e1, ho, rfl⟩ := Env.frame_some.mp hf
  obtain ⟨i, js, e2, h1, h2, heq⟩ := Env.exchanges_cons.mp ho
  cases h2
  cases heq
  rw [run_go (n := n + 2) (hp := by simp [hp])
    (h := by rw [tick_quiet hr]; simp only [line, hp, lineDisable]
             exact select_of_released _ hs)]
  rw [run_go (n := n + 1) (hp := by simp)
    (h := by rw [tick_quiet (by simpa using hr)]; simp only [line, goto_ph, lineDisable]
             exact xfer_of_answer _ (by simp) (by simpa using h1))]
  rw [run_go (n := n) (hp := by simp)
    (h := by rw [tick_quiet (by simpa using hr)]; simp only [line, goto_ph, lineDisable]
             exact deselect_of_selected _ (by simp))]
  congr 1
  simp [afterDisableFrame, goto, hs]

/-! ## The page bytes -/

theorem pageByte_of_drop {page os : List Byte} {o : Byte} {k : Byte} (h : page.drop k.toNat = o :: os) :
    pageByte page k = o := by
  have h1 : page[k.toNat]? = some o := by
    rw [← List.head?_drop, h]; rfl
  simp [pageByte, List.getD, h1]

/-- P8 sends the bytes of the buffer from CNT on, each once and in order, and ends at P9 (R161, R162). -/
theorem run_pageBytes {os is : List Byte} {o : Byte} {s : State} {e : Env} (n : Nat)
    (hp : s.ph = .writePage .p8) (hr : s.rstIn = []) (hs : s.sel = true)
    (hd : s.page.drop s.cnt.toNat = o :: os) (hl : s.cnt.toNat + os.length = 255)
    (hx : s.env.exchanges (o :: os) = some (is, e)) :
    run (n + (os.length + 1)) s = run n
      { s with
        ph := .writePage .p9, cnt := 0xFF, env := e, xferStart := false, xferOut := os.getLastD o
        trace := s.trace ++ xferEvents (o :: os) is } := by
  obtain ⟨i, js, e1, h1, h2, rfl⟩ := Env.exchanges_cons.mp hx
  induction os generalizing o s i js e1 with
  | nil =>
    cases h2
    have hc : s.cnt = 0xFF := by
      apply BitVec.eq_of_toNat_eq
      simpa using hl
    rw [show n + (([] : List Byte).length + 1) = n + 1 from rfl]
    rw [run_go (n := n) (hp := by simp [hp])
      (h := by
        rw [tick_quiet hr]
        simp only [line, hp, lineWritePage]
        exact xfer_of_answer _ hs (by rw [pageByte_of_drop hd]; exact h1))]
    congr 1
    have hb := pageByte_of_drop hd
    rw [hc] at hb
    simp only [hc, hb, goto, xferEvents, if_pos]
    rfl
  | cons o' os ih =>
    obtain ⟨i', js', e2, h3, h4, rfl⟩ := Env.exchanges_cons.mp h2
    have hlen : s.cnt.toNat + os.length = 254 := by
      simp only [List.length_cons] at hl
      omega
    have hne : s.cnt ≠ 0xFF := by
      intro h
      rw [h] at hlen
      simp at hlen
      omega
    have hcn : (s.cnt + 1).toNat = s.cnt.toNat + 1 := by
      rw [BitVec.toNat_add]
      simp
      omega
    rw [show n + ((o' :: os).length + 1) = n + (os.length + 1) + 1 from rfl]
    rw [run_go (n := n + (os.length + 1)) (hp := by simp [hp])
      (h := by
        rw [tick_quiet hr]
        simp only [line, hp, lineWritePage]
        exact xfer_of_answer _ hs (by rw [pageByte_of_drop hd]; exact h1))]
    rw [if_neg hne, pageByte_of_drop hd]
    have hd' : s.page.drop (s.cnt + 1).toNat = o' :: os := by
      rw [hcn, ← List.drop_drop, hd]
      rfl
    rw [ih (s := { s with
        env := e1, xferStart := false, xferOut := o, trace := s.trace ++ [.xfer o i], cnt := s.cnt + 1 })
      (o := o') (i := i') (js := js') (e1 := e2) hp hr hs hd' (by rw [hcn]; omega)
      (hx := Env.exchanges_cons.mpr ⟨_, _, _, h3, h4, rfl⟩) (h1 := h3) (h2 := h4)]
    congr 1
    simp [xferEvents]
    cases os <;> rfl

/-! ## A command issued, a frame sent -/

theorem issue_ready {s : State} (cw : Word) (first : Phase) (h : s.ready) :
    issue cw first s = run (budget s) (dispatch first (accept cw s)) := by
  simp [issue, cmdReady_of_ready h]

/-- A presented command runs from the dispatcher, or waits at the port (R30). -/
theorem issue_cases (cw : Word) (first : Phase) (s : State) :
    (cmdReady s = true ∧ issue cw first s = run (budget s) (dispatch first (accept cw s))) ∨
      (cmdReady s = false ∧ issue cw first s = .next s) := by
  unfold issue
  cases h : cmdReady s <;> simp

theorem dispatch_admitted {s : State} (first : Phase) (h : admits s.op s.rda = true) :
    dispatch first s = goto first s := by
  simp [dispatch, h]

theorem dispatch_refused {s : State} (first : Phase) (h : admits s.op s.rda = false) :
    dispatch first s = respondAny .protocol s := by
  simp [dispatch, h]

/-- A frame by itself waits its turn, or runs from its Select. -/
theorem sendFrame_cases (f : WireFrame) (s : State) :
    (cmdReady s = true ∧ sendFrame f s = run (budget (beginFrame f s)) (beginFrame f s)) ∨
      (cmdReady s = false ∧ sendFrame f s = .next s) := by
  unfold sendFrame
  cases h : cmdReady s <;> simp

/-- The bytes of a lone frame after its opcode, each exchanged once and in order, and the Deselect
(R87, R92). -/
theorem run_operands {f : WireFrame} {left received is : List Byte} {s : State} {e : Env} (n : Nat)
    (hp : s.ph = .frame f (.operands left received)) (hr : s.rstIn = []) (hs : s.sel = true)
    (hx : s.xferStart = false) (he : s.env.exchanges left = some (is, e)) :
    run (n + (left.length + 1)) s = .next (keepReceived f.row (received ++ is)
      { s with
        ph := .idle, sel := false, env := e.deselect, xferOut := left.getLastD s.xferOut
        trace := s.trace ++ (xferEvents left is ++ [.deselect]) }) := by
  induction left generalizing received is s with
  | nil =>
    cases he
    rw [show n + (([] : List Byte).length + 1) = n + 1 from rfl]
    rw [run_go (n := n) (hp := by simp [hp])
      (h := by
        rw [tick_quiet hr]
        simp only [line, hp, lineFrame]
        exact deselect_of_selected _ hs)]
    rw [run_idle n (by cases f.row <;> rfl)]
    simp [goto, xferEvents]
  | cons o left ih =>
    obtain ⟨i, js, e1, h1, h2, rfl⟩ := Env.exchanges_cons.mp he
    rw [show n + ((o :: left).length + 1) = n + (left.length + 1) + 1 from rfl]
    rw [run_go (n := n + (left.length + 1)) (hp := by simp [hp])
      (h := by
        rw [tick_quiet hr]
        simp only [line, hp, lineFrame]
        exact xfer_of_answer _ hs h1)]
    refine (ih (s := { s with
        ph := .frame f (.operands left (received ++ [i])), env := e1, xferStart := false, xferOut := o
        trace := s.trace ++ [.xfer o i] }) rfl hr hs rfl h2).trans ?_
    simp only [hx, xferEvents, List.append_assoc, List.cons_append, List.nil_append]
    cases left <;> rfl

/-- A lone frame that ENV answers runs whole: its bytes in order, one answer each, and what SEQ keeps of
them (R87, R92). -/
theorem sendFrame_answered {f : WireFrame} {is : List Byte} {s : State} {e : Env} (h : s.ready)
    (hs : s.sel = false) (hf : s.env.frame f.bytes = some (is, e)) :
    sendFrame f s = .next (keepReceived f.row is.tail
      { s with
        env := e, xferStart := false, xferOut := f.operands.getLastD f.row.opcode
        trace := s.trace ++ frameEvents f.bytes is }) := by
  obtain ⟨e1, ho, rfl⟩ := Env.frame_some.mp hf
  obtain ⟨i, js, e2, h1, h2, rfl⟩ := Env.exchanges_cons.mp ho
  have hb : budget (beginFrame f s) =
      16 * (s.clk.gaps.length + 2 ^ 32 + 64) + (f.operands.length + 1) + 1 + 1 := by
    simp [budget, beginFrame, Phase.frameLines, h.2]
    omega
  have hn : (beginFrame f s).rstIn = [] := by simp [beginFrame, h.2]
  simp only [sendFrame, cmdReady_of_ready h, if_true, hb]
  rw [run_go (hp := by simp [beginFrame])
    (h := by
      rw [tick_quiet hn]
      simp only [line, beginFrame, goto_ph, lineFrame]
      exact select_of_released _ (by simpa using hs))]
  rw [run_go (hp := by simp)
    (h := by
      rw [tick_quiet (by simpa [beginFrame] using hn)]
      simp only [line, goto_ph, lineFrame]
      exact xfer_of_answer _ (by simp) (by simpa using h1))]
  refine (run_operands (s := { s with
      ph := .frame f (.operands f.operands []), rstIn := s.rstIn.tail, sel := true, env := e2, xferStart := false
      xferOut := f.row.opcode, trace := s.trace ++ [.select] ++ [.xfer f.row.opcode i] })
    _ rfl hn rfl rfl h2).trans ?_
  obtain ⟨hi, hq⟩ := h
  cases s
  simp_all [WireFrame.bytes, frameEvents, xferEvents]

/-! ## One step of the machine -/

/-- Everything a step that goes on can have been: a reset, an idle step, an instruction run, an
illegal code answered, or the command in flight taken further. -/
theorem step_cases {s t : State} (h : step s = .next t) :
    (rstNow s = true ∧ t = takeReset s) ∨
      (rstNow s = false ∧ s.ph = .idle ∧ s.host = [] ∧ t = { s with rstIn := s.rstIn.tail }) ∨
      (rstNow s = false ∧ s.ph = .idle ∧ ∃ r rest i, s.host = r :: rest ∧ decode r = .ok i ∧
        exec i { s with host := rest } = .next t) ∨
      (rstNow s = false ∧ s.ph = .idle ∧ ∃ cw buf rest op, s.host = .command cw buf :: rest ∧
        decodeCommand cw buf = .error (.illegalCode op) ∧
        issueIllegal cw { s with host := rest } = .next t) ∨
      (rstNow s = false ∧ s.ph ≠ .idle ∧ resume s = .next t) := by
  unfold step at h
  split at h
  · cases h
    exact .inl ⟨‹_›, rfl⟩
  · have hr : rstNow s = false := by simpa using ‹¬rstNow s = true›
    split at h
    · rename_i hp
      cases hh : s.host with
      | nil =>
        rw [hh] at h
        cases h
        exact .inr (.inl ⟨hr, hp, rfl, rfl⟩)
      | cons r rest =>
        rw [hh] at h
        cases hd : decode r with
        | ok i =>
          simp only [hd] at h
          exact .inr (.inr (.inl ⟨hr, hp, r, rest, i, rfl, hd, h⟩))
        | error e =>
          simp only [hd] at h
          split at h
          · cases ‹Except.error _ = Except.ok _›
          · cases ‹Except.error _ = Except.error _›
            exact .inr (.inr (.inr (.inl ⟨hr, hp, _, _, rest, _, rfl, hd, h⟩)))
          · cases h
    · exact .inr (.inr (.inr (.inr ⟨hr, ‹_›, h⟩)))

end Sys2Proof.Machine
end

