-- ==== Sys2Proof/Laws/Invariant.lean ====
section
/-! SUPPORT. The invariant, line by line: where the bus, SEL, the trace and ENV stand after each
primitive, and that every labelled line and the reset event keep it (spec/10_state.md R36). -/

namespace Sys2Proof.Machine

/-! ## The bus -/

theorem busFrom_append (b : Bus) (t u : List Event) :
    busFrom b (t ++ u) = (busFrom b t).bind (fun b' => busFrom b' u) := by
  induction t generalizing b with
  | nil => rfl
  | cons e t ih =>
    simp only [List.cons_append, busFrom]
    cases busStep b e <;> simp [ih]

theorem busAfter_snoc {t : List Event} {b : Bus} (h : busAfter t = some b) (e : Event) :
    busAfter (t ++ [e]) = busStep b e := by
  unfold busAfter at *
  rw [busFrom_append, h]
  simp only [Option.bind_some, busFrom]
  cases busStep b e <;> rfl

theorem onXfer_frame {c : Chip} {f : List Byte} (o : Byte) (h : c.frame = some f) :
    (c.onXfer o).2.frame = some (f ++ [o]) := by
  simp [Chip.onXfer, h]

/-! ## ENV at the bus -/

theorem envAgrees_select {e : Env} (h : envAgrees .released e = true) :
    envAgrees .opened e.select = true := by
  cases e with
  | script => rfl
  | chip c => simp_all [envAgrees, Env.select, Chip.onSelect]

theorem envAgrees_first {e e' : Env} {o i : Byte} (h : envAgrees .opened e = true)
    (hx : e.exchange o = some (i, e')) :
    envAgrees (.inFrame o) e' = true := by
  cases e with
  | script as => cases as <;> simp [Env.exchange] at hx; obtain ⟨-, rfl⟩ := hx; rfl
  | chip c =>
    simp only [Env.exchange, Option.some.injEq, Prod.mk.injEq] at hx
    obtain ⟨-, rfl⟩ := hx
    simp only [envAgrees, Bool.and_eq_true] at h ⊢
    refine ⟨by rw [Chip.onXfer_mem]; exact h.1, ?_⟩
    have h2 := h.2
    split at h2 <;> simp_all
    rw [onXfer_frame o ‹_›]; simp

theorem envAgrees_more {e e' : Env} {op o i : Byte} (h : envAgrees (.inFrame op) e = true)
    (hx : e.exchange o = some (i, e')) :
    envAgrees (.inFrame op) e' = true := by
  cases e with
  | script as => cases as <;> simp [Env.exchange] at hx; obtain ⟨-, rfl⟩ := hx; rfl
  | chip c =>
    simp only [Env.exchange, Option.some.injEq, Prod.mk.injEq] at hx
    obtain ⟨-, rfl⟩ := hx
    simp only [envAgrees, Bool.and_eq_true] at h ⊢
    refine ⟨by rw [Chip.onXfer_mem]; exact h.1, ?_⟩
    have h2 := h.2
    split at h2 <;> simp_all
    rw [onXfer_frame o ‹_›]; simp_all

theorem envAgrees_deselect {b : Bus} {e : Env} (h : envAgrees b e = true) :
    envAgrees .released e.deselect = true := by
  cases e with
  | script => rfl
  | chip c =>
    simp only [envAgrees, Bool.and_eq_true] at h
    simp only [Env.deselect, envAgrees, Bool.and_eq_true]
    exact ⟨Chip.onDeselect_wf c h.1, by simp [Chip.onDeselect]⟩

theorem envAgrees_settle {b : Bus} {e : Env} (r : Region) (h : envAgrees b e = true) :
    envAgrees b (e.settle r) = true := by
  cases e with
  | script => rfl
  | chip c =>
    simpa [envAgrees, Env.settle] using h

theorem envAgrees_abandon {b : Bus} {e : Env} (r : Option Region) (h : envAgrees b e = true) :
    envAgrees b (e.abandon r) = true := by
  cases e with
  | script => rfl
  | chip c => cases r <;> simpa [envAgrees, Env.abandon] using h

/-! ## The reset event -/

/-- The reset event leaves a state that meets the invariant (R200). -/
theorem takeReset_inv {s : State} (h : s.Inv) : (takeReset s).Inv := by
  refine ⟨rfl, rfl, ?_, ?_, rfl⟩
  · rw [takeReset_trace, busAfter_snoc h.trace]
    cases busAt s.rda s.ph <;> rfl
  · have he : envAgrees .released (if s.sel then s.env.deselect else s.env) = true := by
      split
      · exact envAgrees_deselect h.env
      · have := h.sel
        have h2 := h.env
        have hb : busAt s.rda s.ph = .released := by simp_all
        rw [hb] at h2; exact h2
    show envAgrees .released (resetEnv s) = true
    unfold resetEnv
    simp only
    split
    · exact he
    · exact envAgrees_abandon _ he

/-- INIT gives CAP one of its six values (R94). -/
theorem capOf_legal (id : BitVec 24) : capLegal (capOf id) = true := by
  unfold capOf; repeat' split
  all_goals rfl

theorem busStep_first {o : Byte} (ho : isWireOpcode o = true) (i : Byte) :
    busStep .opened (.xfer o i) = some (.inFrame o) := by
  simp [busStep, ho]

/-! ## Each primitive -/

/-- The invariant with the bus written out, for the states inside one line. -/
structure Agree (b : Bus) (s : State) : Prop where
  sel   : s.sel = decide (b ≠ .released)
  trace : busAfter s.trace = some b
  env   : envAgrees b s.env = true
  cap   : capLegal s.cap = true

theorem inv_iff {s : State} : s.Inv ↔ s.rda = rdaAt s.rda s.ph ∧ Agree (busAt s.rda s.ph) s :=
  ⟨fun h => ⟨h.rda, h.sel, h.trace, h.env, h.cap⟩,
    fun h => ⟨h.1, h.2.sel, h.2.trace, h.2.env, h.2.cap⟩⟩

theorem Agree.same {b : Bus} {s t : State} (h : Agree b s) (h1 : t.sel = s.sel) (h2 : t.trace = s.trace)
    (h3 : t.env = s.env) (h4 : t.cap = s.cap) : Agree b t :=
  ⟨by rw [h1]; exact h.sel, by rw [h2]; exact h.trace, by rw [h3]; exact h.env, by rw [h4]; exact h.cap⟩

/-- `Select` (R112). -/
theorem Agree.select {s : State} (h : Agree .released s) :
    Agree .opened { s with sel := true, env := s.env.select, trace := s.trace ++ [.select] } :=
  ⟨rfl, busAfter_snoc h.trace _, envAgrees_select h.env, h.cap⟩

/-- The first exchange of a frame, an opcode (R97, R114). -/
theorem Agree.first {s : State} {o i : Byte} {e : Env} (h : Agree .opened s) (ho : isWireOpcode o = true)
    (hx : s.env.exchange o = some (i, e)) :
    Agree (.inFrame o)
      { s with env := e, xferStart := false, xferOut := o, trace := s.trace ++ [.xfer o i] } :=
  ⟨h.sel, (busAfter_snoc h.trace _).trans (busStep_first ho i), envAgrees_first h.env hx, h.cap⟩

/-- A later exchange of a frame (R114). -/
theorem Agree.more {s : State} {op o i : Byte} {e : Env} (h : Agree (.inFrame op) s)
    (hx : s.env.exchange o = some (i, e)) :
    Agree (.inFrame op)
      { s with env := e, xferStart := false, xferOut := o, trace := s.trace ++ [.xfer o i] } :=
  ⟨h.sel, busAfter_snoc h.trace _, envAgrees_more h.env hx, h.cap⟩

/-- `Deselect` (R113). -/
theorem Agree.deselect {s : State} {op : Byte} (h : Agree (.inFrame op) s) :
    Agree .released { s with sel := false, env := s.env.deselect, trace := s.trace ++ [.deselect] } :=
  ⟨rfl, busAfter_snoc h.trace _, envAgrees_deselect h.env, h.cap⟩

/-- `Now` (R115). -/
theorem Agree.now {b : Bus} {s : State} {t : Word} {c : Clock} (h : Agree b s) :
    Agree b { s with clk := c, trace := s.trace ++ [.time t] } :=
  ⟨h.sel, by rw [busAfter_snoc h.trace]; cases b <;> rfl, h.env, h.cap⟩

/-- A region, BUSY and the latch become any value. -/
theorem Agree.abandon {b : Bus} {s : State} (r : Option Region) (h : Agree b s) :
    Agree b { s with env := s.env.abandon r } :=
  ⟨h.sel, h.trace, envAgrees_abandon r h.env, h.cap⟩

/-- An erase of a region has returned OK. -/
theorem Agree.settle {b : Bus} {s : State} (r : Region) (h : Agree b s) :
    Agree b { s with env := s.env.settle r } :=
  ⟨h.sel, h.trace, envAgrees_settle r h.env, h.cap⟩

/-! ## The end of a line -/

/-- A line that ends at phase `p` with the bus as `p` has it. -/
theorem inv_at {s t : State} {b : Bus} {p : Phase} (h : Agree b s) (hp : t.ph = p)
    (hr : t.rda = rdaAt t.rda p) (hb : busAt t.rda p = b) (h1 : t.sel = s.sel) (h2 : t.trace = s.trace)
    (h3 : t.env = s.env) (h4 : t.cap = s.cap) : t.Inv := by
  subst hp hb
  exact inv_iff.mpr ⟨hr, h.same h1 h2 h3 h4⟩

/-- `Respond` (R110). -/
theorem Agree.respond {s : State} {b : Bus} (st : Status) (v : Word) (h : Agree b s) :
    Agree b (respond st v s) :=
  ⟨h.sel, by rw [respond_trace, busAfter_snoc h.trace]; cases b <;> rfl, h.env, h.cap⟩

theorem respond_inv {s : State} (st : Status) (v : Word) (hr : s.rda = false) (h : Agree .released s) :
    (respond st v s).Inv :=
  inv_iff.mpr ⟨rfl, by
    have hb : busAt (Machine.respond st v s).rda (Machine.respond st v s).ph = .released := by
      rw [respond_rda, respond_ph, hr]; rfl
    rw [hb]
    exact h.respond st v⟩

theorem respond_inv_open {s : State} (st : Status) (v : Word) (hr : s.rda = true)
    (h : Agree (.inFrame Config.opReadData) s) : (respond st v s).Inv :=
  inv_iff.mpr ⟨rfl, by
    have hb : busAt (Machine.respond st v s).rda (Machine.respond st v s).ph = .inFrame Config.opReadData := by
      rw [respond_rda, respond_ph, hr]; rfl
    rw [hb]
    exact h.respond st v⟩

theorem respondAny_inv {s : State} (st : Status) (hr : s.rda = false) (h : Agree .released s) :
    (respondAny st s).Inv :=
  respond_inv st _ hr (h.same rfl rfl rfl rfl)

theorem respondAny_inv_open {s : State} (st : Status) (hr : s.rda = true)
    (h : Agree (.inFrame Config.opReadData) s) : (respondAny st s).Inv :=
  respond_inv_open st _ hr (h.same rfl rfl rfl rfl)

theorem passOrFail_inv {r : Bool} {p : Phase} {s : State} (hr : s.rda = false) (h : Agree .released s)
    (hp : busAt false p = .released) (hq : rdaAt false p = false) : (passOrFail r p s).Inv := by
  cases r
  · exact respondAny_inv _ hr h
  · exact inv_at (p := p) h rfl (by simp [hr, hq]) (by simp [hr, hp]) rfl rfl rfl rfl

theorem passOrForget_inv {r : Bool} {g : Region} {p : Phase} {s : State} (hr : s.rda = false)
    (h : Agree .released s) (hp : busAt false p = .released) (hq : rdaAt false p = false) :
    (passOrForget r g p s).Inv := by
  cases r
  · exact respondAny_inv _ hr (h.abandon (some g))
  · exact inv_at (p := p) h rfl (by simp [hr, hq]) (by simp [hr, hp]) rfl rfl rfl rfl

/-! ## Every line -/

/-- A row's opcode is one of the eight (R90). -/
theorem opcode_isWire (r : WireRow) : isWireOpcode r.opcode = true := by
  cases r <;> rfl

/-- Every labelled line keeps the invariant. -/
theorem line_inv {s t : State} (h : s.Inv) (hl : line s = .go t) : t.Inv := by
  obtain ⟨hr, ha⟩ := inv_iff.mp h
  unfold line at hl
  split at hl
  all_goals rename_i hp
  · cases hl
  all_goals rw [hp] at hr ha
  -- init
  · rename_i l
    have hr : s.rda = false := by cases l <;> exact hr
    cases l <;> simp only [lineInit] at hl
    · obtain ⟨-, rfl⟩ := select_go hl
      exact inv_at (Agree.select ha) rfl hr rfl rfl rfl rfl rfl
    · obtain ⟨-, i, e, hx, rfl⟩ := xfer_go hl
      exact inv_at (Agree.first ha rfl hx) rfl hr rfl rfl rfl rfl rfl
    · obtain ⟨-, i, e, hx, rfl⟩ := xfer_go hl
      exact inv_at ((Agree.more ha hx).same rfl rfl rfl rfl) rfl hr rfl rfl rfl rfl rfl
    · obtain ⟨-, i, e, hx, rfl⟩ := xfer_go hl
      exact inv_at ((Agree.more ha hx).same rfl rfl rfl rfl) rfl hr rfl rfl rfl rfl rfl
    · obtain ⟨-, i, e, hx, rfl⟩ := xfer_go hl
      exact inv_at ((Agree.more ha hx).same rfl rfl rfl rfl) rfl hr rfl rfl rfl rfl rfl
    · obtain ⟨-, rfl⟩ := deselect_go hl
      exact inv_at ((Agree.deselect ha).same rfl rfl rfl rfl) rfl hr rfl rfl rfl rfl rfl
    · cases hl
      have : Agree .released { s with cap := capOf s.ident } := ⟨ha.sel, ha.trace, ha.env, capOf_legal _⟩
      exact respond_inv _ _ hr this
  -- waitReady
  · rename_i l
    have hr : s.rda = false := by cases l <;> exact hr
    have ha : Agree .released s := by cases l <;> exact ha
    cases l <;> simp only [lineWaitReady] at hl <;> cases hl
    · exact inv_at (ha.same rfl rfl rfl rfl) rfl hr rfl rfl rfl rfl rfl
    · split
      · exact respondAny_inv _ hr ha
      · exact respondAny_inv _ hr ha
  · rename_i l
    have hr : s.rda = false := by cases l <;> exact hr
    have ha : Agree .released s := by cases l <;> exact ha
    cases l <;> simp only [lineWriteEnable] at hl <;> cases hl
    · exact inv_at (ha.same rfl rfl rfl rfl) rfl hr rfl rfl rfl rfl rfl
    · split
      · exact respondAny_inv _ hr ha
      · exact respondAny_inv _ hr ha
  · rename_i l
    have hr : s.rda = false := by cases l <;> exact hr
    have ha : Agree .released s := by cases l <;> exact ha
    cases l <;> simp only [lineWriteDisable] at hl <;> cases hl
    · exact inv_at (ha.same rfl rfl rfl rfl) rfl hr rfl rfl rfl rfl rfl
    · exact respondAny_inv _ hr ha
  -- eraseChip
  · rename_i l
    have hr : s.rda = false := by cases l <;> exact hr
    cases l <;> simp only [lineEraseChip] at hl
    · cases hl; exact inv_at (ha.same rfl rfl rfl rfl) rfl hr rfl rfl rfl rfl rfl
    · cases hl; exact inv_at (ha.same rfl rfl rfl rfl) rfl hr rfl rfl rfl rfl rfl
    · obtain ⟨-, rfl⟩ := select_go hl
      exact inv_at (Agree.select ha) rfl hr rfl rfl rfl rfl rfl
    · obtain ⟨-, i, e, hx, rfl⟩ := xfer_go hl
      exact inv_at (Agree.first ha rfl hx) rfl hr rfl rfl rfl rfl rfl
    · obtain ⟨-, rfl⟩ := deselect_go hl
      exact inv_at ((Agree.deselect ha).same rfl rfl rfl rfl) rfl hr rfl rfl rfl rfl rfl
    · cases hl; exact inv_at (ha.same rfl rfl rfl rfl) rfl hr rfl rfl rfl rfl rfl
    · cases hl; exact inv_at (ha.same rfl rfl rfl rfl) rfl hr rfl rfl rfl rfl rfl
    · cases hl; exact respondAny_inv _ hr (ha.settle _)
  -- eraseSector
  · rename_i l
    have hr : s.rda = false := by cases l <;> exact hr
    cases l <;> simp only [lineEraseSector] at hl
    · cases hl
      split
      · exact inv_at (ha.same rfl rfl rfl rfl) rfl hr rfl rfl rfl rfl rfl
      · exact respondAny_inv _ hr ha
    · cases hl; exact inv_at (ha.same rfl rfl rfl rfl) rfl hr rfl rfl rfl rfl rfl
    · cases hl; exact inv_at (ha.same rfl rfl rfl rfl) rfl hr rfl rfl rfl rfl rfl
    · obtain ⟨-, rfl⟩ := select_go hl
      exact inv_at (Agree.select ha) rfl hr rfl rfl rfl rfl rfl
    · obtain ⟨-, i, e, hx, rfl⟩ := xfer_go hl
      exact inv_at (Agree.first ha rfl hx) rfl hr rfl rfl rfl rfl rfl
    · obtain ⟨-, i, e, hx, rfl⟩ := xfer_go hl
      exact inv_at (Agree.more ha hx) rfl hr rfl rfl rfl rfl rfl
    · obtain ⟨-, i, e, hx, rfl⟩ := xfer_go hl
      exact inv_at (Agree.more ha hx) rfl hr rfl rfl rfl rfl rfl
    · obtain ⟨-, i, e, hx, rfl⟩ := xfer_go hl
      exact inv_at (Agree.more ha hx) rfl hr rfl rfl rfl rfl rfl
    · obtain ⟨-, rfl⟩ := deselect_go hl
      exact inv_at ((Agree.deselect ha).same rfl rfl rfl rfl) rfl hr rfl rfl rfl rfl rfl
    · cases hl; exact inv_at (ha.same rfl rfl rfl rfl) rfl hr rfl rfl rfl rfl rfl
    · cases hl; exact inv_at (ha.same rfl rfl rfl rfl) rfl hr rfl rfl rfl rfl rfl
    · cases hl; exact respondAny_inv _ hr (ha.settle _)
  -- writePage
  · rename_i l
    have hr : s.rda = false := by cases l <;> exact hr
    cases l <;> simp only [lineWritePage] at hl
    · cases hl
      split
      · exact inv_at (ha.same rfl rfl rfl rfl) rfl hr rfl rfl rfl rfl rfl
      · exact respondAny_inv _ hr ha
    · cases hl; exact inv_at (ha.same rfl rfl rfl rfl) rfl hr rfl rfl rfl rfl rfl
    · cases hl; exact inv_at (ha.same rfl rfl rfl rfl) rfl hr rfl rfl rfl rfl rfl
    · obtain ⟨-, rfl⟩ := select_go hl
      exact inv_at (Agree.select ha) rfl hr rfl rfl rfl rfl rfl
    · obtain ⟨-, i, e, hx, rfl⟩ := xfer_go hl
      exact inv_at (Agree.first ha rfl hx) rfl hr rfl rfl rfl rfl rfl
    · obtain ⟨-, i, e, hx, rfl⟩ := xfer_go hl
      exact inv_at (Agree.more ha hx) rfl hr rfl rfl rfl rfl rfl
    · obtain ⟨-, i, e, hx, rfl⟩ := xfer_go hl
      exact inv_at (Agree.more ha hx) rfl hr rfl rfl rfl rfl rfl
    · obtain ⟨-, i, e, hx, rfl⟩ := xfer_go hl
      exact inv_at ((Agree.more ha hx).same rfl rfl rfl rfl) rfl hr rfl rfl rfl rfl rfl
    · obtain ⟨-, i, e, hx, rfl⟩ := xfer_go hl
      simp only
      split
      · exact inv_at (Agree.more ha hx) rfl hr rfl rfl rfl rfl rfl
      · exact inv_at ((Agree.more ha hx).same rfl rfl rfl rfl) hp hr rfl rfl rfl rfl rfl
    · obtain ⟨-, rfl⟩ := deselect_go hl
      exact inv_at ((Agree.deselect ha).same rfl rfl rfl rfl) rfl hr rfl rfl rfl rfl rfl
    · cases delay_go hl
      exact inv_at (s := { s with trace := s.trace ++ [.delay s.par.tSettle] })
        ⟨ha.sel, busAfter_snoc ha.trace _, ha.env, ha.cap⟩ rfl hr rfl rfl rfl rfl rfl
    · cases hl; exact inv_at (ha.same rfl rfl rfl rfl) rfl hr rfl rfl rfl rfl rfl
    · cases hl; exact inv_at (ha.same rfl rfl rfl rfl) rfl hr rfl rfl rfl rfl rfl
    · cases hl; exact respondAny_inv _ hr (ha.settle _)
  -- beginRead
  · rename_i l
    cases l <;> simp only [lineBeginRead] at hl
    · have hr : s.rda = false := hr
      cases hl
      split
      · exact inv_at (ha.same rfl rfl rfl rfl) rfl hr rfl rfl rfl rfl rfl
      · exact respondAny_inv _ hr ha
    · cases hl; exact inv_at (ha.same rfl rfl rfl rfl) rfl hr rfl rfl rfl rfl rfl
    · obtain ⟨-, rfl⟩ := select_go hl
      exact inv_at (Agree.select ha) rfl hr rfl rfl rfl rfl rfl
    · obtain ⟨-, i, e, hx, rfl⟩ := xfer_go hl
      exact inv_at (Agree.first ha rfl hx) rfl hr rfl rfl rfl rfl rfl
    · obtain ⟨-, i, e, hx, rfl⟩ := xfer_go hl
      exact inv_at (Agree.more ha hx) rfl hr rfl rfl rfl rfl rfl
    · obtain ⟨-, i, e, hx, rfl⟩ := xfer_go hl
      exact inv_at (Agree.more ha hx) rfl hr rfl rfl rfl rfl rfl
    · obtain ⟨-, i, e, hx, rfl⟩ := xfer_go hl
      exact inv_at (Agree.more ha hx) rfl hr rfl rfl rfl rfl rfl
    · cases hl; exact inv_at (ha.same rfl rfl rfl rfl) rfl rfl rfl rfl rfl rfl rfl
    · have hr : s.rda = true := hr
      cases hl; exact respondAny_inv_open _ hr ha
  -- readNext
  · rename_i l
    have hr : s.rda = true := by cases l <;> exact hr
    cases l <;> simp only [lineReadNext] at hl
    · obtain ⟨-, i, e, hx, rfl⟩ := xfer_go hl
      exact inv_at ((Agree.more ha hx).same rfl rfl rfl rfl) rfl hr rfl rfl rfl rfl rfl
    · cases hl; exact respond_inv_open _ _ hr ha
  -- endRead
  · rename_i l
    cases l <;> simp only [lineEndRead] at hl
    · cases hl
      split
      · rename_i h'
        have hb : busAt s.rda (.endRead .x0) = .inFrame Config.opReadData := by rw [h']; rfl
        rw [hb] at ha
        exact inv_at ha rfl h' rfl rfl rfl rfl rfl
      · rename_i h'
        have hr : s.rda = false := by simpa using h'
        have hb : busAt s.rda (.endRead .x0) = .released := by rw [hr]; rfl
        rw [hb] at ha
        exact respondAny_inv _ hr ha
    · obtain ⟨-, rfl⟩ := deselect_go hl
      exact respondAny_inv _ rfl ((Agree.deselect ha).same rfl rfl rfl rfl)
  -- inWait
  · rename_i c l
    have hr : s.rda = false := by cases l <;> exact hr
    cases l <;> simp only [lineWait] at hl
    · rw [now_go hl]
      have ha : Agree .released s := ha
      exact inv_at (ha.now (t := s.clk.advance.value) (c := s.clk.advance)) rfl hr rfl rfl rfl rfl rfl
    · obtain ⟨-, rfl⟩ := select_go hl
      exact inv_at (Agree.select ha) rfl hr rfl rfl rfl rfl rfl
    · obtain ⟨-, i, e, hx, rfl⟩ := xfer_go hl
      exact inv_at (Agree.first ha rfl hx) rfl hr rfl rfl rfl rfl rfl
    · obtain ⟨-, i, e, hx, rfl⟩ := xfer_go hl
      exact inv_at ((Agree.more ha hx).same rfl rfl rfl rfl) rfl hr rfl rfl rfl rfl rfl
    · obtain ⟨-, rfl⟩ := deselect_go hl
      exact inv_at ((Agree.deselect ha).same rfl rfl rfl rfl) rfl hr rfl rfl rfl rfl rfl
    · have ha : Agree .released s := ha
      cases hl
      split
      · exact inv_at (ha.same rfl rfl rfl rfl) rfl hr rfl rfl rfl rfl rfl
      · cases c <;> simp only [returnWait]
        · exact inv_at (ha.same rfl rfl rfl rfl) rfl hr rfl rfl rfl rfl rfl
        · exact passOrFail_inv hr (ha.same rfl rfl rfl rfl) rfl rfl
        · exact passOrForget_inv hr (ha.same rfl rfl rfl rfl) rfl rfl
        · exact passOrFail_inv hr (ha.same rfl rfl rfl rfl) rfl rfl
        · exact passOrForget_inv hr (ha.same rfl rfl rfl rfl) rfl rfl
        · exact passOrFail_inv hr (ha.same rfl rfl rfl rfl) rfl rfl
        · exact passOrForget_inv hr (ha.same rfl rfl rfl rfl) rfl rfl
        · exact passOrFail_inv hr (ha.same rfl rfl rfl rfl) rfl rfl
    · have ha : Agree .released s := ha
      rw [now_go hl]
      simp only
      have hn := ha.now (t := s.clk.advance.value) (c := s.clk.advance)
      split
      · cases c <;> simp only [returnWait]
        · exact inv_at hn rfl hr rfl rfl rfl rfl rfl
        · exact passOrFail_inv hr (hn.same rfl rfl rfl rfl) rfl rfl
        · exact passOrForget_inv hr (hn.same rfl rfl rfl rfl) rfl rfl
        · exact passOrFail_inv hr (hn.same rfl rfl rfl rfl) rfl rfl
        · exact passOrForget_inv hr (hn.same rfl rfl rfl rfl) rfl rfl
        · exact passOrFail_inv hr (hn.same rfl rfl rfl rfl) rfl rfl
        · exact passOrForget_inv hr (hn.same rfl rfl rfl rfl) rfl rfl
        · exact passOrFail_inv hr (hn.same rfl rfl rfl rfl) rfl rfl
      · exact inv_at hn rfl hr rfl rfl rfl rfl rfl
  -- inEnable
  · rename_i c l
    have hr : s.rda = false := by cases l <;> exact hr
    cases l <;> simp only [lineEnable] at hl
    · obtain ⟨-, rfl⟩ := select_go hl
      exact inv_at (Agree.select ha) rfl hr rfl rfl rfl rfl rfl
    · obtain ⟨-, i, e, hx, rfl⟩ := xfer_go hl
      exact inv_at (Agree.first ha rfl hx) rfl hr rfl rfl rfl rfl rfl
    · obtain ⟨-, rfl⟩ := deselect_go hl
      exact inv_at ((Agree.deselect ha).same rfl rfl rfl rfl) rfl hr rfl rfl rfl rfl rfl
    · obtain ⟨-, rfl⟩ := select_go hl
      exact inv_at (Agree.select ha) rfl hr rfl rfl rfl rfl rfl
    · obtain ⟨-, i, e, hx, rfl⟩ := xfer_go hl
      exact inv_at (Agree.first ha rfl hx) rfl hr rfl rfl rfl rfl rfl
    · obtain ⟨-, i, e, hx, rfl⟩ := xfer_go hl
      exact inv_at ((Agree.more ha hx).same rfl rfl rfl rfl) rfl hr rfl rfl rfl rfl rfl
    · obtain ⟨-, rfl⟩ := deselect_go hl
      exact inv_at ((Agree.deselect ha).same rfl rfl rfl rfl) rfl hr rfl rfl rfl rfl rfl
    · have ha : Agree .released s := ha
      cases hl
      cases c <;> simp only [returnEnable]
      · exact inv_at (ha.same rfl rfl rfl rfl) rfl hr rfl rfl rfl rfl rfl
      · exact passOrFail_inv hr (ha.same rfl rfl rfl rfl) rfl rfl
      · exact passOrFail_inv hr (ha.same rfl rfl rfl rfl) rfl rfl
      · exact passOrFail_inv hr (ha.same rfl rfl rfl rfl) rfl rfl
  -- inDisable
  · rename_i c l
    have hr : s.rda = false := by cases l <;> exact hr
    cases l <;> simp only [lineDisable] at hl
    · obtain ⟨-, rfl⟩ := select_go hl
      exact inv_at (Agree.select ha) rfl hr rfl rfl rfl rfl rfl
    · obtain ⟨-, i, e, hx, rfl⟩ := xfer_go hl
      exact inv_at (Agree.first ha rfl hx) rfl hr rfl rfl rfl rfl rfl
    · obtain ⟨-, rfl⟩ := deselect_go hl
      cases c <;> exact inv_at ((Agree.deselect ha).same rfl rfl rfl rfl) rfl hr rfl rfl rfl rfl rfl
  -- frame
  · rename_i f l
    have hr : s.rda = false := by cases l <;> exact hr
    rcases l with _ | _ | ⟨_ | ⟨o, left⟩, received⟩ <;> simp only [lineFrame] at hl
    · obtain ⟨-, rfl⟩ := select_go hl
      exact inv_at (Agree.select ha) rfl hr rfl rfl rfl rfl rfl
    · obtain ⟨-, i, e, hx, rfl⟩ := xfer_go hl
      exact inv_at (Agree.first ha (opcode_isWire f.row) hx) rfl hr rfl rfl rfl rfl rfl
    · obtain ⟨-, rfl⟩ := deselect_go hl
      have hb : busAt s.rda .idle = .released := by rw [hr]; rfl
      unfold keepReceived
      split <;> exact inv_at (Agree.deselect ha) rfl rfl hb rfl rfl rfl rfl
    · obtain ⟨-, i, e, hx, rfl⟩ := xfer_go hl
      exact inv_at (Agree.more ha hx) rfl hr rfl rfl rfl rfl rfl

/-- A line that waits for ENV leaves the invariant (R69). -/
theorem line_wait_inv {s t : State} (h : s.Inv) (hl : line s = .wait t) : t.Inv := by
  have key : ∀ o next, xfer o next s = .wait t → t.Inv := by
    intro o next hx
    obtain ⟨-, -, rfl⟩ := xfer_wait hx
    exact ⟨h.rda, h.sel, h.trace, h.env, h.cap⟩
  unfold line at hl
  split at hl
  · cases hl; exact h
  · rename_i l _
    cases l <;> simp only [lineInit] at hl
    all_goals
      first
      | exact key _ _ hl
      | exact absurd hl select_ne_wait
      | exact absurd hl deselect_ne_wait
      | cases hl
  · rename_i l _; cases l <;> cases hl
  · rename_i l _; cases l <;> cases hl
  · rename_i l _; cases l <;> cases hl
  · rename_i l _
    cases l <;> simp only [lineEraseChip] at hl
    all_goals
      first
      | exact key _ _ hl
      | exact absurd hl select_ne_wait
      | exact absurd hl deselect_ne_wait
      | cases hl
  · rename_i l _
    cases l <;> simp only [lineEraseSector] at hl
    all_goals
      first
      | exact key _ _ hl
      | exact absurd hl select_ne_wait
      | exact absurd hl deselect_ne_wait
      | cases hl
  · rename_i l _
    cases l <;> simp only [lineWritePage] at hl
    all_goals
      first
      | exact key _ _ hl
      | exact absurd hl select_ne_wait
      | exact absurd hl deselect_ne_wait
      | cases hl
  · rename_i l _
    cases l <;> simp only [lineBeginRead] at hl
    all_goals
      first
      | exact key _ _ hl
      | exact absurd hl select_ne_wait
      | exact absurd hl deselect_ne_wait
      | cases hl
  · rename_i l _
    cases l <;> simp only [lineReadNext] at hl
    all_goals first | exact key _ _ hl | cases hl
  · rename_i l _
    cases l <;> simp only [lineEndRead] at hl
    all_goals first | exact absurd hl deselect_ne_wait | cases hl
  · rename_i l _
    cases l <;> simp only [lineWait] at hl
    all_goals
      first
      | exact key _ _ hl
      | exact absurd hl select_ne_wait
      | exact absurd hl deselect_ne_wait
      | cases hl
  · rename_i l _
    cases l <;> simp only [lineEnable] at hl
    all_goals
      first
      | exact key _ _ hl
      | exact absurd hl select_ne_wait
      | exact absurd hl deselect_ne_wait
      | cases hl
  · rename_i l _
    cases l <;> simp only [lineDisable] at hl
    all_goals
      first
      | exact key _ _ hl
      | exact absurd hl select_ne_wait
      | exact absurd hl deselect_ne_wait
  · rename_i l _
    rcases l with _ | _ | ⟨_ | ⟨o, left⟩, received⟩ <;> simp only [lineFrame] at hl
    all_goals
      first
      | exact key _ _ hl
      | exact absurd hl select_ne_wait
      | exact absurd hl deselect_ne_wait

/-- No line performs a primitive out of place (R36, R112 to R114). -/
theorem line_ne_stop {s : State} (f : Fault) (h : s.Inv) : line s ≠ .stop f := by
  have hs := h.sel
  unfold line
  split
  all_goals rename_i hp
  · exact fun h => nomatch h
  all_goals rename_i l
  all_goals rw [hp] at hs
  · cases l <;> simp only [lineInit]
    all_goals
      first
      | exact select_ne_stop _ hs
      | exact xfer_ne_stop _ hs
      | exact deselect_ne_stop _ hs
      | exact fun h => nomatch h
  · cases l <;> exact fun h => nomatch h
  · cases l <;> exact fun h => nomatch h
  · cases l <;> exact fun h => nomatch h
  · cases l <;> simp only [lineEraseChip]
    all_goals
      first
      | exact select_ne_stop _ hs
      | exact xfer_ne_stop _ hs
      | exact deselect_ne_stop _ hs
      | exact fun h => nomatch h
  · cases l <;> simp only [lineEraseSector]
    all_goals
      first
      | exact select_ne_stop _ hs
      | exact xfer_ne_stop _ hs
      | exact deselect_ne_stop _ hs
      | exact fun h => nomatch h
  · cases l <;> simp only [lineWritePage]
    all_goals
      first
      | exact select_ne_stop _ hs
      | exact xfer_ne_stop _ hs
      | exact deselect_ne_stop _ hs
      | exact fun h => nomatch h
  · cases l <;> simp only [lineBeginRead]
    all_goals
      first
      | exact select_ne_stop _ hs
      | exact xfer_ne_stop _ hs
      | exact deselect_ne_stop _ hs
      | exact fun h => nomatch h
  · cases l <;> simp only [lineReadNext]
    all_goals first | exact xfer_ne_stop _ hs | exact fun h => nomatch h
  · cases l <;> simp only [lineEndRead]
    all_goals first | exact deselect_ne_stop _ hs | exact fun h => nomatch h
  · cases l <;> simp only [lineWait]
    all_goals
      first
      | exact select_ne_stop _ hs
      | exact xfer_ne_stop _ hs
      | exact deselect_ne_stop _ hs
      | exact fun h => nomatch h
  · cases l <;> simp only [lineEnable]
    all_goals
      first
      | exact select_ne_stop _ hs
      | exact xfer_ne_stop _ hs
      | exact deselect_ne_stop _ hs
      | exact fun h => nomatch h
  · cases l <;> simp only [lineDisable]
    all_goals
      first
      | exact select_ne_stop _ hs
      | exact xfer_ne_stop _ hs
      | exact deselect_ne_stop _ hs
  · rcases l with _ | _ | ⟨_ | ⟨o, left⟩, received⟩ <;> simp only [lineFrame]
    all_goals
      first
      | exact select_ne_stop _ hs
      | exact xfer_ne_stop _ hs
      | exact deselect_ne_stop _ hs

end Sys2Proof.Machine
end

