-- ==== Sys2Proof/Laws/PerInstr.lean ====
section
/-! SUPPORT. Per instruction: its encoding carries its row's bits of spec/opcode_table.json. -/

namespace Sys2Proof.Laws.TableRow

/-- The row of an instruction: the bits that select it, and their mask (30_encoding.md R82, R90). -/
def row : Instr → Word × Word
  | .init _ _ => (0x10000000, 0xF0000000)
  | .waitReady _ _ => (0x20000000, 0xF0000000)
  | .writeEnable _ _ => (0x30000000, 0xF0000000)
  | .writeDisable _ _ => (0x40000000, 0xF0000000)
  | .eraseChip _ _ => (0x50000000, 0xF0000000)
  | .eraseSector _ _ => (0x60000000, 0xF0000000)
  | .writePage _ _ _ => (0x70000000, 0xF0000000)
  | .beginRead _ _ => (0x80000000, 0xF0000000)
  | .readNext _ _ => (0x90000000, 0xF0000000)
  | .endRead _ _ => (0xA0000000, 0xF0000000)
  | .wPageProgram _ _ => (0x02, 0xFF)
  | .wReadData _ _ => (0x03, 0xFF)
  | .wWriteDisable => (0x04, 0xFF)
  | .wReadStatus1 => (0x05, 0xFF)
  | .wWriteEnable => (0x06, 0xFF)
  | .wSectorErase4k _ => (0x20, 0xFF)
  | .wChipErase => (0x60, 0xFF)
  | .wReadIdentification => (0x90, 0xFF)

/-- The first word of what a request carries: a command word, or the opcode byte of a frame. -/
def firstWord : Request → Word
  | .command cw _ => cw
  | .frame bytes => (bytes.headD 0).setWidth 32

/-- The encoded instruction, under its row's mask, is its row's match. -/
def Statement (i : Instr) : Prop := firstWord (encode i) &&& (row i).2 = (row i).1

theorem init (rsv : BitVec 4) (arg : Addr) : Statement (.init rsv arg) :=
  mkCommandWord_op 0x1 rsv arg
theorem waitReady (rsv : BitVec 4) (arg : Addr) : Statement (.waitReady rsv arg) :=
  mkCommandWord_op 0x2 rsv arg
theorem writeEnable (rsv : BitVec 4) (arg : Addr) : Statement (.writeEnable rsv arg) :=
  mkCommandWord_op 0x3 rsv arg
theorem writeDisable (rsv : BitVec 4) (arg : Addr) : Statement (.writeDisable rsv arg) :=
  mkCommandWord_op 0x4 rsv arg
theorem eraseChip (rsv : BitVec 4) (arg : Addr) : Statement (.eraseChip rsv arg) :=
  mkCommandWord_op 0x5 rsv arg
theorem eraseSector (rsv : BitVec 4) (arg : Addr) : Statement (.eraseSector rsv arg) :=
  mkCommandWord_op 0x6 rsv arg
theorem writePage (rsv : BitVec 4) (arg : Addr) (buf : List Byte) : Statement (.writePage rsv arg buf) :=
  mkCommandWord_op 0x7 rsv arg
theorem beginRead (rsv : BitVec 4) (arg : Addr) : Statement (.beginRead rsv arg) :=
  mkCommandWord_op 0x8 rsv arg
theorem readNext (rsv : BitVec 4) (arg : Addr) : Statement (.readNext rsv arg) :=
  mkCommandWord_op 0x9 rsv arg
theorem endRead (rsv : BitVec 4) (arg : Addr) : Statement (.endRead rsv arg) :=
  mkCommandWord_op 0xA rsv arg
theorem wPageProgram (page : BitVec 16) (data : List Byte) : Statement (.wPageProgram page data) :=
  show (Config.opPageProgram.setWidth 32 &&& 0xFF : Word) = 0x02 by decide
theorem wReadData (a : Addr) (n : Nat) : Statement (.wReadData a n) :=
  show (Config.opReadData.setWidth 32 &&& 0xFF : Word) = 0x03 by decide
theorem wWriteDisable : Statement .wWriteDisable :=
  Eq.refl _
theorem wReadStatus1 : Statement .wReadStatus1 :=
  Eq.refl _
theorem wWriteEnable : Statement .wWriteEnable :=
  Eq.refl _
theorem wSectorErase4k (a : Addr) : Statement (.wSectorErase4k a) :=
  show (Config.opSectorErase.setWidth 32 &&& 0xFF : Word) = 0x20 by decide
theorem wChipErase : Statement .wChipErase :=
  Eq.refl _
theorem wReadIdentification : Statement .wReadIdentification :=
  Eq.refl _

end Sys2Proof.Laws.TableRow
end

