-- ==== Sys2Proof/Tests/Slice0.lean ====
section
/-! SUPPORT. The model's own tests, each expected result taken from the tables of
spec/95_test_vectors.md or spec/30_encoding.md, and one witness for the hypotheses of every statement
that has some. -/

namespace Sys2Proof.Tests

open Sys2Proof.Machine Sys2Proof.Claims

/-! ## Helpers -/

/-- The example instance of spec/95_test_vectors.md: T_DEFAULT 100, T_SECTOR 1000, T_CHIP 10000,
T_SETTLE 3. -/
def example95 : Params := { tDefault := 100, tSector := 1000, tChip := 10000, tSettle := 3 }

/-- SEQ idle with a capacity, no session, and an ENV that answers `as`; the clock's next samples come
after `gaps`. -/
def scripted (cap : Word) (gaps : List Nat) (as : List Byte) : State :=
  { State.reset with
    cap := cap, par := example95, clk := { now := 0, gaps := gaps }, env := .script as }

/-- The chip of programs P1 and P5, with a set latch and a count of BUSY answers. -/
def chipP1 (wel : Bool) (busy : BusyCount) : Chip :=
  { Chip.initial Config.chipParams with
    mem := [(0x100, 0xDE), (0x101, 0xAD), (0x102, 0xBE)], wel := wel, busy := busy }

/-- SEQ idle, its capacity known, on a chip. -/
def onChip (c : Chip) : State :=
  { State.reset with
    cap := 0x00800000, par := example95, clk := { now := 0, gaps := [2000, 10, 10] }, env := .chip c }

/-- SEQ in a read session, its read frame open on the chip of P1 (P1 after step 2). -/
def inSession : State :=
  { onChip (chipP1 false (.left 0)) with
    rda := true, sel := true
    env := .chip { chipP1 false (.left 0) with
                   frame := some [0x03, 0x00, 0x01, 0x00], ptr := 0x100 }
    trace := [.select, .xfer 0x03 0xFF, .xfer 0x00 0xFF, .xfer 0x01 0xFF, .xfer 0x00 0xFF] }

/-- SEQ in a read session on an ENV that answers `as`. -/
def scriptedSession (as : List Byte) : State :=
  { scripted 0x00800000 [] as with
    rda := true, sel := true
    trace := [.select, .xfer 0x03 0xFF, .xfer 0x00 0xFF, .xfer 0x01 0xFF, .xfer 0x00 0xFF] }

/-- The buffer of program P2: byte k is k. -/
def bufP2 : List Byte := (List.range 256).map (BitVec.ofNat 8)

/-- Whether an outcome is a next state that meets `p`. -/
def after (o : Host.Outcome State Fault Refusal) (p : State → Bool) : Bool :=
  match o with
  | .next t => p t
  | .fault _ => false
  | .refused _ => false

/-! ## Ill-formed terms are refused (R33, R162) -/

theorem test_wellFormed_refuses_short_page :
    (Instr.writePage 0 0x001234 (List.replicate 255 0)).wellFormed = false := by decide +kernel
theorem test_wellFormed_refuses_long_page :
    (Instr.writePage 0 0x001234 (List.replicate 257 0)).wellFormed = false := by decide +kernel
theorem test_wellFormed_refuses_short_program :
    (Instr.wPageProgram 0x0012 (List.replicate 255 0)).wellFormed = false := by decide +kernel
theorem test_wellFormed_refuses_long_program :
    (Instr.wPageProgram 0x0012 (List.replicate 257 0)).wellFormed = false := by decide +kernel

/-! ## Decoding, word by word (95_test_vectors.md 2.1, 30_encoding.md R83 and R88) -/

theorem test_decode_init : decodeCommand 0x1F123456 [] = .ok (.init 0xF 0x123456) := by decide
theorem test_decode_waitReady : decodeCommand 0x20FFFFFF [] = .ok (.waitReady 0 0xFFFFFF) := by decide
theorem test_decode_writeEnable : decodeCommand 0x30000000 [] = .ok (.writeEnable 0 0) := by decide
theorem test_decode_writeDisable : decodeCommand 0x40000000 [] = .ok (.writeDisable 0 0) := by decide
theorem test_decode_eraseChip : decodeCommand 0x5A5A5A5A [] = .ok (.eraseChip 0xA 0x5A5A5A) := by decide
theorem test_decode_eraseSector : decodeCommand 0x6F001234 [] = .ok (.eraseSector 0xF 0x001234) := by
  decide
theorem test_decode_writePage :
    decodeCommand 0x70001234 (List.replicate 256 0) =
      .ok (.writePage 0 0x001234 (List.replicate 256 0)) := by decide +kernel
theorem test_decode_beginRead : decodeCommand 0x8FFFFFFF [] = .ok (.beginRead 0xF 0xFFFFFF) := by decide
theorem test_decode_readNext : decodeCommand 0x90000000 [] = .ok (.readNext 0 0) := by decide
theorem test_decode_endRead : decodeCommand 0xA0000000 [] = .ok (.endRead 0 0) := by decide
theorem test_decode_wPageProgram :
    decodeFrame (0x02 :: 0x7F :: 0xFF :: 0x00 :: List.replicate 256 0xFF) =
      .ok (.wPageProgram 0x7FFF (List.replicate 256 0xFF)) := by decide +kernel
theorem test_decode_wReadData :
    decodeFrame [0x03, 0x00, 0x01, 0x00, 0x00, 0x00, 0x00] = .ok (.wReadData 0x000100 3) := by decide
theorem test_decode_wWriteDisable : decodeFrame [0x04] = .ok .wWriteDisable := by decide
theorem test_decode_wReadStatus1 : decodeFrame [0x05, 0x00] = .ok .wReadStatus1 := by decide
theorem test_decode_wWriteEnable : decodeFrame [0x06] = .ok .wWriteEnable := by decide
theorem test_decode_wSectorErase4k :
    decodeFrame [0x20, 0x0F, 0xFF, 0xFF] = .ok (.wSectorErase4k 0x0FFFFF) := by decide
theorem test_decode_wChipErase : decodeFrame [0x60] = .ok .wChipErase := by decide
theorem test_decode_wReadIdentification :
    decodeFrame [0x90, 0x00, 0x00, 0x00] = .ok .wReadIdentification := by decide

/-- The illegal codes of 2.1. -/
theorem test_decode_illegal :
    decodeCommand 0x00000000 [] = .error (.illegalCode 0x0) ∧
    decodeCommand 0x0FFFFFFF [] = .error (.illegalCode 0x0) ∧
    decodeCommand 0xB0000000 [] = .error (.illegalCode 0xB) ∧
    decodeCommand 0xFFFFFFFF [] = .error (.illegalCode 0xF) := by decide

/-- A page-program frame with a low address byte other than 0x00 is no frame SEQ sends (R89, R163). -/
theorem test_decode_low_address_byte :
    decodeFrame (0x02 :: 0x00 :: 0x12 :: 0x34 :: List.replicate 256 0) =
      .error (.lowAddressByte 0x34) := by decide +kernel

/-! ## Derived values (95_test_vectors.md 2.2, 2.3) -/

theorem test_inRange :
    inRange 0x000000 0 = false ∧ inRange 0x0FFFFF 0x00100000 = true ∧
    inRange 0x100000 0x00100000 = false ∧ inRange 0xFFFFFF 0x01000000 = true := by decide
theorem test_timedOut :
    timedOut 1000 1100 100 = false ∧ timedOut 1000 1101 100 = true ∧
    timedOut 0xFFFFFFF0 0x00000055 100 = true ∧ timedOut 0xFFFFFFFF 0 100 = false := by decide

/-! ## One command each (95_test_vectors.md 2.4 to 2.10) -/

/-- 2.4, last row: the first received byte is the high byte. -/
theorem test_init_first_byte_high :
    after (exec (.init 0 0) (scripted 5 [] [0xFF, 0x17, 0x40, 0xEF]))
      (fun t => t.ident = 0x1740EF ∧ t.cap = 0 ∧ t.rsp = ⟨true, .ok, 0⟩) = true := by decide
/-- 2.4, the row EF 40 17. -/
theorem test_init_known_chip :
    after (exec (.init 0 0) (scripted 0 [] [0xFF, 0xEF, 0x40, 0x17]))
      (fun t => t.cap = 0x00800000 ∧ t.rsp = ⟨true, .ok, 0x00800000⟩) = true := by decide

/-- 2.5, W4: three polls, and at 1100 the elapsed time 100 is not more than 100. -/
theorem test_waitReady_strict_timeout :
    after (exec (.waitReady 0 100) (scripted 0 [1000, 40, 60, 1] [0, 1, 0, 1, 0, 1]))
      (fun t => t.rsp.st = .fail ∧ t.clk.now = 1101 ∧ t.env = .script []) = true := by decide
/-- 2.5, W8: a ready seen late is still success. -/
theorem test_waitReady_late_ready :
    after (exec (.waitReady 0 100) (scripted 0 [1000, 50] [0, 1, 0, 0]))
      (fun t => t.rsp.st = .ok ∧ t.clk.now = 1050) = true := by decide

/-- 2.6: BUSY set does not matter. -/
theorem test_writeEnable_busy_confirmed :
    after (exec (.writeEnable 0 0) (scripted 0 [] [0xFF, 0xFF, 0x03])) (fun t => t.rsp.st = .ok) = true := by
  decide
/-- 2.6: FD has bit 1 clear. -/
theorem test_writeEnable_not_confirmed :
    after (exec (.writeEnable 0 0) (scripted 0 [] [0xFF, 0xFF, 0xFD])) (fun t => t.rsp.st = .fail) = true := by
  decide

/-- 2.6: one frame, always OK. -/
theorem test_writeDisable :
    after (exec (.writeDisable 0 0) (scripted 0 [] [0xFF]))
      (fun t => t.rsp.st = .ok ∧ t.trace.take 4 =
        [.command 0x40000000, .select, .xfer 0x04 0xFF, .deselect]) = true := by decide

/-- 2.7, C-cap0: no bound check; 9 exchanges. -/
theorem test_eraseChip_without_capacity :
    after (exec (.eraseChip 0 0) (scripted 0 [500, 10] [0, 0x00, 0, 0, 0x02, 0, 0, 0x00, 0]))
      (fun t => t.rsp.st = .ok ∧ t.env = .script []) = true := by decide
/-- 2.7, C-f1: the latch is not set, no `60` and no `04`. -/
theorem test_eraseChip_latch_not_set :
    after (exec (.eraseChip 0 0) (scripted 0 [500] [0, 0x00, 0, 0, 0x00]))
      (fun t => t.rsp.st = .fail ∧ t.xferOut = 0x00 ∧ t.trace.length = 14) = true := by decide

/-- 2.8, S-ok: the low address byte is sent as given. -/
theorem test_eraseSector_sends_address :
    after (exec (.eraseSector 0 0x001234)
        (scripted 0x00800000 [1, 1] [0, 0, 0, 0, 2, 0, 0, 0, 0, 0, 0, 0]))
      (fun t => t.rsp.st = .ok ∧ (t.trace.drop 13).take 6 =
        [.select, .xfer 0x20 0, .xfer 0x00 0, .xfer 0x12 0, .xfer 0x34 0, .deselect]) = true := by decide
/-- 2.8, S-f9: at 3000 the elapsed time 1000 is not more than 1000; no `04`. -/
theorem test_eraseSector_never_finishes :
    after (exec (.eraseSector 0 0x001234)
        (scripted 0x00800000 [1, 1999, 1000, 1] [0, 0, 0, 0, 2, 0, 0, 0, 0, 0, 1, 0, 1]))
      (fun t => t.rsp.st = .fail ∧ t.clk.now = 3001 ∧ t.env = .script []) = true := by decide

/-- 2.9, P-ok: 268 exchanges, the third address byte 0x00. -/
theorem test_writePage_forces_low_byte :
    after (exec (.writePage 0 0x001234 bufP2)
        (scripted 0x00800000 [1, 1] ([0, 0, 0, 0, 2] ++ List.replicate 263 0)))
      (fun t => t.rsp.st = .ok ∧ t.env = .script [] ∧ (t.trace.drop 13).take 7 =
        [.select, .xfer 0x02 0, .xfer 0x00 0, .xfer 0x12 0, .xfer 0x00 0, .xfer 0x00 0, .xfer 0x01 0])
      = true := by decide +kernel
/-- P2, step 3: buffer byte 0x34 lands at 0x001234, and the byte below the page stays. -/
theorem test_writePage_lands_on_page :
    after (exec (.writePage 0 0x001234 bufP2) (onChip (chipP1 false (.left 0))))
      (fun t => t.byteAt 0x001234 = some 0x34 ∧ t.byteAt 0x0011FF = some 0xFF ∧
        t.byteAt 0x000100 = some 0xDE) = true := by decide +kernel

/-- 2.10, B-ok: the chip stays selected. -/
theorem test_beginRead_leaves_frame_open :
    after (exec (.beginRead 0 0x000100) (scripted 0x00800000 [1] [0, 0, 0, 0, 0, 0]))
      (fun t => t.rsp.st = .ok ∧ t.sel ∧ t.rda ∧ (t.trace.drop 6).take 5 =
        [.select, .xfer 0x03 0, .xfer 0x00 0, .xfer 0x01 0, .xfer 0x00 0])
      = true := by decide
/-- 2.10, B-r: an address equal to the capacity is out of range; nothing is sent. -/
theorem test_beginRead_out_of_range :
    after (exec (.beginRead 0 0x800000) (scripted 0x00800000 [] []))
      (fun t => t.rsp.st = .fail ∧ t.sel = false ∧ t.rda = false ∧ t.trace.length = 2) = true := by decide

/-- P1, step 3. -/
theorem test_readNext_first_byte :
    after (exec (.readNext 0 0) inSession) (fun t => t.rsp = ⟨true, .ok, 0xDE⟩) = true := by decide
/-- 2.10, N-no. -/
theorem test_readNext_without_session :
    after (exec (.readNext 0 0) (scripted 0x00800000 [] [])) (fun t => t.rsp.st = .protocol) = true := by
  decide

/-- 2.10, X-ok. -/
theorem test_endRead_closes :
    after (exec (.endRead 0 0) inSession)
      (fun t => t.rsp.st = .ok ∧ t.sel = false ∧ t.rda = false) = true := by decide
/-- 2.10, X-no. -/
theorem test_endRead_without_session :
    after (exec (.endRead 0 0) (scripted 0 [] [])) (fun t => t.rsp.st = .ok ∧ t.trace.length = 2) = true := by
  decide

/-! ## One frame each on the reference chip (20_memory.md R73 to R79) -/

theorem test_wPageProgram_and_of_old_and_new :
    after (exec (.wPageProgram 0x0001 (List.replicate 256 0x0F)) (onChip (chipP1 true (.left 0))))
      (fun t => t.byteAt 0x000100 = some 0x0E ∧ t.byteAt 0x0001FF = some 0x0F ∧
        t.byteAt 0x000200 = some 0xFF) = true := by decide +kernel
theorem test_wReadData_three_bytes :
    after (exec (.wReadData 0x000100 3) (onChip (chipP1 false (.left 0))))
      (fun t => (t.trace.drop 5) =
        [.xfer 0x00 0xDE, .xfer 0x00 0xAD, .xfer 0x00 0xBE, .deselect]) = true := by decide
/-- R77: a page beyond the array is not programmed and no operation begins; the latch stays. -/
theorem test_wPageProgram_beyond_array :
    after (exec (.wPageProgram 0x8000 (List.replicate 256 0x0F)) (onChip (chipP1 true (.left 0))))
      (fun t => t.env = .chip (chipP1 true (.left 0))) = true := by decide +kernel
/-- R188, R207: the doubt about a lost page through an erase and a write that return OK, and the renewal
of the open value by a program frame. -/
theorem test_doubt_after_events :
    doubtAt 5 [⟨0, 256, .eraseOk⟩, ⟨0, 256, .writeLost 0⟩] = .tillWrite 0 ∧
    doubtAt 5 [⟨0, 256, .writeOk⟩, ⟨0, 256, .eraseOk⟩, ⟨0, 256, .writeLost 0⟩] = .none ∧
    doubtAt 5 [⟨0, 256, .eraseOk⟩, ⟨0, 256, .writeOk⟩, ⟨0, 256, .writeLost 0⟩] = .tillWrite 0 ∧
    doubtAt 5 [⟨0, 4096, .eraseOk⟩, ⟨0, 4096, .eraseLost 0⟩] = .none ∧
    doubtAt 5 [⟨0, 256, .changed 1⟩, ⟨0, 256, .writeLost 0⟩] = .tillEraseWrite 1 ∧
    doubtAt 256 [⟨0, 256, .writeLost 0⟩] = .none := by decide
theorem test_wWriteDisable_clears_latch :
    after (exec .wWriteDisable (onChip (chipP1 true (.left 0))))
      (fun t => t.env = .chip (chipP1 false (.left 0))) = true := by decide
theorem test_wReadStatus1_counts_down :
    after (exec .wReadStatus1 (onChip (chipP1 true (.left 2)))) (fun t => t.sr = 0x03) = true := by decide
theorem test_wWriteEnable_sets_latch :
    after (exec .wWriteEnable (onChip (chipP1 false (.left 0))))
      (fun t => t.env = .chip (chipP1 true (.left 0))) = true := by decide
theorem test_wSectorErase4k_erases_sector :
    after (exec (.wSectorErase4k 0x000FFF) (onChip (chipP1 true (.left 0))))
      (fun t => t.byteAt 0x000100 = some 0xFF ∧ t.byteAt 0x000102 = some 0xFF) = true := by decide
/-- A clear latch: nothing is erased (R76). -/
theorem test_wSectorErase4k_without_latch :
    after (exec (.wSectorErase4k 0x000FFF) (onChip (chipP1 false (.left 0))))
      (fun t => t.byteAt 0x000100 = some 0xDE) = true := by decide
theorem test_wChipErase_erases_all :
    after (exec .wChipErase (onChip (chipP1 true (.left 0))))
      (fun t => t.byteAt 0x000101 = some 0xFF) = true := by decide
theorem test_wReadIdentification_reads_identifier :
    after (exec .wReadIdentification (onChip (chipP1 false (.left 0))))
      (fun t => t.ident = 0xEF4017) = true := by decide

/-! ## The port, reset and the stops -/

/-- 2.12, the second row: reset at P8 with 100 bytes sent; no response, the chip-select is released. -/
theorem test_reset_in_page_write :
    after (step { scripted 0x00800000 [] [] with
        ph := .writePage .p8, cnt := 100, sel := true, rstIn := [true] })
      (fun t => t.cap = 0 ∧ t.rda = false ∧ t.sel = false ∧ t.ph = .idle ∧ t.trace = [.reset]) = true := by
  decide
/-- 2.11: an illegal code with a session open leaves it as it was. -/
theorem test_illegal_in_session :
    after (step { inSession with host := [.command 0xC0000000 []] })
      (fun t => t.rsp.st = .illegal ∧ t.rda ∧ t.sel) = true := by decide
/-- R69: with no answer SEQ stays at its label, presenting the byte. -/
theorem test_command_waits_for_answer :
    after (exec (.init 0 0) (scripted 0 [] [0xFF, 0xEF]))
      (fun t => t.ph = .init .i3 ∧ t.xferStart ∧ t.rsp.valid = false) = true := by decide
/-- R124: no run is over at reset, nor with commands still presented. -/
theorem test_final :
    State.reset.final = false ∧
    after (exec (.endRead 0 0) (scripted 0 [] [])) (fun t => t.final) = true ∧
    after (exec (.endRead 0 0) { scripted 0 [] [] with host := [.command 0xA0000000 []] })
      (fun t => !t.final) = true := by decide
/-- R69: so does a frame run by itself, with no answer after the opcode's. -/
theorem test_frame_waits_for_answer :
    after (exec .wReadStatus1 (scripted 0 [] [0xFF]))
      (fun t => t.waiting ∧ t.xferStart ∧ t.sel ∧ t.trace = [.select, .xfer 0x05 0xFF]) = true := by decide
/-- R27: the next step goes on from that label. -/
theorem test_command_goes_on :
    after (step { scripted 0 [] [0x40, 0x17] with
        ph := .init .i3, sel := true, ident := 0xEF0000, trace := [.select, .xfer 0x90 0, .xfer 0 0xEF] })
      (fun t => t.ph = .idle ∧ t.cap = 0x00800000) = true := by decide

/-! ## Witnesses: the hypotheses of each statement can be met together -/

/-- A next state that meets a test is a next state. -/
theorem after_next {o : Host.Outcome State Fault Refusal} {p : State → Bool} (h : after o p = true) :
    ∃ t, o = .next t ∧ p t = true := by
  cases o with
  | next t => exact ⟨t, rfl, h⟩
  | fault f => cases h
  | refused r => cases h

/-- A wait that has an outcome which meets a test has an outcome. -/
theorem wait_some {o : Option WaitRun} {p : WaitRun → Bool} (h : o.map p = some true) :
    ∃ w, o = some w ∧ p w = true := Option.map_eq_some_iff.mp h

/-- The states the witnesses are about meet the invariant. -/
theorem scripted_inv (gaps : List Nat) (as : List Byte) : (scripted 0x00800000 gaps as).Inv :=
  ⟨rfl, rfl, rfl, rfl, rfl⟩
theorem inSession_inv : inSession.Inv := ⟨rfl, by decide, by decide, by decide, by decide⟩
theorem onChip_inv : (onChip (chipP1 false (.left 0))).Inv :=
  ⟨rfl, by decide, by decide, by decide, by decide⟩

theorem witness_DecodeEncodeAgree : (Instr.writePage 0xF 0x001234 bufP2).wellFormed = true := by
  decide +kernel
theorem witness_EncodeDecodeAgree :
    decodeCommand 0x70001234 bufP2 = .ok (.writePage 0 0x001234 bufP2) ∧ cwOp 0x70001234 = 0x7 ∧
    decodeFrame [0x06] = .ok .wWriteEnable := by decide +kernel
theorem witness_WorkedCommandWords : bufP2.length = 256 := by decide +kernel
theorem witness_IdentifierGivesCapacity :
    (0xEF4013 : BitVec 24) ≠ 0xEF4014 ∧ (0xEF4013 : BitVec 24) ≠ 0xEF4015 ∧
    (0xEF4013 : BitVec 24) ≠ 0xEF4016 ∧ (0xEF4013 : BitVec 24) ≠ 0xEF4017 ∧
    (0xEF4013 : BitVec 24) ≠ 0xEF4018 := by decide
theorem witness_ElapsedIsModularDifference :
    0xFFFFFFF0 ≤ 0x100000010 ∧ 0x100000010 - 0xFFFFFFF0 < 2 ^ 32 ∧ 1 ≤ 2 ^ 32 ∧
    2 ^ 32 - 1 < 2 ^ 32 := by decide

theorem witness_ResetBeatsEverything :
    rstNow { scripted 0 [] [] with ph := .writePage .p8, rstIn := [true] } = true ∧
    ({ scripted 0 [] [] with ph := .writePage .p8, rstIn := [true] } : State).ph ≠ .idle ∧
    rstNow (takeReset { scripted 0 [] [] with ph := .writePage .p8, rstIn := [true] }) = false := by decide
theorem witness_ResetBetweenCommandsKeepsFlash :
    ({ inSession with rstIn := [true] } : State).Inv ∧ ({ inSession with rstIn := [true] } : State).ph = .idle ∧
    rstNow { inSession with rstIn := [true] } = true ∧
    step { inSession with rstIn := [true] } = .next (takeReset { inSession with rstIn := [true] }) :=
  ⟨⟨rfl, by decide, by decide, by decide, by decide⟩, rfl, rfl, rfl⟩
theorem witness_ResetBetweenCommandsKeepsFlash_released :
    ({ onChip (chipP1 false (.left 0)) with rstIn := [true] } : State).Inv ∧
    ({ onChip (chipP1 false (.left 0)) with rstIn := [true] } : State).ph = .idle ∧
    rstNow { onChip (chipP1 false (.left 0)) with rstIn := [true] } = true ∧
    ({ onChip (chipP1 false (.left 0)) with rstIn := [true] } : State).sel = false :=
  ⟨⟨rfl, by decide, by decide, by decide, by decide⟩, rfl, rfl, rfl⟩
theorem witness_StepRunsDecodedInstruction :
    rstNow { inSession with host := [.command 0xA0000000 []] } = false ∧
    ({ inSession with host := [.command 0xA0000000 []] } : State).ph = .idle ∧
    decode (.command 0xA0000000 []) = .ok (.endRead 0 0) := by decide
theorem witness_IdleStepChangesNothing :
    rstNow inSession = false ∧ inSession.ph = .idle ∧ inSession.host = [] := by decide
/-- INIT waiting at I3 with another command presented. -/
def waitingInit : State :=
  { scripted 0 [] [] with
    ph := .init .i3, sel := true, host := [.command 0xA0000000 []]
    trace := [.select, .xfer 0x90 0, .xfer 0 0xEF] }
theorem witness_PresentedCommandWaits :
    (waitingInit.ph ≠ .idle ∧ ∃ t, step waitingInit = .next t) ∧
    (Instr.wellFormed (.endRead 0 0) = true) :=
  ⟨⟨by decide, (after_next (p := fun _ => true) (by decide)).imp fun _ h => h.1⟩, rfl⟩

/-- Each case of the dispatcher at its boundary codes. -/
theorem witness_DispatcherTestsInOrder :
    let presents (s : State) (cw : Word) : State := { s with host := [.command cw bufP2] }
    (∀ cw ∈ [0x0FFFFFFF, 0xB0000000, 0xF0000000, 0x10000000, 0x80000000, 0x90000000, 0xA0000000, 0x70000000],
      (presents inSession cw).ready ∧ (presents (scripted 0 [] []) cw).ready) ∧
    bufP2.length = 256 ∧ inSession.rda = true ∧ (scripted 0 [] []).rda = false ∧
    cwOp 0x0FFFFFFF = 0x0 ∧ cwOp 0xB0000000 = 0xB ∧ cwOp 0x80000000 = 0x8 ∧ cwOp 0x90000000 = 0x9 ∧
    cwOp 0xA0000000 = 0xA ∧ cwOp 0x10000000 = 0x1 ∧ cwOp 0x70000000 = 0x7 :=
  ⟨fun _ _ => ⟨⟨rfl, rfl⟩, ⟨rfl, rfl⟩⟩, by decide +kernel, rfl, rfl, by decide, by decide, by decide,
    by decide, by decide, by decide, by decide⟩
theorem witness_IllegalCodeAnsweredIllegal :
    ({ inSession with host := [.command 0x00000000 []] } : State).ready ∧ cwOp 0x00000000 = 0x0 ∧
    cwOp 0xB0000000 = 0xB ∧ cwOp 0xFFFFFFFF = 0xF := ⟨⟨rfl, rfl⟩, by decide, by decide, by decide⟩
theorem witness_SessionGuardAnswersProtocol :
    inSession.ready ∧ inSession.rda = true ∧ (scripted 0 [] []).ready ∧ (scripted 0 [] []).rda = false :=
  ⟨⟨rfl, rfl⟩, rfl, ⟨rfl, rfl⟩, rfl⟩

/-- What every command statement asks of the state: ready, no session, released. -/
def idleReleased (s : State) : Prop := s.ready ∧ s.rda = false ∧ s.sel = false
theorem scripted_idle (cap : Word) (gaps : List Nat) (as : List Byte) : idleReleased (scripted cap gaps as) :=
  ⟨⟨rfl, rfl⟩, rfl, rfl⟩
theorem onChip_idle (c : Chip) : idleReleased (onChip c) := ⟨⟨rfl, rfl⟩, rfl, rfl⟩

theorem witness_InitSetsCapacity :
    inSession.ready ∧ inSession.rda = true ∧ idleReleased (scripted 0 [] [0xFF, 0xEF, 0x40, 0x17]) ∧
    (scripted 0 [] [0xFF, 0xEF, 0x40, 0x17]).env.frame [0x90, 0x00, 0x00, 0x00] =
      some ([0xFF, 0xEF, 0x40, 0x17], .script []) := ⟨⟨rfl, rfl⟩, rfl, scripted_idle .., rfl⟩
/-- Two polls; bits 7 to 1 of the status byte do not matter. -/
theorem witness_WaitReadySucceeds :
    idleReleased (scripted 0 [5000, 7] [0, 0x01, 0, 0xFE]) ∧
    ∃ w, waitRun (BitVec.setWidth 32 (10 : Addr)) 2 { now := 0, gaps := [5000, 7] } (.script [0, 0x01, 0, 0xFE]) =
        some w ∧ decide (w.ok = true ∧ w.sr = 0xFE) = true := ⟨scripted_idle .., wait_some (by decide)⟩
/-- W5: a timeout of 0, and a sample that differs by 1. -/
theorem witness_WaitReadyTimesOut :
    idleReleased (scripted 0 [5000, 1] [0, 0x01]) ∧
    ∃ w, waitRun (BitVec.setWidth 32 (0 : Addr)) 1 { now := 0, gaps := [5000, 1] } (.script [0, 0x01]) =
        some w ∧ decide (w.ok = false) = true := ⟨scripted_idle .., wait_some (by decide)⟩
theorem witness_WaitReadyResultMeaning :
    idleReleased (scripted 0 [] [0, 0]) ∧
    ∃ t, exec (.waitReady 0 100) (scripted 0 [1] [0, 0]) = .next t ∧ decide (t.ph = .idle) = true :=
  ⟨scripted_idle .., after_next (by decide)⟩
theorem witness_WaitReadyResultMeaning_fail :
    ∃ t, exec (.waitReady 0 0) (scripted 0 [1, 1] [0, 1]) = .next t ∧
      decide (t.ph = .idle ∧ t.rsp.st = .fail) = true := after_next (by decide)
theorem witness_WriteEnableReflectsReread :
    idleReleased (scripted 0 [] [0, 0, 0x02]) ∧
    (scripted 0 [] [0, 0, 0x02]).env.frame [0x06] = some ([0], .script [0, 0x02]) ∧
    (Env.script [0, 0x02]).frame [0x05, 0x00] = some ([0, 0x02], .script []) ∧
    (Env.script [0, 0x01]).frame [0x05, 0x00] = some ([0, 0x01], .script []) :=
  ⟨scripted_idle .., rfl, rfl, rfl⟩
theorem witness_WriteDisableSendsOneFrame :
    idleReleased (scripted 0 [] [0]) ∧ (scripted 0 [] [0]).env.frame [0x04] = some ([0], .script []) :=
  ⟨scripted_idle .., rfl⟩
/-- Two polls in the closing wait. -/
theorem witness_EraseChipSucceeds :
    idleReleased (scripted 0 [1, 1, 1] [0, 0, 0, 0, 2, 0, 0, 1, 0, 0, 0]) ∧
    (∃ w, waitRun example95.tDefault 2 { now := 0, gaps := [1, 1, 1] } (.script [0, 0, 0, 0, 2, 0, 0, 1, 0, 0, 0]) =
        some w ∧ decide (w.ok = true ∧ w.clk = ⟨1, [1, 1]⟩ ∧ w.env = .script [0, 0, 2, 0, 0, 1, 0, 0, 0]) = true) ∧
    (Env.script [0, 0, 2, 0, 0, 1, 0, 0, 0]).frame [0x06] = some ([0], .script [0, 2, 0, 0, 1, 0, 0, 0]) ∧
    (Env.script [0, 2, 0, 0, 1, 0, 0, 0]).frame [0x05, 0x00] = some ([0, 2], .script [0, 0, 1, 0, 0, 0]) ∧
    BitVec.getLsbD (2 : Byte) 1 = true ∧
    (Env.script [0, 0, 1, 0, 0, 0]).frame [0x60] = some ([0], .script [0, 1, 0, 0, 0]) ∧
    (∃ w, waitRun example95.tChip 2 ⟨1, [1, 1]⟩ (.script [0, 1, 0, 0, 0]) =
        some w ∧ decide (w.ok = true ∧ w.env = .script [0]) = true) ∧
    (Env.script [0]).frame [0x04] = some ([0], .script []) :=
  ⟨scripted_idle .., wait_some (by decide), rfl, rfl, by decide, rfl, wait_some (by decide), rfl⟩
/-- The last address of the chip; two polls in the opening wait. -/
theorem witness_EraseSectorSucceeds :
    idleReleased (scripted 0x00100000 [1, 1, 1] [0, 1, 0, 0, 0, 0, 2, 0, 0, 0, 0, 0, 0, 0]) ∧
    BitVec.toNat (0x0FFFFF : Addr) < (scripted 0x00100000 [] []).cap.toNat ∧
    (∃ w, waitRun example95.tDefault 2 { now := 0, gaps := [1, 1, 1] }
          (.script [0, 1, 0, 0, 0, 0, 2, 0, 0, 0, 0, 0, 0, 0]) = some w ∧
        decide (w.ok = true ∧ w.clk = ⟨2, [1]⟩ ∧ w.env = .script [0, 0, 2, 0, 0, 0, 0, 0, 0, 0]) = true) ∧
    (Env.script [0, 0, 2, 0, 0, 0, 0, 0, 0, 0]).frame [0x06] = some ([0], .script [0, 2, 0, 0, 0, 0, 0, 0, 0]) ∧
    (Env.script [0, 2, 0, 0, 0, 0, 0, 0, 0]).frame [0x05, 0x00] = some ([0, 2], .script [0, 0, 0, 0, 0, 0, 0]) ∧
    (Env.script [0, 0, 0, 0, 0, 0, 0]).frame
      [0x20, addrHigh 0x0FFFFF, addrMid 0x0FFFFF, addrLow 0x0FFFFF] = some ([0, 0, 0, 0], .script [0, 0, 0]) ∧
    (∃ w, waitRun example95.tSector 2 ⟨2, [1]⟩ (.script [0, 0, 0]) = some w ∧
        decide (w.ok = true ∧ w.env = .script [0]) = true) ∧
    (Env.script [0]).frame [0x04] = some ([0], .script []) :=
  ⟨scripted_idle .., by decide, wait_some (by decide), rfl, rfl, rfl, wait_some (by decide), rfl⟩
theorem witness_WritePageSucceeds :
    idleReleased (scripted 0x00800000 [1, 1] ([0, 0, 0, 0, 2] ++ List.replicate 263 0)) ∧
    BitVec.toNat (0x7FFFFF : Addr) < (scripted 0x00800000 [] []).cap.toNat ∧ bufP2.length = 256 ∧
    (∃ w, waitRun example95.tDefault 1 ⟨0, [1, 1]⟩ (.script ([0, 0, 0, 0, 2] ++ List.replicate 263 0)) = some w ∧
        decide (w.ok = true ∧ w.clk = ⟨1, [1]⟩ ∧ w.env = .script ([0, 0, 2] ++ List.replicate 263 0)) = true) ∧
    (Env.script ([0, 0, 2] ++ List.replicate 263 0)).frame [0x06] =
      some ([0], .script ([0, 2] ++ List.replicate 263 0)) ∧
    (Env.script ([0, 2] ++ List.replicate 263 0)).frame [0x05, 0x00] =
      some ([0, 2], .script (List.replicate 263 0)) ∧
    (Env.script (List.replicate 263 0)).frame
      (0x02 :: addrHigh 0x7FFFFF :: addrMid 0x7FFFFF :: 0x00 :: bufP2) =
      some (List.replicate 260 0, .script [0, 0, 0]) ∧
    (∃ w, waitRun example95.tDefault 1 (settled example95.tSettle ⟨1, [1]⟩) (.script [0, 0, 0]) = some w ∧
        decide (w.ok = true ∧ w.env = .script [0]) = true) ∧
    (Env.script [0]).frame [0x04] = some ([0], .script []) :=
  ⟨scripted_idle .., by decide, by decide +kernel, wait_some (by decide +kernel), by decide +kernel,
    by decide +kernel, by decide +kernel, wait_some (by decide), rfl⟩
theorem witness_BeginReadOpensSession :
    idleReleased (scripted 0x01000000 [1] [0, 0, 0, 0, 0, 0]) ∧
    BitVec.toNat (0xFFFFFF : Addr) < (scripted 0x01000000 [] []).cap.toNat ∧
    (∃ w, waitRun example95.tDefault 1 ⟨0, [1]⟩ (.script [0, 0, 0, 0, 0, 0]) = some w ∧
        decide (w.ok = true ∧ w.env = .script [0, 0, 0, 0]) = true) ∧
    (Env.script [0, 0, 0, 0]).openFrame [0x03, addrHigh 0xFFFFFF, addrMid 0xFFFFFF, addrLow 0xFFFFFF] =
      some ([0, 0, 0, 0], .script []) := ⟨scripted_idle .., by decide, wait_some (by decide), rfl⟩
theorem witness_ReadNextReturnsByte :
    (scriptedSession [0xDE]).ready ∧ (scriptedSession [0xDE]).rda = true ∧
    (scriptedSession [0xDE]).sel = true ∧
    (scriptedSession [0xDE]).env.exchange 0x00 = some (0xDE, .script []) := ⟨⟨rfl, rfl⟩, rfl, rfl, rfl⟩
theorem witness_EndReadClosesSession :
    (scriptedSession []).ready ∧ (scriptedSession []).rda = true ∧ (scriptedSession []).sel = true ∧
    (scripted 0 [] []).ready ∧ (scripted 0 [] []).rda = false := ⟨⟨rfl, rfl⟩, rfl, rfl, ⟨rfl, rfl⟩, rfl⟩

theorem witness_OutOfRangeFailsWithoutBus :
    idleReleased (scripted 0x00100000 [] []) ∧
    (scripted 0x00100000 [] []).cap.toNat ≤ BitVec.toNat (0x100000 : Addr) := ⟨scripted_idle .., by decide⟩
/-- P-f1: 101 ms against T_DEFAULT = 100, at the second poll; ERASE_CHIP with CAP = 0, the others with an
address in range. -/
theorem witness_OpeningWaitTimesOut :
    idleReleased (scripted 0 [0, 100, 1] [0, 1, 0, 1]) ∧
    idleReleased (scripted 0x00800000 [0, 100, 1] [0, 1, 0, 1]) ∧
    BitVec.toNat (0x001234 : Addr) < (scripted 0x00800000 [] []).cap.toNat ∧
    ∃ w, waitRun example95.tDefault 2 ⟨0, [0, 100, 1]⟩ (.script [0, 1, 0, 1]) = some w ∧
      decide (w.ok = false) = true :=
  ⟨scripted_idle .., scripted_idle .., by decide, wait_some (by decide)⟩
/-- S-f2: the re-read 01 has bit 1 clear; ERASE_CHIP with CAP = 0, the others with an address in range. -/
theorem witness_LatchNotConfirmedFails :
    idleReleased (scripted 0 [1] [0, 0, 0, 0, 1]) ∧ idleReleased (scripted 0x00800000 [1] [0, 0, 0, 0, 1]) ∧
    BitVec.toNat (0x001234 : Addr) < (scripted 0x00800000 [] []).cap.toNat ∧
    (∃ w, waitRun example95.tDefault 1 ⟨0, [1]⟩ (.script [0, 0, 0, 0, 1]) = some w ∧
        decide (w.ok = true ∧ w.env = .script [0, 0, 1]) = true) ∧
    (Env.script [0, 0, 1]).frame [0x06] = some ([0], .script [0, 1]) ∧
    (Env.script [0, 1]).frame [0x05, 0x00] = some ([0, 1], .script []) ∧
    BitVec.getLsbD (1 : Byte) 1 = false :=
  ⟨scripted_idle .., scripted_idle .., by decide, wait_some (by decide), rfl, rfl, by decide⟩
/-- The three closing waits, each with BUSY set to the end: C-f5 with CAP = 0, S-f9, P-f11. -/
theorem witness_ClosingWaitTimesOut :
    idleReleased (scripted 0 [1] [0, 0, 0, 0, 2]) ∧
    BitVec.toNat (0x001234 : Addr) < (scripted 0x00800000 [] []).cap.toNat ∧ bufP2.length = 256 ∧
    (∃ w, waitRun example95.tDefault 1 ⟨0, [1, 1999, 10001]⟩ (.script ([0, 0, 0, 0, 2] ++ List.replicate 260 0 ++ [0, 1])) =
        some w ∧ decide (w.ok = true ∧ w.clk = ⟨1, [1999, 10001]⟩ ∧
          w.env = .script ([0, 0, 2] ++ List.replicate 260 0 ++ [0, 1])) = true) ∧
    (Env.script [0, 0, 2]).frame [0x06] = some ([0], .script [0, 2]) ∧
    (Env.script [0, 2]).frame [0x05, 0x00] = some ([0, 2], .script []) ∧
    (Env.script [0, 0, 1]).frame [0x60] = some ([0], .script [0, 1]) ∧
    (Env.script [0, 0, 0, 0, 0, 1]).frame
      [0x20, addrHigh 0x001234, addrMid 0x001234, addrLow 0x001234] = some ([0, 0, 0, 0], .script [0, 1]) ∧
    (Env.script (List.replicate 260 0 ++ [0, 1])).frame
      (0x02 :: addrHigh 0x001234 :: addrMid 0x001234 :: 0x00 :: bufP2) =
      some (List.replicate 260 0, .script [0, 1]) ∧
    (∃ w, waitRun example95.tChip 1 ⟨1, [1999, 10001]⟩ (.script [0, 1]) = some w ∧ decide (w.ok = false) = true) ∧
    (∃ w, waitRun example95.tSector 1 ⟨1, [1999, 10001]⟩ (.script [0, 1]) = some w ∧ decide (w.ok = false) = true) ∧
    (∃ w, waitRun example95.tDefault 1 (settled example95.tSettle ⟨1, [1999, 10001]⟩) (.script [0, 1]) = some w ∧
      decide (w.ok = false) = true) :=
  ⟨scripted_idle .., by decide, by decide +kernel, wait_some (by decide +kernel), rfl, rfl, rfl, rfl,
    by decide +kernel, wait_some (by decide), wait_some (by decide), wait_some (by decide)⟩

theorem witness_OpcodeOnlyRowsSendOneByte :
    (scripted 0 [] [7]).ready ∧ (scripted 0 [] [7]).sel = false ∧
    (Env.script [7]).frame [0x04] = some ([7], .script []) ∧
    (Env.script [7]).frame [0x06] = some ([7], .script []) ∧
    (Env.script [7]).frame [0x60] = some ([7], .script []) := ⟨⟨rfl, rfl⟩, rfl, rfl, rfl, rfl⟩
theorem witness_ReceivingRowsKeepBytes :
    (scripted 0 [] [7, 8, 9, 10]).ready ∧ (scripted 0 [] [7, 8, 9, 10]).sel = false ∧
    (Env.script [7, 8, 9, 10]).frame [0x05, 0x00] = some ([7, 8], .script [9, 10]) ∧
    (Env.script [7, 8, 9, 10]).frame [0x90, 0x00, 0x00, 0x00] = some ([7, 8, 9, 10], .script []) :=
  ⟨⟨rfl, rfl⟩, rfl, rfl, rfl⟩
theorem witness_AddressedRowsSendLayout :
    (scripted 0 [] (List.replicate 260 0)).ready ∧ (scripted 0 [] (List.replicate 260 0)).sel = false ∧
    (Env.script (List.replicate 4 0)).frame [0x20, addrHigh 0xFFFFFF, addrMid 0xFFFFFF, addrLow 0xFFFFFF] =
      some (List.replicate 4 0, .script []) ∧
    bufP2.length = 256 ∧
    (Env.script (List.replicate 260 0)).frame
      (0x02 :: BitVec.extractLsb' 8 8 (0x1234 : BitVec 16) :: BitVec.extractLsb' 0 8 (0x1234 : BitVec 16) ::
        0x00 :: bufP2) = some (List.replicate 260 0, .script []) ∧
    (Env.script (List.replicate 4 0)).frame
      (0x03 :: addrHigh 1 :: addrMid 1 :: addrLow 1 :: List.replicate 0 0x00) =
      some (List.replicate 4 0, .script []) ∧
    (Env.script (List.replicate 7 0)).frame
      (0x03 :: addrHigh 1 :: addrMid 1 :: addrLow 1 :: List.replicate 3 0x00) =
      some (List.replicate 7 0, .script []) := ⟨⟨rfl, rfl⟩, rfl, by decide +kernel⟩
/-- A chip erase in a session; an identification frame of which three bytes are answered, and then one. -/
theorem witness_FrameStopsOrWaits :
    inSession.ready ∧ inSession.sel = true ∧ Instr.wellFormed .wChipErase = true ∧
    encode .wChipErase = .frame [0x60] ∧
    (scripted 0 [] [9, 8, 7]).ready ∧ (scripted 0 [] [9, 8, 7]).sel = false ∧
    (scripted 0 [] [9, 8, 7]).env = .script [9, 8, 7] ∧ Instr.wellFormed .wReadIdentification = true ∧
    encode .wReadIdentification = .frame [0x90, 0, 0, 0] ∧ [9, 8, 7].length + [6].length = [0x90, 0, 0, 0].length :=
  ⟨⟨rfl, rfl⟩, rfl, rfl, rfl, ⟨rfl, rfl⟩, rfl, rfl, rfl, rfl, rfl⟩

theorem witness_StatusRowReportsBusyAndLatch :
    idleReleased (onChip (chipP1 true .inf)) ∧ (onChip (chipP1 true .inf)).env = .chip (chipP1 true .inf) :=
  ⟨onChip_idle _, rfl⟩
theorem witness_LatchRowsSetAndClearLatch :
    idleReleased (onChip (chipP1 true (.left 0))) ∧
    (onChip (chipP1 true (.left 0))).env = .chip (chipP1 true (.left 0)) := ⟨onChip_idle _, rfl⟩
/-- The chip of P1 whose page at 0x001200 a write has lost, and its sector 0x005000 an erase. -/
def lostPage (wel : Bool) : Chip :=
  ((chipP1 wel (.left 0)).forget (.page 0x0012AB)).forget (.sector 0x005678)
/-- The last sector of the chip, and a page of the second one that a write has lost. -/
theorem witness_SectorEraseRowErasesSector :
    idleReleased (onChip (lostPage true)) ∧ isBusy (lostPage true).busy = false ∧ (lostPage true).wel = true ∧
    BitVec.toNat (0x7FFFFF : Addr) / 4096 * 4096 < chipBytes (lostPage true).par.size ∧
    BitVec.toNat (0x001234 : Addr) / 4096 * 4096 < chipBytes (lostPage true).par.size ∧
    (lostPage true).doubt 0x7FFFFF = .none ∧ (lostPage true).doubt 0x001234 ≠ .none :=
  ⟨onChip_idle _, by decide⟩
theorem witness_ChipEraseRowErasesChip :
    idleReleased (onChip (lostPage true)) ∧ isBusy (lostPage true).busy = false ∧ (lostPage true).wel = true ∧
    (lostPage true).doubt 0 = .none ∧ (lostPage true).doubt 0x001200 ≠ .none ∧
    (lostPage true).doubt 0x0012FF ≠ .none ∧ (lostPage true).doubt 0x001300 = .none :=
  ⟨onChip_idle _, by decide⟩
theorem witness_PageProgramRowProgramsPage :
    idleReleased (onChip (lostPage true)) ∧ isBusy (lostPage true).busy = false ∧ (lostPage true).wel = true ∧
    Memory.wf (lostPage true).mem = true ∧ bufP2.length = 256 ∧
    BitVec.toNat (0x7FFF : BitVec 16) * 256 < chipBytes (lostPage true).par.size ∧
    (lostPage true).doubt 0x7FFF00 = .none ∧ (lostPage true).doubt 0x001234 ≠ .none :=
  ⟨onChip_idle _, by decide +kernel⟩
theorem witness_IdentificationRowReadsIdentifier :
    idleReleased (onChip (chipP1 true (.left 0))) ∧ isBusy (chipP1 true (.left 0)).busy = false :=
  ⟨onChip_idle _, by decide⟩
theorem witness_BusyChipRejectsFrames :
    idleReleased (onChip (chipP1 true (.left 1))) ∧ isBusy (chipP1 true (.left 1)).busy = true ∧
    Instr.wellFormed .wChipErase = true ∧ isHostCommand .wChipErase = false ∧
    Instr.wChipErase ≠ .wReadStatus1 := ⟨onChip_idle _, by decide⟩
/-- The last two bytes of the chip, and none past them. -/
theorem witness_ReadRowYieldsContents :
    idleReleased (onChip (chipP1 true (.left 0))) ∧ isBusy (chipP1 true (.left 0)).busy = false ∧
    BitVec.toNat (0x7FFFFE : Addr) + 2 ≤ chipBytes (chipP1 true (.left 0)).par.size :=
  ⟨onChip_idle _, by decide⟩

theorem chipP1_ready : readyChip (chipP1 false (.left 0)) := by
  exact ⟨rfl, rfl, by decide, rfl⟩
/-- A session that ends at the last byte of the chip. -/
theorem witness_ReadSessionYieldsContents :
    idleReleased (onChip (chipP1 false (.left 0))) ∧ readyChip (chipP1 false (.left 0)) ∧
    BitVec.toNat (0x7FFFFE : Addr) < (onChip (chipP1 false (.left 0))).cap.toNat ∧
    BitVec.toNat (0x7FFFFE : Addr) + 2 ≤ chipBytes (chipP1 false (.left 0)).par.size :=
  ⟨onChip_idle _, chipP1_ready, by decide, by decide⟩
/-- The chip of P1 with a count of BUSY answers after each operation. -/
def busyAfter (k : BusyCount) : Chip :=
  { chipP1 false (.left 0) with
    par := { (chipP1 false (.left 0)).par with kp := k, ks := k, kc := k } }
theorem busyAfter_ready (k : BusyCount) : readyChip (busyAfter k) :=
  ⟨rfl, rfl, chipP1_ready.2.2.1, rfl⟩
theorem endsInTime_two {tmo : Word} {clk : Clock}
    (h : ((Clock.advance^[1] clk.advance).value - clk.advance.value).toNat ≤ tmo.toNat ∧
      ((Clock.advance^[2] clk.advance).value - clk.advance.value).toNat ≤ tmo.toNat) :
    endsInTime (.left 2) tmo clk := by
  refine ⟨2, by decide, rfl, fun j hj => ?_⟩
  match j, hj with
  | 0, _ => simp
  | 1, _ => exact h.1
  | 2, _ => exact h.2

/-- The last address of the chip, an erase that answers BUSY twice, 10 ms and 1000 ms after T0; and the
two erases do come back OK. -/
theorem witness_EraseCommandsEraseTheirRegion :
    let s := { onChip (busyAfter (.left 2)) with clk := ⟨0, [2000, 1, 10, 990]⟩ }
    idleReleased s ∧ readyChip (busyAfter (.left 2)) ∧
    BitVec.toNat (0x7FFFFF : Addr) < s.cap.toNat ∧
    BitVec.toNat (0x7FFFFF : Addr) < chipBytes (busyAfter (.left 2)).par.size ∧
    endsInTime (busyAfter (.left 2)).par.ks s.par.tSector s.clk.advance ∧
    endsInTime (busyAfter (.left 2)).par.kc s.par.tChip s.clk.advance ∧
    (∃ t, exec (.eraseSector 0 0x7FFFFF) s = .next t ∧ decide (t.ph = .idle ∧ t.rsp.st = .ok) = true) ∧
    ∃ t, exec (.eraseChip 0 0) s = .next t ∧ decide (t.ph = .idle ∧ t.rsp.st = .ok) = true :=
  ⟨⟨⟨rfl, rfl⟩, rfl, rfl⟩, busyAfter_ready _, by decide, by decide, endsInTime_two (by decide),
    endsInTime_two (by decide), after_next (by decide +kernel), after_next (by decide +kernel)⟩
/-- A byte in doubt of each kind, before an erase that returns OK. -/
theorem witness_EraseCommandsEraseTheirRegion_doubt :
    idleReleased (onChip (lostPage false)) ∧ readyChip (lostPage false) ∧
    lostByWrite ((lostPage false).doubt 0x001234) = true ∧ lostByWrite ((lostPage false).doubt 0x005000) = false ∧
    (lostPage false).doubt 0x005000 ≠ .none ∧
    (∃ t, exec (.eraseSector 0 0x001234) (onChip (lostPage false)) = .next t ∧
      decide (t.ph = .idle ∧ t.rsp.st = .ok) = true) ∧
    ∃ t, exec (.eraseSector 0 0x005000) (onChip (lostPage false)) = .next t ∧
      decide (t.ph = .idle ∧ t.rsp.st = .ok) = true :=
  ⟨onChip_idle _, ⟨rfl, rfl, by decide, rfl⟩, by decide, by decide, by decide, after_next (by decide +kernel),
    after_next (by decide +kernel)⟩
theorem witness_WritePageProgramsContainingPage :
    let s := { onChip (busyAfter (.left 2)) with clk := ⟨0, [2000, 1, 10, 90]⟩ }
    idleReleased s ∧ readyChip (busyAfter (.left 2)) ∧ bufP2.length = 256 ∧
    BitVec.toNat (0x0001FF : Addr) < s.cap.toNat ∧
    BitVec.toNat (0x0001FF : Addr) < chipBytes (busyAfter (.left 2)).par.size ∧
    (busyAfter (.left 2)).doubt 0x000100 = .none ∧
    endsInTime (busyAfter (.left 2)).par.kp s.par.tDefault (settled s.par.tSettle s.clk.advance) ∧
    ∃ t, exec (.writePage 0 0x0001FF bufP2) s = .next t ∧ decide (t.ph = .idle ∧ t.rsp.st = .ok) = true :=
  ⟨⟨⟨rfl, rfl⟩, rfl, rfl⟩, busyAfter_ready _, by decide +kernel, by decide, by decide, rfl,
    endsInTime_two (by decide), after_next (by decide +kernel)⟩
/-- A lost page: written with no erase before, and erased and then written, each with OK (R207). -/
theorem witness_WritePageProgramsContainingPage_lost :
    idleReleased (onChip (lostPage false)) ∧ (lostPage false).doubt 0x001234 = .tillEraseWrite 0 ∧
    (∃ t, exec (.writePage 0 0x001234 bufP2) (onChip (lostPage false)) = .next t ∧
      decide (t.ph = .idle ∧ t.rsp.st = .ok) = true) ∧
    ∃ t, exec (.eraseSector 0 0x001234) { onChip (lostPage false) with clk := ⟨0, [1, 1, 1, 1]⟩ } = .next t ∧
      after (exec (.writePage 0 0x001234 bufP2) t) (fun u => t.ph = .idle ∧ t.rsp.st = .ok ∧
        u.ph = .idle ∧ u.rsp.st = .ok ∧ u.byteAt 0x001234 = some 0x34) = true :=
  ⟨onChip_idle _, by decide, after_next (by decide +kernel), after_next (by decide +kernel)⟩
theorem witness_ReadOnlyCommandsKeepFlash :
    inSession.Inv ∧ inSession.rstIn = [] ∧ isReadOnly (.readNext 0 0) = true ∧
    ∃ t, exec (.readNext 0 0) inSession = .next t ∧ t.rsp.valid = true :=
  ⟨inSession_inv, rfl, rfl, after_next (by decide)⟩
theorem witness_StoresStayInTheirRegion :
    (onChip (chipP1 false (.left 0))).Inv ∧ (onChip (chipP1 false (.left 0))).ready ∧
    (∃ t, exec (.eraseSector 0 0x000FFF) (onChip (chipP1 false (.left 0))) = .next t ∧ t.rsp.valid = true) ∧
    ∃ t, exec (.writePage 0 0x0001FF bufP2) (onChip (chipP1 false (.left 0))) = .next t ∧ t.rsp.valid = true :=
  ⟨onChip_inv, ⟨rfl, rfl⟩, after_next (by decide +kernel), after_next (by decide +kernel)⟩

/-- One instruction for each clause of the register frame. -/
theorem witness_RegistersWrittenOnlyByTheirCommands :
    (∃ t, exec (.readNext 0 0) inSession = .next t ∧ decide (t.cap = inSession.cap) = true) ∧
    (∃ t, exec (.writeEnable 0 0) (scripted 0 [] [0, 0, 2]) = .next t ∧ t.rsp.valid = true) ∧
    ∃ t, exec .wReadStatus1 (scripted 0 [] [0, 2]) = .next t ∧ decide (t.sr = 2) = true :=
  ⟨after_next (by decide), after_next (by decide), after_next (by decide)⟩
theorem witness_ParametersAndTraceArePreserved :
    ∃ t, exec (.writeEnable 0 0) (scripted 0 [] [0, 0, 2]) = .next t ∧ t.rsp.valid = true :=
  after_next (by decide)
theorem witness_OneResponsePerCommand :
    (scripted 0 [] [0, 0, 2]).ready ∧ (scripted 0 [] [0, 0, 2]).host = [] ∧ isHostCommand (.writeEnable 0 0) = true ∧
    ∃ t, exec (.writeEnable 0 0) (scripted 0 [] [0, 0, 2]) = .next t ∧ decide (t.ph = .idle) = true :=
  ⟨⟨rfl, rfl⟩, rfl, rfl, after_next (by decide)⟩
theorem witness_StepKeepsInvariant :
    ({ inSession with host := [.command 0x90000000 []] } : State).Inv ∧
    ∃ t, step { inSession with host := [.command 0x90000000 []] } = .next t ∧ t.rsp.valid = true :=
  ⟨⟨rfl, by decide, by decide, by decide, by decide⟩, after_next (by decide)⟩
/-- The invariant also holds in the middle of a command. -/
theorem witness_StepKeepsInvariant_midway : waitingInit.Inv ∧ ∃ t, step waitingInit = .next t ∧ t.sel = true :=
  ⟨⟨rfl, by decide, by decide, by decide, by decide⟩, after_next (by decide)⟩
theorem witness_CommandsNeverStop : inSession.Inv ∧ isHostCommand (.endRead 0 0) = true :=
  ⟨inSession_inv, rfl⟩
theorem witness_EraseNeedsConfirmedEnable :
    (onChip (chipP1 false (.left 0))).Inv ∧ (onChip (chipP1 false (.left 0))).ph = .idle ∧
    guarded (onChip (chipP1 false (.left 0))).trace = true ∧ isHostCommand (.eraseChip 0 0) = true ∧
    ∃ t, exec (.eraseChip 0 0) (onChip (chipP1 false (.left 0))) = .next t ∧
      decide (Event.xfer 0x60 0xFF ∈ t.trace) = true :=
  ⟨onChip_inv, rfl, rfl, rfl, after_next (by decide +kernel)⟩
/-- ERASE_CHIP that waits for ENV at C3, its enable confirmed, and is resumed. -/
def waitingErase : State :=
  { scripted 0 [1] [0] with
    ph := .eraseChip .c3, sel := true, op := 0x5, sr := 2
    trace := [.select, .xfer 0x06 0, .deselect, .select, .xfer 0x05 0, .xfer 0x00 2, .deselect, .select] }
theorem witness_EraseNeedsConfirmedEnable_resumed :
    waitingErase.Inv ∧ waitingErase.GuardInv ∧ (∀ r ∈ waitingErase.host, isCommandRequest r = true) ∧
    ∃ t, step waitingErase = .next t ∧ decide (Event.xfer 0x60 0 ∈ t.trace) = true :=
  ⟨⟨rfl, rfl, by decide, rfl, rfl⟩, ⟨{ grant := .confirmed, cur := [] }, by decide, by decide⟩,
    (fun _ h => nomatch h), after_next (by decide)⟩
/-- A chip that stays BUSY, and an ENV that stops answering. -/
theorem witness_CommandsComeToResponse :
    (onChip (chipP1 false .inf)).Inv ∧ (onChip (chipP1 false .inf)).ready ∧
    isHostCommand (.eraseChip 0 0) = true ∧ (onChip (chipP1 false .inf)).clockBounded ∧
    (onChip (chipP1 false .inf)).env.alwaysAnswers ∧
    (scripted 0x00800000 [] [0]).Inv ∧ (scripted 0x00800000 [] [0]).ready ∧
    (scripted 0x00800000 [] [0]).clockBounded :=
  ⟨⟨rfl, by decide, by decide, by decide, by decide⟩, ⟨rfl, rfl⟩, rfl,
    ⟨by decide, by decide, by decide, by decide⟩, chip_alwaysAnswers _,
    scripted_inv .., ⟨rfl, rfl⟩, ⟨by decide, by decide, by decide, by decide⟩⟩
/-- A reset at P8, with two bytes of the page sent. -/
theorem witness_ResetInCommandForgetsRegion :
    let s := { onChip (chipP1 false (.left 0)) with rstIn := List.replicate 30 false ++ [true] }
    s.Inv ∧ s.ph = .idle ∧ rstNow s = false ∧ s.env = .chip (chipP1 false (.left 0)) ∧
    isHostCommand (.writePage 0 0x001234 bufP2) = true ∧
    (∃ t, exec (.writePage 0 0x001234 bufP2) s = .next t ∧
      decide (t.ph = .idle ∧ t.rsp.valid = false ∧ t.trace.getLast? = some .reset) = true) ∧
    inRegion 0x800000 (commandRegion (.writePage 0 0x001234 bufP2)) 0x0012FF ∧
    ¬inRegion 0x800000 (commandRegion (.writePage 0 0x001234 bufP2)) 0x001300 :=
  ⟨⟨rfl, by decide, by decide, by decide, by decide⟩, rfl, rfl, rfl, rfl, after_next (by decide +kernel),
    ⟨_, rfl, by decide, by decide⟩, by rintro ⟨g, hg, -, h⟩; cases hg; revert h; decide⟩


end Sys2Proof.Tests
end

section
/-! SUPPORT. The three bytes of an address as numbers and as fields of it (spec/00_scope.md R11). -/

namespace Sys2Proof

@[simp] theorem addrHigh_toNat (a : Addr) : (addrHigh a).toNat = a.toNat / 65536 := by
  have hbits : (addrHigh a).toNat = a.toNat / 65536 % 256 := by
    simp [addrHigh, Nat.shiftRight_eq_div_pow]
  have hlt : a.toNat < 2 ^ 24 := a.isLt
  omega

@[simp] theorem addrMid_toNat (a : Addr) : (addrMid a).toNat = a.toNat / 256 % 256 := by
  simp [addrMid, Nat.shiftRight_eq_div_pow]

@[simp] theorem addrLow_toNat (a : Addr) : (addrLow a).toNat = a.toNat % 256 := by
  simp [addrLow]

/-- Each append joins two neighbouring fields of the address, and the last one is all 24 bits. -/
@[simp] theorem addrHigh_append_addrMid_append_addrLow (a : Addr) :
    (addrHigh a ++ addrMid a ++ addrLow a : BitVec 24) = a := by
  have hupper : addrHigh a ++ addrMid a = a.extractLsb' 8 16 :=
    BitVec.extractLsb'_append_extractLsb'_eq_extractLsb' rfl
  calc (addrHigh a ++ addrMid a ++ addrLow a : BitVec 24)
      = a.extractLsb' 8 16 ++ a.extractLsb' 0 8 := by rw [hupper, addrLow]
    _ = a.extractLsb' 0 24 := BitVec.extractLsb'_append_extractLsb'_eq_extractLsb' rfl
    _ = a := BitVec.extractLsb'_eq_self

theorem encode_wSectorErase4k (a : Addr) :
    encode (.wSectorErase4k a) = .frame [0x20, addrHigh a, addrMid a, addrLow a] := rfl

theorem encode_wReadData (a : Addr) (n : Nat) :
    encode (.wReadData a n) =
      .frame (0x03 :: addrHigh a :: addrMid a :: addrLow a :: List.replicate n 0x00) := rfl

/-- Settles O8: the three bytes are the three adjacent fields of the address, and both encodings list
them high to low. -/
theorem addressBytesSplitAddress : Obligations.AddressBytesSplitAddress := fun a =>
  ⟨addrHigh_toNat a, addrMid_toNat a, addrLow_toNat a, addrHigh_append_addrMid_append_addrLow a,
    encode_wSectorErase4k a, encode_wReadData a⟩

end Sys2Proof
end

section
/-! SUPPORT. Elapsed time and the timeout test as facts about numbers (spec/00_scope.md R13). -/

namespace Sys2Proof.Machine

theorem elapsed_toNat (t0 t : Word) :
    (elapsed t0 t).toNat = (t.toNat + 2 ^ 32 - t0.toNat) % 2 ^ 32 := by
  have hlt : t0.toNat < 2 ^ 32 := t0.isLt
  rw [elapsed, BitVec.toNat_sub', Nat.add_sub_assoc hlt.le]

/-- The counter may wrap between the two samples: modulo 2^32 a wrap adds nothing to the difference. -/
theorem elapsed_ofNat_toNat {m n : Nat} (hle : m ≤ n) (hlt : n - m < 2 ^ 32) :
    (elapsed (BitVec.ofNat 32 m) (BitVec.ofNat 32 n)).toNat = n - m := by
  rw [elapsed_toNat, BitVec.toNat_ofNat, BitVec.toNat_ofNat]
  omega

theorem timedOut_iff_toNat (t0 t tmo : Word) :
    timedOut t0 t tmo = true ↔ (elapsed t0 t).toNat > tmo.toNat :=
  BitVec.ult_iff_toNat_lt

/-- Settles O7: subtraction of words is subtraction modulo 2^32, which is exact for a difference below
2^32, and the timeout test is the unsigned order of words. -/
theorem elapsedIsModularDifference : Obligations.ElapsedIsModularDifference :=
  ⟨elapsed_toNat, fun _ _ => elapsed_ofNat_toNat, timedOut_iff_toNat⟩

end Sys2Proof.Machine
end

section
/-! SUPPORT. The chip-select line and the reset values (spec/10_state.md R22, R35). -/

namespace Sys2Proof.Machine

/-- The chip-select output is active low: it is 1 exactly when SEL is 0 (R22, R32). -/
theorem csN_eq_true_iff (s : State) : csN s = true ↔ s.sel = false := by
  simp [csN]

@[simp] theorem reset_sel : State.reset.sel = false := rfl

/-- Settles O9: each register R35 names is a field of the reset state at its value, and `cs_n` follows
from SEL. -/
theorem resetStateOfRegisters : Obligations.ResetStateOfRegisters :=
  ⟨rfl, rfl, reset_sel, rfl, rfl, rfl, (csN_eq_true_iff State.reset).2 reset_sel⟩

end Sys2Proof.Machine
end

section
/-! SUPPORT. The capacity table, an equation per row and one for every other identification value
(spec/30_encoding.md R94). -/

namespace Sys2Proof.Machine

@[simp] theorem capOf_EF4014 : capOf 0xEF4014 = 0x00100000 := rfl
@[simp] theorem capOf_EF4015 : capOf 0xEF4015 = 0x00200000 := rfl
@[simp] theorem capOf_EF4016 : capOf 0xEF4016 = 0x00400000 := rfl
@[simp] theorem capOf_EF4017 : capOf 0xEF4017 = 0x00800000 := rfl
@[simp] theorem capOf_EF4018 : capOf 0xEF4018 = 0x01000000 := rfl

/-- No partial match: a value that differs from each of the five in any bit has no capacity. -/
theorem capOf_eq_zero {id : BitVec 24} (h4 : id ≠ 0xEF4014) (h5 : id ≠ 0xEF4015)
    (h6 : id ≠ 0xEF4016) (h7 : id ≠ 0xEF4017) (h8 : id ≠ 0xEF4018) : capOf id = 0 := by
  rw [capOf, if_neg h4, if_neg h5, if_neg h6, if_neg h7, if_neg h8]

theorem capOf_EF4017_toNat : (capOf 0xEF4017).toNat = 8 * 1024 * 1024 := by
  rw [capOf_EF4017]; rfl

/-- Settles O5: the five identifiers are the rows of the table, and any other value fails every test
of the match. -/
theorem identifierGivesCapacity : Obligations.IdentifierGivesCapacity :=
  ⟨capOf_EF4014, capOf_EF4015, capOf_EF4016, capOf_EF4017, capOf_EF4018, capOf_EF4017_toNat,
    fun _ => capOf_eq_zero⟩

end Sys2Proof.Machine
end

section
/-! SUPPORT. A presented command word, accepted and put through the dispatcher's three tests
(spec/40_sequencer_core.md R105 to R109, spec/30_encoding.md R95). -/

namespace Sys2Proof.Machine

open Sys2Proof.Claims

/-! ## The fields of a command word -/

/-- A command word is its three fields and nothing else (R80). -/
@[simp] theorem mkCommandWord_fields (cw : Word) : mkCommandWord (cwOp cw) (cwRsv cw) (cwArg cw) = cw := by
  have hupper : cwOp cw ++ cwRsv cw = cw.extractLsb' 24 8 :=
    BitVec.extractLsb'_append_extractLsb'_eq_extractLsb' rfl
  calc mkCommandWord (cwOp cw) (cwRsv cw) (cwArg cw)
      = cw.extractLsb' 24 8 ++ cw.extractLsb' 0 24 := by rw [mkCommandWord, hupper, cwArg]
    _ = cw.extractLsb' 0 32 := BitVec.extractLsb'_append_extractLsb'_eq_extractLsb' rfl
    _ = cw := BitVec.extractLsb'_eq_self

/-- The codes that select no command are those below 1 and above 0xA (R95). -/
theorem illegal_op_iff (op : BitVec 4) :
    (op = 0x0 ∨ 0xB ≤ op) ↔
      (op = 0x0 ∨ op = 0xB ∨ op = 0xC ∨ op = 0xD ∨ op = 0xE ∨ op = 0xF) := by
  revert op; decide

/-- The codes of the ten commands, WRITE_PAGE first because it alone has a buffer (R82). -/
theorem legal_op_cases (op : BitVec 4) (h : ¬(op = 0x0 ∨ 0xB ≤ op)) :
    op = 0x7 ∨ op = 0x1 ∨ op = 0x2 ∨ op = 0x3 ∨ op = 0x4 ∨ op = 0x5 ∨ op = 0x6 ∨ op = 0x8 ∨
      op = 0x9 ∨ op = 0xA := by
  revert op; decide

theorem decodeCommand_illegal {cw : Word} (buf : List Byte) (h : cwOp cw = 0x0 ∨ 0xB ≤ cwOp cw) :
    decodeCommand cw buf = .error (.illegalCode (cwOp cw)) := by
  rcases (illegal_op_iff _).mp h with h | h | h | h | h | h <;> simp [decodeCommand, h]

/-! ## The session guard -/

/-- The guard refuses a session command other than READ_NEXT and END_READ, and READ_NEXT without a
session (R108). -/
theorem admits_eq_false_iff {op : BitVec 4} {rda : Bool} :
    admits op rda = false ↔ (rda = true ∧ op ≠ 0x9 ∧ op ≠ 0xA) ∨ (rda = false ∧ op = 0x9) := by
  cases rda <;> simp [admits]

theorem admits_other_of_session {op : BitVec 4} {rda : Bool} (h : rda = true) (h9 : op ≠ 0x9)
    (hA : op ≠ 0xA) : admits op rda = false :=
  admits_eq_false_iff.mpr (.inl ⟨h, h9, hA⟩)

theorem admits_other_of_noSession {op : BitVec 4} {rda : Bool} (h : rda = false) (h9 : op ≠ 0x9) :
    admits op rda = true := by
  simpa [admits, h] using h9

/-- A command the guard refuses is answered PROTOCOL at once (R106, R108). -/
theorem issue_refused {s : State} {cw : Word} (first : Phase) (h : s.ready)
    (hg : admits (cwOp cw) s.rda = false) : issue cw first s = .next (respondAny .protocol (accept cw s)) := by
  rw [issue_ready cw first h, dispatch_refused first (by simpa using hg), run_idle _ rfl]

/-- A command the guard admits runs from its first label (R106, R109). -/
theorem issue_admitted {s : State} {cw : Word} (first : Phase) (h : s.ready)
    (hg : admits (cwOp cw) s.rda = true) :
    issue cw first s = run (budget s) (goto first (accept cw s)) := by
  rw [issue_ready cw first h, dispatch_admitted first (by simpa using hg)]

theorem accept_ready {s : State} (code rsv : BitVec 4) (arg : Addr) (h : s.ready) :
    accept (mkCommandWord code rsv arg) s =
      { s with
        op := code, arg := arg, rsp := { s.rsp with valid := false }
        trace := s.trace ++ [.command (mkCommandWord code rsv arg)] } := by
  simp [accept, h.2]

/-- A refused command leaves the latches, the response and the two events of the trace. -/
theorem issue_answeredProtocol {s : State} {code : BitVec 4} (rsv : BitVec 4) (arg : Addr)
    (first : Phase) (h : s.ready) (hg : admits code s.rda = false) :
    issue (mkCommandWord code rsv arg) first s = .next (answeredProtocol code rsv arg s) := by
  rw [issue_refused first h (by simpa using hg), accept_ready code rsv arg h]
  simp [respondAny, respond, answeredProtocol, h.1]

/-- The state in which an admitted command stands at its first label. -/
def commandBegun (code rsv : BitVec 4) (arg : Addr) (first : Phase) (s : State) : State :=
  { s with
    op := code, arg := arg, rsp := { s.rsp with valid := false }, ph := first
    trace := s.trace ++ [.command (mkCommandWord code rsv arg)] }

theorem issue_commandBegun {s : State} {code : BitVec 4} (rsv : BitVec 4) (arg : Addr)
    (first : Phase) (h : s.ready) (hg : admits code s.rda = true) :
    issue (mkCommandWord code rsv arg) first s =
      run (budget s) (commandBegun code rsv arg first s) := by
  rw [issue_admitted first h (by simpa using hg), accept_ready code rsv arg h]
  rfl

/-! ## A word at the port -/

theorem step_presented {s : State} {r : Request} {rest : List Request} (h : s.ready)
    (hh : s.host = r :: rest) {i : Instr} (hd : decode r = .ok i) :
    step s = exec i { s with host := rest } := by
  simp [step, rstNow_quiet h.2, h.1, hh, hd]

theorem issueIllegal_ready {s : State} (cw : Word) (h : s.ready) :
    issueIllegal cw s = .next (respondAny .illegal (accept cw s)) := by
  rw [issueIllegal, if_pos (cmdReady_of_ready h)]

/-- A word that selects no command is accepted and answered ILLEGAL, whatever buffer stands beside it
(R95, R107). -/
theorem step_illegal {s : State} {cw : Word} {buf : List Byte} {rest : List Request} (h : s.ready)
    (hh : s.host = .command cw buf :: rest) (hop : cwOp cw = 0x0 ∨ 0xB ≤ cwOp cw) :
    step s = .next (respondAny .illegal (accept cw { s with host := rest })) := by
  obtain ⟨hidle, hrst⟩ := h
  rw [step, if_neg (by simp [rstNow_quiet hrst]), if_pos hidle, hh]
  simp only [decode, decodeCommand_illegal buf hop]
  exact issueIllegal_ready cw ⟨hidle, hrst⟩

/-- The first label of the command with this code (R109). -/
def firstLabel (op : BitVec 4) : Phase :=
  if op = 0x1 then .init .i0
  else if op = 0x2 then .waitReady .q0
  else if op = 0x3 then .writeEnable .e0
  else if op = 0x4 then .writeDisable .f0
  else if op = 0x5 then .eraseChip .c0
  else if op = 0x6 then .eraseSector .s0
  else if op = 0x7 then .writePage .p0
  else if op = 0x8 then .beginRead .b0
  else if op = 0x9 then .readNext .n0
  else .endRead .x0

/-- The page data port once the command with this code is accepted: WRITE_PAGE brings its buffer (R33). -/
def pagePresented (op : BitVec 4) (buf : List Byte) (s : State) : List Byte :=
  if op = 0x7 then buf else s.page

/-- The ten arms of `decodeCommand` and `exec`, said once: a legal word is issued with its own first label. -/
theorem decodeCommand_legal {cw : Word} {buf : List Byte} (hbuf : buf.length = 256)
    (hop : ¬(cwOp cw = 0x0 ∨ 0xB ≤ cwOp cw)) :
    ∃ i, decodeCommand cw buf = .ok i ∧ ∀ s : State, s.ready →
      exec i s = issue cw (firstLabel (cwOp cw)) { s with page := pagePresented (cwOp cw) buf s } := by
  have hword := mkCommandWord_fields cw
  rcases legal_op_cases _ hop with h | h | h | h | h | h | h | h | h | h <;> rw [h] at hword ⊢
  · refine ⟨.writePage (cwRsv cw) (cwArg cw) buf, by simp [decodeCommand, h, hbuf, Config.pageSize],
      fun s hs => ?_⟩
    conv_rhs => rw [← hword]
    exact if_pos (cmdReady_of_ready hs)
  all_goals
    refine ⟨_, by simp only [decodeCommand, h]; rfl, fun s _ => ?_⟩
    conv_rhs => rw [← hword]
    rfl

/-- A legal word at the port is issued with the first label of its command (R105, R109). -/
theorem step_legal {s : State} {cw : Word} {buf : List Byte} {rest : List Request} (h : s.ready)
    (hh : s.host = .command cw buf :: rest) (hbuf : buf.length = 256)
    (hop : ¬(cwOp cw = 0x0 ∨ 0xB ≤ cwOp cw)) :
    step s = issue cw (firstLabel (cwOp cw))
      { s with host := rest, page := pagePresented (cwOp cw) buf s } := by
  obtain ⟨i, hdecode, hexec⟩ := decodeCommand_legal hbuf hop
  rw [step_presented h hh hdecode]
  exact hexec { s with host := rest } h

/-- Settles O16: the six codes are those outside 1 to 0xA, and such a word is answered at once. -/
theorem illegalCodeAnsweredIllegal : Obligations.IllegalCodeAnsweredIllegal := by
  intro s cw buf rest h hh hcode
  rw [step_illegal h hh ((illegal_op_iff _).mpr hcode)]
  obtain ⟨hidle, hrst⟩ := h
  simp [respondAny, respond, accept, hidle, hrst]

/-- Settles O15: the code decides between `step_illegal` and `step_legal`, and the session guard between
`issue_refused` and `issue_admitted`. -/
theorem dispatcherTestsInOrder : Obligations.DispatcherTestsInOrder := by
  intro s cw buf rest h hh hbuf a
  have hop : a.op = cwOp cw := rfl
  refine ⟨rfl, rfl, rfl, ?_⟩
  rw [hop]
  by_cases hcode : cwOp cw = 0x0 ∨ 0xB ≤ cwOp cw
  · rw [if_pos hcode]
    exact step_illegal h hh hcode
  rw [if_neg hcode, step_legal h hh hbuf hcode]
  have hready : State.ready { s with host := rest, page := pagePresented (cwOp cw) buf s } := h
  have hpage : cwOp cw ≠ 0x7 → pagePresented (cwOp cw) buf s = s.page := fun hne => if_neg hne
  by_cases hsession : s.rda = true ∧ cwOp cw ≠ 0x9 ∧ cwOp cw ≠ 0xA
  · rw [if_pos hsession]
    exact ⟨_, issue_refused _ hready (admits_eq_false_iff.mpr (.inl hsession)), hpage⟩
  rw [if_neg hsession]
  by_cases hnone : s.rda = false ∧ cwOp cw = 0x9
  · have hkept : pagePresented (cwOp cw) buf s = s.page := hpage (by rw [hnone.2]; decide)
    rw [if_pos hnone, issue_refused _ hready (admits_eq_false_iff.mpr (.inr hnone)), hkept]
  rw [if_neg hnone]
  have hguard : admits (cwOp cw) s.rda = true := by
    rw [← Bool.not_eq_false]
    exact fun hrefused => (admits_eq_false_iff.mp hrefused).elim hsession hnone
  exact ⟨_, hpage, fun hwrite => if_pos hwrite, issue_admitted _ hready hguard⟩

end Sys2Proof.Machine
end

section
/-! SUPPORT. The commands without a wait, run from their first label to their response: INIT (spec/41_init.md
R130), WRITE_ENABLE and WRITE_DISABLE (spec/43_write_enable.md R149, R150), READ_NEXT (spec/46_read.md R169). -/

namespace Sys2Proof.Machine

open Sys2Proof.Claims

/-! ## A labelled line within a run -/

/-- With no reset to come, a run takes the line at PH and goes on. -/
theorem run_line {s t : State} (n : Nat) (hp : s.ph ≠ .idle) (hr : s.rstIn = []) (hl : line s = .go t) :
    run (n + 1) s = run n t :=
  run_go n hp ((tick_quiet hr).trans hl)

/-- The line that responds ends the run. -/
theorem run_respond {s t : State} (n : Nat) (hp : s.ph ≠ .idle) (hr : s.rstIn = []) (hl : line s = .go t)
    (ht : t.ph = .idle) : run (n + 1) s = .next t :=
  (run_line n hp hr hl).trans (run_idle n ht)

/-- An admitted command has more lines to run than any command without a wait needs. -/
theorem issue_runs {s : State} (code rsv : BitVec 4) (arg : Addr) (first : Phase)
    (h : s.ready) (hg : admits code s.rda = true) :
    ∃ n, issue (mkCommandWord code rsv arg) first s = run (n + 10) (commandBegun code rsv arg first s) := by
  have hbudget : budget s = budget s - 10 + 10 := by unfold budget; omega
  exact ⟨budget s - 10, (issue_commandBegun rsv arg first h hg).trans (by rw [← hbudget])⟩

/-- The first of the received bytes answers the first exchange. -/
theorem Env.exchanges_cons_cons {o i : Byte} {os is : List Byte} {e e' : Env} :
    e.exchanges (o :: os) = some (i :: is, e') ↔
      ∃ e1, e.exchange o = some (i, e1) ∧ e1.exchanges os = some (is, e') := by
  rw [Env.exchanges_cons]
  constructor
  · rintro ⟨j, js, e1, hx, ho, heq⟩
    cases heq
    exact ⟨e1, hx, ho⟩
  · rintro ⟨e1, hx, ho⟩
    exact ⟨i, is, e1, hx, ho, rfl⟩

/-! ## WRITE_DISABLE -/

theorem exec_writeDisable (rsv : BitVec 4) (arg : Addr) (s : State) :
    exec (.writeDisable rsv arg) s = issue (mkCommandWord 0x4 rsv arg) (.writeDisable .f0) s := rfl

/-- F0, the procedure WriteDisable, F1 (R150). -/
theorem run_writeDisable {s : State} {x : Byte} {e : Env} (n : Nat) (hp : s.ph = .writeDisable .f0)
    (hr : s.rstIn = []) (hs : s.sel = false) (hf : s.env.frame [Config.opWriteDisable] = some ([x], e)) :
    run (n + 5) s = .next (respondAny .ok (afterDisableFrame .f0 x e s)) :=
  calc run (n + 5) s
      = run (n + 4) (goto (.inDisable .f0 .u0) s) :=
        run_line (n + 4) (by simp [hp]) hr (by simp only [line, hp, lineWriteDisable])
    _ = run (n + 1) (afterDisableFrame .f0 x e s) := run_disable (n + 1) rfl hr hs hf
    _ = _ := run_respond n (by simp [afterDisableFrame, afterDisable]) hr rfl rfl

/-- Settles O24: outside a session the run is the procedure WriteDisable between two lines of its own. -/
theorem writeDisableSendsOneFrame : Obligations.WriteDisableSendsOneFrame := by
  intro s rsv arg h
  refine ⟨fun hrda =>
    issue_answeredProtocol rsv arg _ h (admits_other_of_session hrda (by decide) (by decide)), ?_⟩
  intro x e hrda hs hf
  obtain ⟨n, hn⟩ :=
    issue_runs 0x4 rsv arg (.writeDisable .f0) h (admits_other_of_noSession hrda (by decide))
  rw [exec_writeDisable, hn]
  refine (run_writeDisable (s := commandBegun 0x4 rsv arg (.writeDisable .f0) s) (n + 5) rfl h.2 hs hf).trans ?_
  simp [commandBegun, afterDisableFrame, respondAny, respond, disableEvents, Config.opWriteDisable, h.1]

/-! ## WRITE_ENABLE -/

theorem exec_writeEnable (rsv : BitVec 4) (arg : Addr) (s : State) :
    exec (.writeEnable rsv arg) s = issue (mkCommandWord 0x3 rsv arg) (.writeEnable .e0) s := rfl

/-- E1 answers with RES (R149). -/
theorem line_writeEnable_e1 {s : State} (hp : s.ph = .writeEnable .e1) :
    line s = .go (respondAny (if s.res then .ok else .fail) s) := by
  simp only [line, hp, lineWriteEnable]
  cases s.res <;> rfl

/-- E0, the procedure WriteEnable, E1 (R149). -/
theorem run_writeEnable {s : State} {x y sr : Byte} {e e' : Env} (n : Nat) (hp : s.ph = .writeEnable .e0)
    (hr : s.rstIn = []) (hs : s.sel = false) (hf : s.env.frame [Config.opWriteEnable] = some ([x], e))
    (hf' : e.frame [Config.opReadStatus, Config.dummy] = some ([y, sr], e')) :
    run (n + 10) s = .next (respondAny (if writeEnabledBit sr then .ok else .fail)
      (returnEnable .e0 (writeEnabledBit sr) (afterEnable .e0 x y sr e' s))) :=
  calc run (n + 10) s
      = run (n + 9) (goto (.inEnable .e0 .v0) s) :=
        run_line (n + 9) (by simp [hp]) hr (by simp only [line, hp, lineWriteEnable])
    _ = run (n + 1) (returnEnable .e0 (writeEnabledBit sr) (afterEnable .e0 x y sr e' s)) :=
        run_enable (n + 1) rfl hr hs hf hf'
    _ = _ := run_respond n (by simp [returnEnable]) hr (line_writeEnable_e1 rfl) rfl

/-- Settles O23: outside a session the run is the procedure WriteEnable, whose result E1 answers with. -/
theorem writeEnableReflectsReread : Obligations.WriteEnableReflectsReread := by
  intro s rsv arg h
  refine ⟨fun hrda =>
    issue_answeredProtocol rsv arg _ h (admits_other_of_session hrda (by decide) (by decide)), ?_⟩
  intro x y sr e e' hrda hs hf hf' st
  obtain ⟨n, hn⟩ := issue_runs 0x3 rsv arg (.writeEnable .e0) h (admits_other_of_noSession hrda (by decide))
  rw [exec_writeEnable, hn]
  refine (run_writeEnable (s := commandBegun 0x3 rsv arg (.writeEnable .e0) s) n rfl h.2 hs hf hf').trans ?_
  simp [st, commandBegun, returnEnable, goto, afterEnable, respondAny, respond, enableEvents, writeEnabledBit,
    Config.dummy, h.1]

/-! ## READ_NEXT -/

theorem exec_readNext (rsv : BitVec 4) (arg : Addr) (s : State) :
    exec (.readNext rsv arg) s = issue (mkCommandWord 0x9 rsv arg) (.readNext .n0) s := rfl

/-- The state after the exchange of N0, with N1 to come. -/
def afterReadExchange (b : Byte) (e : Env) (s : State) : State :=
  { s with
    env := e, xferStart := false, xferOut := Config.dummy, rsp := { s.rsp with val := b.setWidth 32 }
    ph := .readNext .n1, trace := s.trace ++ [.xfer Config.dummy b] }

/-- N0, N1: one exchange, answered with its byte (R169). -/
theorem run_readNext {s : State} {b : Byte} {e : Env} (n : Nat) (hp : s.ph = .readNext .n0)
    (hr : s.rstIn = []) (hs : s.sel = true) (hx : s.env.exchange Config.dummy = some (b, e)) :
    run (n + 2) s = .next (respond .ok (b.setWidth 32) (afterReadExchange b e s)) :=
  calc run (n + 2) s
      = run (n + 1) (afterReadExchange b e s) :=
        run_line (n + 1) (by simp [hp]) hr
          (by simp only [line, hp, lineReadNext]; exact xfer_of_answer _ hs hx)
    _ = _ := run_respond n (by simp [afterReadExchange]) hr rfl rfl

/-- Settles O29: in a session the guard admits READ_NEXT and its two lines run in the open frame; with no
session the guard answers. -/
theorem readNextReturnsByte : Obligations.ReadNextReturnsByte := by
  intro s rsv arg h
  refine ⟨fun hrda =>
    issue_answeredProtocol rsv arg _ h (admits_eq_false_iff.mpr (.inr ⟨hrda, rfl⟩)), ?_⟩
  intro b e hrda hs hx
  obtain ⟨n, hn⟩ := issue_runs 0x9 rsv arg (.readNext .n0) h (by simp [admits, hrda])
  rw [exec_readNext, hn]
  refine (run_readNext (s := commandBegun 0x9 rsv arg (.readNext .n0) s) (n + 8) rfl h.2 hs hx).trans ?_
  simp [commandBegun, afterReadExchange, respond, Config.dummy, h.1]

/-! ## INIT -/

theorem exec_init (rsv : BitVec 4) (arg : Addr) (s : State) :
    exec (.init rsv arg) s = issue (mkCommandWord 0x1 rsv arg) (.init .i0) s := rfl

theorem setIdMid_setIdHigh (id : BitVec 24) (i1 i2 : Byte) :
    setIdMid (setIdHigh id i1) i2 = (i1 ++ i2 ++ id.extractLsb' 0 8 : BitVec 24) := by
  have hhigh : (setIdHigh id i1).extractLsb' 16 8 = i1 := BitVec.extractLsb'_append_eq_left
  have hlow : (setIdHigh id i1).extractLsb' 0 8 = id.extractLsb' 0 8 := by
    rw [setIdHigh, BitVec.extractLsb'_append_eq_of_add_le (by decide)]
    exact BitVec.extractLsb'_extractLsb'_of_le (by decide)
  rw [setIdMid, hhigh, hlow]

/-- The three received bytes fill ID, first byte high, whatever it held (R48, R130). -/
theorem setId_bytes (id : BitVec 24) (i1 i2 i3 : Byte) :
    setIdLow (setIdMid (setIdHigh id i1) i2) i3 = (i1 ++ i2 ++ i3 : BitVec 24) := by
  have hupper : (setIdMid (setIdHigh id i1) i2).extractLsb' 8 16 = i1 ++ i2 := by
    rw [setIdMid_setIdHigh]
    exact BitVec.extractLsb'_append_eq_left
  rw [setIdLow, hupper]

/-- The state after the identification frame, with I6 to come. -/
def afterIdentification (x i1 i2 i3 : Byte) (e : Env) (s : State) : State :=
  { s with
    ident := (i1 ++ i2 ++ i3 : BitVec 24), env := e, xferStart := false, xferOut := Config.dummy
    ph := .init .i6
    trace := s.trace ++
      frameEvents [Config.opReadId, Config.dummy, Config.dummy, Config.dummy] [x, i1, i2, i3] }

/-- I0 to I5: one identification frame fills ID (R130). -/
theorem run_identification {s : State} {x i1 i2 i3 : Byte} {e : Env} (n : Nat) (hp : s.ph = .init .i0)
    (hr : s.rstIn = []) (hs : s.sel = false)
    (hf : s.env.frame [Config.opReadId, Config.dummy, Config.dummy, Config.dummy] = some ([x, i1, i2, i3], e)) :
    run (n + 6) s = run n (afterIdentification x i1 i2 i3 e s) := by
  obtain ⟨e4, ho, rfl⟩ := Env.frame_some.mp hf
  obtain ⟨e1, hx, ho⟩ := Env.exchanges_cons_cons.mp ho
  obtain ⟨e2, hx1, ho⟩ := Env.exchanges_cons_cons.mp ho
  obtain ⟨e3, hx2, ho⟩ := Env.exchanges_cons_cons.mp ho
  obtain ⟨e4, hx3, ho⟩ := Env.exchanges_cons_cons.mp ho
  cases ho
  rw [run_line (n + 5) (by simp [hp]) hr
    (by simp only [line, hp, lineInit]; exact select_of_released _ hs)]
  rw [run_line (n + 4) (by simp) (by exact hr)
    (by simp only [line, goto_ph, lineInit]; exact xfer_of_answer _ rfl hx)]
  rw [run_line (n + 3) (by simp) (by exact hr)
    (by simp only [line, goto_ph, lineInit]; exact xfer_of_answer _ rfl hx1)]
  rw [run_line (n + 2) (by simp) (by exact hr)
    (by simp only [line, goto_ph, lineInit]; exact xfer_of_answer _ rfl hx2)]
  rw [run_line (n + 1) (by simp) (by exact hr)
    (by simp only [line, goto_ph, lineInit]; exact xfer_of_answer _ rfl hx3)]
  rw [run_line n (by simp) (by exact hr)
    (by simp only [line, goto_ph, lineInit]; exact deselect_of_selected _ rfl)]
  congr 1
  simp [afterIdentification, goto, setId_bytes, frameEvents, xferEvents, hs]

/-- I6 sets CAP from ID and answers with it (R130). -/
theorem run_init {s : State} {x i1 i2 i3 : Byte} {e : Env} (n : Nat) (hp : s.ph = .init .i0)
    (hr : s.rstIn = []) (hs : s.sel = false)
    (hf : s.env.frame [Config.opReadId, Config.dummy, Config.dummy, Config.dummy] = some ([x, i1, i2, i3], e)) :
    run (n + 7) s = .next (respond .ok (capOf (i1 ++ i2 ++ i3))
      { afterIdentification x i1 i2 i3 e s with cap := capOf (i1 ++ i2 ++ i3) }) :=
  calc run (n + 7) s
      = run (n + 1) (afterIdentification x i1 i2 i3 e s) := run_identification (n + 1) hp hr hs hf
    _ = _ := run_respond n (by simp [afterIdentification]) hr rfl rfl

/-- Settles O19: outside a session the run is the identification frame and I6. -/
theorem initSetsCapacity : Obligations.InitSetsCapacity := by
  intro s rsv arg h
  refine ⟨fun hrda =>
    issue_answeredProtocol rsv arg _ h (admits_other_of_session hrda (by decide) (by decide)), ?_⟩
  intro x i1 i2 i3 e hrda hs hf
  obtain ⟨n, hn⟩ := issue_runs 0x1 rsv arg (.init .i0) h (admits_other_of_noSession hrda (by decide))
  rw [exec_init, hn]
  refine (run_init (s := commandBegun 0x1 rsv arg (.init .i0) s) (n + 3) rfl h.2 hs hf).trans ?_
  simp [commandBegun, afterIdentification, respond, frameEvents, xferEvents, Config.opReadId, Config.dummy, h.1]

end Sys2Proof.Machine
end

section
/-! SUPPORT. END_READ run from its first label to its response, with a session open and with none
(spec/46_read.md R171). -/

namespace Sys2Proof.Machine

open Sys2Proof.Claims

theorem exec_endRead (rsv : BitVec 4) (arg : Addr) (s : State) :
    exec (.endRead rsv arg) s = issue (mkCommandWord 0xA rsv arg) (.endRead .x0) s := rfl

/-- The guard admits END_READ whether or not a session is open (R108). -/
@[simp] theorem admits_endRead (rda : Bool) : admits 0xA rda = true := by
  cases rda <;> rfl

/-- X0 goes on to X1 in a session, and answers OK with none (R171). -/
theorem line_endRead_x0 {s : State} (hp : s.ph = .endRead .x0) :
    line s = .go (if s.rda then goto (.endRead .x1) s else respondAny .ok s) := by
  simp only [line, hp, lineEndRead]

/-- The state after the chip-select is released and RDA cleared, before the response of X1. -/
def sessionClosed (s : State) : State :=
  { s with sel := false, rda := false, env := s.env.deselect, trace := s.trace ++ [.deselect] }

/-- X1 closes the session and answers OK (R171). -/
theorem line_endRead_x1 {s : State} (hp : s.ph = .endRead .x1) (hs : s.sel = true) :
    line s = .go (respondAny .ok (sessionClosed s)) := by
  simp only [line, hp, lineEndRead]
  exact deselect_of_selected _ hs

/-- X0, X1: in a session (R171). -/
theorem run_endRead_session {s : State} (n : Nat) (hp : s.ph = .endRead .x0) (hr : s.rstIn = [])
    (hrda : s.rda = true) (hs : s.sel = true) :
    run (n + 2) s = .next (respondAny .ok (sessionClosed (goto (.endRead .x1) s))) :=
  calc run (n + 2) s
      = run (n + 1) (goto (.endRead .x1) s) :=
        run_line (n + 1) (by simp [hp]) hr ((line_endRead_x0 hp).trans (by rw [if_pos hrda]))
    _ = _ := run_respond n (by simp) hr (line_endRead_x1 rfl hs) rfl

/-- X0 alone: with no session (R171). -/
theorem run_endRead_noSession {s : State} (n : Nat) (hp : s.ph = .endRead .x0) (hr : s.rstIn = [])
    (hrda : s.rda = false) : run (n + 1) s = .next (respondAny .ok s) :=
  run_respond n (by simp [hp]) hr ((line_endRead_x0 hp).trans (by simp [hrda])) rfl

/-- Settles O30: the guard admits END_READ in both cases, and X0's test of RDA decides whether X1 is run. -/
theorem endReadClosesSession : Obligations.EndReadClosesSession := by
  intro s rsv arg h
  obtain ⟨n, hn⟩ := issue_runs 0xA rsv arg (.endRead .x0) h (admits_endRead s.rda)
  rw [exec_endRead, hn]
  constructor
  · intro hrda hs
    refine (run_endRead_session (s := commandBegun 0xA rsv arg (.endRead .x0) s) (n + 8) rfl h.2 hrda hs).trans ?_
    simp [commandBegun, sessionClosed, goto, respondAny, respond, h.1]
  · intro hrda
    refine (run_endRead_noSession (s := commandBegun 0xA rsv arg (.endRead .x0) s) (n + 9) rfl h.2 hrda).trans ?_
    simp [commandBegun, respondAny, respond, h.1]

end Sys2Proof.Machine
end

section
/-! SUPPORT. The decoder and the encoder undo each other, for the command word (spec/30_encoding.md
R80 to R83) and layout by layout for the frame (R87 to R91). -/

namespace Sys2Proof

open Sys2Proof.Claims

/-! ## The command word -/

/-- A command word with this code is the word of the code and of its other two fields. -/
theorem mkCommandWord_of_op {cw : Word} {op : BitVec 4} (h : cwOp cw = op) :
    mkCommandWord op (cwRsv cw) (cwArg cw) = cw := by
  rw [← h]; exact Machine.mkCommandWord_fields cw

/-- What `decodeCommand` accepts is a host command. -/
theorem decodeCommand_isHostCommand {cw : Word} {buf : List Byte} {i : Instr}
    (h : decodeCommand cw buf = .ok i) : isHostCommand i = true := by
  unfold decodeCommand at h
  split at h <;> try split at h
  all_goals cases h
  all_goals rfl

/-- What `decodeCommand` accepts is encoded as the word it read, and WRITE_PAGE with its buffer. -/
theorem encode_of_decodeCommand {cw : Word} {buf : List Byte} {i : Instr}
    (h : decodeCommand cw buf = .ok i) :
    i.wellFormed = true ∧ ∃ b, encode i = .command cw b ∧ (cwOp cw = 0x7 → b = buf) := by
  unfold decodeCommand at h
  split at h
  case h_7 hop =>
    split at h
    · rename_i hlen
      cases h
      exact ⟨by simp [Instr.wellFormed, hlen], buf,
        congrArg (Request.command · buf) (mkCommandWord_of_op hop), fun _ => rfl⟩
    · cases h
  case h_11 => cases h
  all_goals
    rename_i hop
    cases h
    exact ⟨rfl, [], congrArg (Request.command · []) (mkCommandWord_of_op hop),
      fun h7 => absurd (hop.symm.trans h7) (by decide)⟩

/-! ## The layouts -/

theorem layoutL1_ok {op : Byte} {i j : Instr} {rest : List Byte} (h : layoutL1 op i rest = .ok j) :
    rest = [] ∧ j = i := by
  cases rest <;> cases h
  exact ⟨rfl, rfl⟩

/-- A list of DUMMY bytes is determined by its length. -/
theorem eq_replicate_of_all_dummy {bytes : List Byte} (h : bytes.all (· == Config.dummy) = true) :
    bytes = List.replicate bytes.length Config.dummy :=
  List.eq_replicate_iff.mpr ⟨rfl, by simpa using h⟩

theorem layoutDummies_ok {op : Byte} {n : Nat} {i j : Instr} {rest : List Byte}
    (h : layoutDummies op n i rest = .ok j) : rest = List.replicate n Config.dummy ∧ j = i := by
  unfold layoutDummies at h
  split at h
  · rename_i hlen
    split at h
    · rename_i hall
      cases h
      exact ⟨by rw [← hlen]; exact eq_replicate_of_all_dummy hall, rfl⟩
    · cases h
  · cases h

theorem layoutL3_ok {op : Byte} {mk : Addr → Instr} {j : Instr} {rest : List Byte}
    (h : layoutL3 op mk rest = .ok j) :
    ∃ a2 a1 a0, rest = [a2, a1, a0] ∧ j = mk (a2 ++ a1 ++ a0 : BitVec 24) := by
  unfold layoutL3 at h
  split at h
  · cases h
    exact ⟨_, _, _, rfl, rfl⟩
  · cases h

theorem layoutL4_ok {op : Byte} {j : Instr} {rest : List Byte} (h : layoutL4 op rest = .ok j) :
    ∃ a2 a1 data, rest = a2 :: a1 :: 0x00#8 :: data ∧ data.length = Config.pageSize ∧
      j = .wPageProgram (a2 ++ a1 : BitVec 16) data := by
  unfold layoutL4 at h
  split at h
  · split at h
    · rename_i ha0
      split at h
      · cases h
        exact ⟨_, _, _, by rw [ha0], ‹_›, rfl⟩
      · cases h
    · cases h
  · cases h

theorem layoutL5_ok {op : Byte} {j : Instr} {rest : List Byte} (h : layoutL5 op rest = .ok j) :
    ∃ a2 a1 a0 n, rest = a2 :: a1 :: a0 :: List.replicate n Config.dummy ∧
      j = .wReadData (a2 ++ a1 ++ a0 : BitVec 24) n := by
  unfold layoutL5 at h
  split at h
  · split at h
    · rename_i hall
      cases h
      exact ⟨_, _, _, _, by rw [← eq_replicate_of_all_dummy hall], rfl⟩
    · cases h
  · cases h

/-! ## The address bytes of an address put together from three -/

theorem addrHigh_append (a2 a1 a0 : Byte) : addrHigh (a2 ++ a1 ++ a0 : BitVec 24) = a2 := by
  have h : (a2 ++ a1 ++ a0 : BitVec 24).extractLsb' 16 8 = (a2 ++ a1).extractLsb' 8 8 :=
    BitVec.extractLsb'_append_eq_of_le (by decide)
  rw [addrHigh, h]
  exact BitVec.extractLsb'_append_eq_left

theorem addrMid_append (a2 a1 a0 : Byte) : addrMid (a2 ++ a1 ++ a0 : BitVec 24) = a1 := by
  have h : (a2 ++ a1 ++ a0 : BitVec 24).extractLsb' 8 8 = (a2 ++ a1).extractLsb' 0 8 :=
    BitVec.extractLsb'_append_eq_of_le (by decide)
  rw [addrMid, h]
  exact BitVec.extractLsb'_append_eq_right

theorem addrLow_append (a2 a1 a0 : Byte) : addrLow (a2 ++ a1 ++ a0 : BitVec 24) = a0 :=
  BitVec.extractLsb'_append_eq_right

/-- What `decodeFrame` accepts is encoded as the frame it read. -/
theorem encode_of_decodeFrame {bytes : List Byte} {i : Instr} (h : decodeFrame bytes = .ok i) :
    i.wellFormed = true ∧ encode i = .frame bytes := by
  unfold decodeFrame at h
  split at h
  · cases h
  split at h
  · rename_i hop
    obtain ⟨a2, a1, data, rfl, hlen, rfl⟩ := layoutL4_ok h
    refine ⟨by simp [Instr.wellFormed, hlen], ?_⟩
    rw [encode, BitVec.extractLsb'_append_eq_left, BitVec.extractLsb'_append_eq_right, hop]
    rfl
  split at h
  · rename_i hop
    obtain ⟨a2, a1, a0, n, rfl, rfl⟩ := layoutL5_ok h
    exact ⟨rfl, by rw [encode, addrHigh_append, addrMid_append, addrLow_append, hop]⟩
  split at h
  · rename_i hop
    obtain ⟨rfl, rfl⟩ := layoutL1_ok h
    exact ⟨rfl, by rw [encode, hop]⟩
  split at h
  · rename_i hop
    obtain ⟨rfl, rfl⟩ := layoutDummies_ok h
    exact ⟨rfl, by rw [encode, hop]; rfl⟩
  split at h
  · rename_i hop
    obtain ⟨rfl, rfl⟩ := layoutL1_ok h
    exact ⟨rfl, by rw [encode, hop]⟩
  split at h
  · rename_i hop
    obtain ⟨a2, a1, a0, rfl, rfl⟩ := layoutL3_ok h
    exact ⟨rfl, by rw [encode, addrHigh_append, addrMid_append, addrLow_append, hop]⟩
  split at h
  · rename_i hop
    obtain ⟨rfl, rfl⟩ := layoutL1_ok h
    exact ⟨rfl, by rw [encode, hop]⟩
  split at h
  · rename_i hop
    obtain ⟨rfl, rfl⟩ := layoutDummies_ok h
    exact ⟨rfl, by rw [encode, hop]; rfl⟩
  · cases h

/-- Settles O2: the word is its three fields, and each layout gives back the bytes it took apart. -/
theorem encodeDecodeAgree : Obligations.EncodeDecodeAgree :=
  ⟨fun _ _ _ h => encode_of_decodeCommand h, fun _ _ h => encode_of_decodeFrame h⟩

/-- Settles O1: the decoder reads OP, RSV and ARG back from the word built of them, and the operands
of each layout back from its bytes. -/
theorem decodeEncodeAgree : Obligations.DecodeEncodeAgree := by
  intro i hwf
  cases i with
  | writePage rsv arg buf =>
    have hlen : buf.length = Config.pageSize := by simpa [Instr.wellFormed] using hwf
    simp [encode, decode, decodeCommand, hlen]
  | wPageProgram page data =>
    have hlen : data.length = Config.pageSize := by simpa [Instr.wellFormed] using hwf
    have hpage : (page.extractLsb' 8 8 ++ page.extractLsb' 0 8 : BitVec 16) = page :=
      (BitVec.extractLsb'_append_extractLsb'_eq_extractLsb' rfl).trans BitVec.extractLsb'_eq_self
    simp [encode, decode, decodeFrame, layoutL4, hlen, hpage]
  | wReadData a n =>
    simp [encode, decode, decodeFrame, layoutL5, Config.opReadData, Config.opPageProgram]
  | wSectorErase4k a =>
    simp [encode, decode, decodeFrame, layoutL3, Config.opReadData, Config.opPageProgram,
      Config.opWriteDisable, Config.opReadStatus, Config.opWriteEnable, Config.opSectorErase]
  | wWriteDisable | wReadStatus1 | wWriteEnable | wChipErase | wReadIdentification => decide
  | init | waitReady | writeEnable | writeDisable | eraseChip | eraseSector | beginRead | readNext
  | endRead => simp [encode, decode, decodeCommand]

theorem decodeCommand_writePage {cw : Word} {buf : List Byte} (hop : cwOp cw = 0x7)
    (hlen : buf.length = Config.pageSize) :
    decodeCommand cw buf = .ok (.writePage (cwRsv cw) (cwArg cw) buf) := by
  simp [decodeCommand, hop, hlen]

/-- Settles O3: each word is evaluated, and for WRITE_PAGE the buffer's length is the only test left. -/
theorem workedCommandWords : Obligations.WorkedCommandWords := by
  have hwrite : ∀ buf : List Byte, buf.length = 256 →
      decodeCommand 0x70001234 buf = .ok (.writePage 0 0x001234 buf) := by
    intro buf hlen
    rw [decodeCommand_writePage (by decide) hlen]
    rfl
  refine ⟨?_, ?_, ?_, ?_, ?_, ?_, hwrite, ?_, ?_, ?_, ?_⟩ <;> decide

/-- Settles O4: each frame is evaluated. -/
theorem workedFrames : Obligations.WorkedFrames := by
  refine ⟨?_, ?_, ?_, ?_, ?_, ?_, ?_, ?_, ?_, ?_⟩ <;> decide

end Sys2Proof
end

section
/-! SUPPORT. The bound check, reset at the port, and the steps of an idle SEQ (spec/00_scope.md R12,
spec/70_reset_and_hazards.md R200, spec/10_state.md R30, spec/40_sequencer_core.md R108). -/

namespace Sys2Proof.Machine

open Sys2Proof.Claims

/-! ## The bound check -/

theorem inRange_iff_toNat (a : Addr) (cap : Word) : inRange a cap = true ↔ a.toNat < cap.toNat := by
  have ha : (a.setWidth 32).toNat = a.toNat := by
    rw [BitVec.toNat_setWidth, Nat.mod_eq_of_lt (by have := a.isLt; omega)]
  rw [inRange, BitVec.ult_iff_toNat_lt, ha]

theorem inRange_eq_false_of_le {a : Addr} {cap : Word} (h : cap.toNat ≤ a.toNat) : inRange a cap = false := by
  rw [← Bool.not_eq_true, inRange_iff_toNat]
  omega

/-- Settles O6: the comparison is the order of the numbers, no number is below 0, and every 24-bit number
is below 2^24. -/
theorem inRangeIsUnsignedBound : Obligations.InRangeIsUnsignedBound := fun a =>
  ⟨inRange_iff_toNat a, inRange_eq_false_of_le (Nat.zero_le _),
    (inRange_iff_toNat a _).mpr (by have := a.isLt; simpa using this)⟩

/-! ## Reset at the port -/

theorem step_reset {s : State} (h : rstNow s = true) : step s = .next (takeReset s) := by
  rw [step, if_pos h]

theorem tick_reset {s : State} (h : rstNow s = true) : tick s = .go (takeReset s) := by
  rw [tick, if_pos h]

theorem cmdReady_eq_false_of_reset {s : State} (h : rstNow s = true) : cmdReady s = false := by
  simp [cmdReady, h]

/-- After the reset event SEQ is ready as soon as `rst` is back to 0 (R200). -/
theorem cmdReady_takeReset {s : State} (h : rstNow (takeReset s) = false) :
    cmdReady (takeReset s) = true := by
  simp [cmdReady, h]

/-- Settles O10: with `rst` at 1 a step of the machine and a line of a command are both the reset event,
whose fields the laws of `takeReset` give. -/
theorem resetBeatsEverything : Obligations.ResetBeatsEverything := fun s h =>
  ⟨cmdReady_eq_false_of_reset h, takeReset s, step_reset h, fun _ => tick_reset h, rfl, rfl, rfl, rfl, rfl, rfl,
    rfl, rfl, rfl, cmdReady_takeReset⟩

/-- Settles O55: the bus is released, no session is open, CAP is 0 and the array is empty. -/
theorem resetMeetsInvariant : Obligations.ResetMeetsInvariant := ⟨rfl, rfl, rfl, rfl, rfl⟩

/-! ## A step of an idle SEQ -/

/-- Settles O12: the idle branch of a step, with the request taken from the port. -/
theorem stepRunsDecodedInstruction : Obligations.StepRunsDecodedInstruction := by
  intro s r rest i hr hp hh hd
  simp [step, hr, hp, hh, hd]

/-- Settles O13: the idle branch of a step, with an empty port. -/
theorem idleStepChangesNothing : Obligations.IdleStepChangesNothing := by
  intro s hr hp hh
  simp [step, hr, hp, hh]

/-! ## A request presented to a SEQ that is not ready -/

theorem issue_not_ready {s : State} {cw : Word} {first : Phase} (h : cmdReady s = false) :
    issue cw first s = .next s := by
  simp [issue, h]

theorem sendFrame_not_ready {s : State} {f : WireFrame} (h : cmdReady s = false) : sendFrame f s = .next s := by
  simp [sendFrame, h]

theorem exec_writePage_not_ready {s : State} (rsv : BitVec 4) (arg : Addr) (buf : List Byte)
    (h : cmdReady s = false) : exec (.writePage rsv arg buf) s = .next s := by
  simp [exec, execWritePage, h]

/-- A presented instruction that SEQ is not ready for waits at the port (R30). -/
theorem exec_not_ready {s : State} {i : Instr} (hwf : i.wellFormed = true) (h : cmdReady s = false) :
    exec i s = .next s := by
  cases i with
  | writePage rsv arg buf => exact exec_writePage_not_ready rsv arg buf h
  | wPageProgram page data =>
    have hlen : data.length = Config.pageSize := by simpa [Instr.wellFormed] using hwf
    exact (if_pos hlen).trans (sendFrame_not_ready h)
  | wReadData | wWriteDisable | wReadStatus1 | wWriteEnable | wSectorErase4k | wChipErase
  | wReadIdentification => exact sendFrame_not_ready h
  | init | waitReady | writeEnable | writeDisable | eraseChip | eraseSector | beginRead | readNext
  | endRead => exact issue_not_ready h

/-! ## The session guard -/

theorem exec_writePage_ready {s : State} (rsv : BitVec 4) (arg : Addr) (buf : List Byte) (h : s.ready) :
    exec (.writePage rsv arg buf) s =
      issue (mkCommandWord 0x7 rsv arg) (.writePage .p0) { s with page := buf } :=
  if_pos (cmdReady_of_ready h)

/-- Settles O17: the guard refuses each of the nine codes, and WRITE_PAGE has put its buffer at the port
before. -/
theorem sessionGuardAnswersProtocol : Obligations.SessionGuardAnswersProtocol := by
  intro s rsv arg buf h
  refine ⟨fun hrda => ?_, fun hrda =>
    issue_answeredProtocol rsv arg _ h (admits_eq_false_iff.mpr (.inr ⟨hrda, rfl⟩))⟩
  have hrefused : ∀ {code : BitVec 4} (first : Phase), code ≠ 0x9 → code ≠ 0xA →
      issue (mkCommandWord code rsv arg) first s = .next (answeredProtocol code rsv arg s) :=
    fun first h9 hA => issue_answeredProtocol rsv arg first h (admits_other_of_session hrda h9 hA)
  refine ⟨hrefused _ (by decide) (by decide), hrefused _ (by decide) (by decide),
    hrefused _ (by decide) (by decide), hrefused _ (by decide) (by decide),
    hrefused _ (by decide) (by decide), hrefused _ (by decide) (by decide), ?_,
    hrefused _ (by decide) (by decide)⟩
  rw [exec_writePage_ready rsv arg buf h]
  exact issue_answeredProtocol (s := { s with page := buf }) rsv arg _ h
    (admits_other_of_session hrda (by decide) (by decide))

end Sys2Proof.Machine
end

section
/-! SUPPORT. What a labelled line can do, said once: the state it goes on to, with one rule per primitive;
the job a phase belongs to; and the registers, ports and responses that a line leaves as they were
(spec/40_sequencer_core.md R110 to R116). -/

namespace Sys2Proof.Machine

open Sys2Proof.Claims

/-! ## A property of the state a line goes on to -/

/-- Where a line goes on, the state it goes on to meets `Q`. -/
def Move.Goes (Q : State → Prop) : Move → Prop
  | .go t => Q t
  | .wait _ => True
  | .stop _ => True

theorem Move.goes_iff {Q : State → Prop} {m : Move} : m.Goes Q ↔ ∀ t, m = .go t → Q t := by
  cases m <;> simp [Move.Goes]

@[simp] theorem goes_go (Q : State → Prop) (t : State) : (Move.go t).Goes Q ↔ Q t := Iff.rfl

@[simp] theorem goes_select (Q : State → Prop) (next : State → State) (s : State) :
    (select next s).Goes Q ↔
      (s.sel = false → Q (next { s with sel := true, env := s.env.select, trace := s.trace ++ [.select] })) := by
  cases h : s.sel <;> simp [select, h, Move.Goes]

@[simp] theorem goes_deselect (Q : State → Prop) (next : State → State) (s : State) :
    (deselect next s).Goes Q ↔
      (s.sel = true →
        Q (next { s with sel := false, env := s.env.deselect, trace := s.trace ++ [.deselect] })) := by
  cases h : s.sel <;> simp [deselect, h, Move.Goes]

@[simp] theorem goes_xfer (Q : State → Prop) (o : Byte) (next : Byte → State → State) (s : State) :
    (xfer o next s).Goes Q ↔ (s.sel = true → ∀ i e, s.env.exchange o = some (i, e) →
      Q (next i { s with env := e, xferStart := false, xferOut := o, trace := s.trace ++ [.xfer o i] })) := by
  cases h : s.sel
  · simp [xfer, h, Move.Goes]
  · cases hx : s.env.exchange o with
    | none => simp [xfer, h, hx, Move.Goes]
    | some a =>
      obtain ⟨i, e⟩ := a
      simp only [xfer, h, hx, if_true, goes_go, Option.some.injEq, Prod.mk.injEq, forall_const]
      constructor
      · rintro hq _ _ ⟨rfl, rfl⟩
        exact hq
      · exact fun hq => hq i e ⟨rfl, rfl⟩

@[simp] theorem goes_now (Q : State → Prop) (next : Word → State → State) (s : State) :
    (now next s).Goes Q ↔ Q (next s.clk.advance.value
      { s with clk := s.clk.advance, trace := s.trace ++ [.time s.clk.advance.value] }) := Iff.rfl

@[simp] theorem goes_delay (Q : State → Prop) (d : Word) (next : State → State) (s : State) :
    (delay d next s).Goes Q ↔ Q (next
      { s with clk := { s.clk with now := s.clk.now + d.toNat }, trace := s.trace ++ [.delay d] }) := Iff.rfl

/-- A property of a line is a property of each kind of phase. -/
theorem line_goes {Q : State → Prop} {s : State}
    (init : ∀ l, s.ph = .init l → (lineInit l s).Goes Q)
    (waitReady : ∀ l, s.ph = .waitReady l → (lineWaitReady l s).Goes Q)
    (writeEnable : ∀ l, s.ph = .writeEnable l → (lineWriteEnable l s).Goes Q)
    (writeDisable : ∀ l, s.ph = .writeDisable l → (lineWriteDisable l s).Goes Q)
    (eraseChip : ∀ l, s.ph = .eraseChip l → (lineEraseChip l s).Goes Q)
    (eraseSector : ∀ l, s.ph = .eraseSector l → (lineEraseSector l s).Goes Q)
    (writePage : ∀ l, s.ph = .writePage l → (lineWritePage l s).Goes Q)
    (beginRead : ∀ l, s.ph = .beginRead l → (lineBeginRead l s).Goes Q)
    (readNext : ∀ l, s.ph = .readNext l → (lineReadNext l s).Goes Q)
    (endRead : ∀ l, s.ph = .endRead l → (lineEndRead l s).Goes Q)
    (inWait : ∀ c l, s.ph = .inWait c l → (lineWait c l s).Goes Q)
    (inEnable : ∀ c l, s.ph = .inEnable c l → (lineEnable c l s).Goes Q)
    (inDisable : ∀ c l, s.ph = .inDisable c l → (lineDisable c l s).Goes Q)
    (frame : ∀ f l, s.ph = .frame f l → (lineFrame f l s).Goes Q) {t : State} (h : line s = .go t) : Q t := by
  refine Move.goes_iff.mp ?_ t h
  unfold line
  split
  · trivial
  · exact init _ ‹_›
  · exact waitReady _ ‹_›
  · exact writeEnable _ ‹_›
  · exact writeDisable _ ‹_›
  · exact eraseChip _ ‹_›
  · exact eraseSector _ ‹_›
  · exact writePage _ ‹_›
  · exact beginRead _ ‹_›
  · exact readNext _ ‹_›
  · exact endRead _ ‹_›
  · exact inWait _ _ ‹_›
  · exact inEnable _ _ ‹_›
  · exact inDisable _ _ ‹_›
  · exact frame _ _ ‹_›

/-- A property of the state a test chooses is a property of both. -/
theorem of_ite (Q : State → Prop) (c : Prop) [Decidable c] (t u : State) :
    Q (if c then t else u) ↔ (c → Q t) ∧ (¬c → Q u) := by
  split <;> simp_all

/-! ## The job a phase belongs to -/

/-- What SEQ is busy with: nothing, a host command by its code, or a frame run by itself. -/
inductive Job where
  | none
  | command (code : BitVec 4)
  | frame (f : WireFrame)
  deriving DecidableEq

/-- The code of the command that calls WaitReady at a line (R138). -/
def WaitSite.code : WaitSite → BitVec 4
  | .q0 => 0x2
  | .c0 | .c5 => 0x5
  | .s1 | .s9 => 0x6
  | .p1 | .p11 => 0x7
  | .b1 => 0x8

/-- The code of the command that calls WriteEnable at a line (R179). -/
def EnableSite.code : EnableSite → BitVec 4
  | .e0 => 0x3
  | .c1 => 0x5
  | .s2 => 0x6
  | .p2 => 0x7

/-- The code of the command that calls WriteDisable at a line (R147). -/
def DisableSite.code : DisableSite → BitVec 4
  | .f0 => 0x4
  | .c6 => 0x5
  | .s10 => 0x6
  | .p12 => 0x7

/-- The job a phase belongs to; the phases of a procedure belong to its caller's command (R27, R82, R121). -/
def Phase.job : Phase → Job
  | .idle => .none
  | .init _ => .command 0x1
  | .waitReady _ => .command 0x2
  | .writeEnable _ => .command 0x3
  | .writeDisable _ => .command 0x4
  | .eraseChip _ => .command 0x5
  | .eraseSector _ => .command 0x6
  | .writePage _ => .command 0x7
  | .beginRead _ => .command 0x8
  | .readNext _ => .command 0x9
  | .endRead _ => .command 0xA
  | .inWait c _ => .command c.code
  | .inEnable c _ => .command c.code
  | .inDisable c _ => .command c.code
  | .frame f _ => .frame f

@[simp] theorem Phase.job_idle : Phase.job .idle = .none := rfl
@[simp] theorem Phase.job_init (l : InitLabel) : Phase.job (.init l) = .command 0x1 := rfl
@[simp] theorem Phase.job_waitReady (l : WaitReadyLabel) : Phase.job (.waitReady l) = .command 0x2 := rfl
@[simp] theorem Phase.job_writeEnable (l : WriteEnableLabel) : Phase.job (.writeEnable l) = .command 0x3 := rfl
@[simp] theorem Phase.job_writeDisable (l : WriteDisableLabel) : Phase.job (.writeDisable l) = .command 0x4 := rfl
@[simp] theorem Phase.job_eraseChip (l : EraseChipLabel) : Phase.job (.eraseChip l) = .command 0x5 := rfl
@[simp] theorem Phase.job_eraseSector (l : EraseSectorLabel) : Phase.job (.eraseSector l) = .command 0x6 := rfl
@[simp] theorem Phase.job_writePage (l : WritePageLabel) : Phase.job (.writePage l) = .command 0x7 := rfl
@[simp] theorem Phase.job_beginRead (l : BeginReadLabel) : Phase.job (.beginRead l) = .command 0x8 := rfl
@[simp] theorem Phase.job_readNext (l : ReadNextLabel) : Phase.job (.readNext l) = .command 0x9 := rfl
@[simp] theorem Phase.job_endRead (l : EndReadLabel) : Phase.job (.endRead l) = .command 0xA := rfl
@[simp] theorem Phase.job_inWait (c : WaitSite) (l : WaitLabel) : Phase.job (.inWait c l) = .command c.code := rfl
@[simp] theorem Phase.job_inEnable (c : EnableSite) (l : EnableLabel) : Phase.job (.inEnable c l) = .command c.code := rfl
@[simp] theorem Phase.job_inDisable (c : DisableSite) (l : DisableLabel) : Phase.job (.inDisable c l) = .command c.code := rfl
@[simp] theorem Phase.job_frame (f : WireFrame) (l : FrameLabel) : Phase.job (.frame f l) = .frame f := rfl

/-- The jobs that run WaitReady (R138). -/
def Job.waits : Job → Bool
  | .command code => code = 0x2 || code = 0x5 || code = 0x6 || code = 0x7 || code = 0x8
  | _ => false

/-- The jobs that run WaitReady or WriteEnable, and so write RES and SR (R121). -/
def Job.tests : Job → Bool
  | .command code => code = 0x3 || (Job.command code).waits
  | _ => false

/-! ## What a line leaves as it was -/

@[simp] theorem responses_append (t u : List Event) : responses (t ++ u) = responses t + responses u := by
  simp [responses]

@[simp] theorem responses_nil : responses [] = 0 := rfl
@[simp] theorem responses_select (t : List Event) : responses (.select :: t) = responses t := rfl
@[simp] theorem responses_deselect (t : List Event) : responses (.deselect :: t) = responses t := rfl
@[simp] theorem responses_xfer (o i : Byte) (t : List Event) : responses (.xfer o i :: t) = responses t := rfl
@[simp] theorem responses_time (w : Word) (t : List Event) : responses (.time w :: t) = responses t := rfl
@[simp] theorem responses_delay (d : Word) (t : List Event) : responses (.delay d :: t) = responses t := rfl
@[simp] theorem responses_command (cw : Word) (t : List Event) : responses (.command cw :: t) = responses t := rfl
@[simp] theorem responses_response (st : Status) (v : Word) (t : List Event) :
    responses (.response st v :: t) = responses t + 1 := rfl

theorem Clock.advance_gaps_subset (c : Clock) : c.advance.gaps ⊆ c.gaps := by
  unfold Clock.advance
  cases c.gaps <;> simp

/-- What a line that goes on leaves as it was, what it writes only in the jobs that may, and that it
responds exactly when it ends a command. -/
structure LineFrame (s t : State) : Prop where
  par   : t.par = s.par
  host  : t.host = s.host
  rstIn : t.rstIn = s.rstIn
  page  : t.page = s.page
  op    : t.op = s.op
  arg   : t.arg = s.arg
  job   : t.ph = .idle ∨ t.ph.job = s.ph.job
  clock : s.clk.now ≤ t.clk.now
  gaps  : t.clk.gaps ⊆ s.clk.gaps
  trace : ∃ es, t.trace = s.trace ++ es
  quiet : t.ph ≠ .idle ∨ (∃ f, s.ph.job = .frame f) →
    responses t.trace = responses s.trace ∧ t.rsp.valid = s.rsp.valid
  ends  : t.ph = .idle → (∀ f, s.ph.job ≠ .frame f) →
    responses t.trace = responses s.trace + 1 ∧ t.rsp.valid = true
  rsp   : (∃ f, s.ph.job = .frame f) → t.rsp = s.rsp
  cap   : s.ph.job ≠ .command 0x1 → t.cap = s.cap
  rda   : s.ph.job ≠ .command 0x8 → s.ph.job ≠ .command 0xA → t.rda = s.rda
  ident : s.ph.job ≠ .command 0x1 → (∀ f, s.ph.job = .frame f → f.row ≠ .readId) → t.ident = s.ident
  cnt   : s.ph.job ≠ .command 0x7 → t.cnt = s.cnt
  timer : s.ph.job.waits = false → t.tmo = s.tmo ∧ t.t0 = s.t0 ∧ t.clk = s.clk
  res   : s.ph.job.tests = false → t.res = s.res
  sr    : s.ph.job.tests = false → (∀ f, s.ph.job = .frame f → f.row ≠ .readStatus) → t.sr = s.sr

theorem lineFrame_iff (s t : State) : LineFrame s t ↔
    t.par = s.par ∧ t.host = s.host ∧ t.rstIn = s.rstIn ∧ t.page = s.page ∧ t.op = s.op ∧ t.arg = s.arg ∧
    (t.ph = .idle ∨ t.ph.job = s.ph.job) ∧ s.clk.now ≤ t.clk.now ∧ t.clk.gaps ⊆ s.clk.gaps ∧
    (∃ es, t.trace = s.trace ++ es) ∧
    (t.ph ≠ .idle ∨ (∃ f, s.ph.job = .frame f) →
      responses t.trace = responses s.trace ∧ t.rsp.valid = s.rsp.valid) ∧
    (t.ph = .idle → (∀ f, s.ph.job ≠ .frame f) →
      responses t.trace = responses s.trace + 1 ∧ t.rsp.valid = true) ∧
    ((∃ f, s.ph.job = .frame f) → t.rsp = s.rsp) ∧
    (s.ph.job ≠ .command 0x1 → t.cap = s.cap) ∧
    (s.ph.job ≠ .command 0x8 → s.ph.job ≠ .command 0xA → t.rda = s.rda) ∧
    (s.ph.job ≠ .command 0x1 → (∀ f, s.ph.job = .frame f → f.row ≠ .readId) → t.ident = s.ident) ∧
    (s.ph.job ≠ .command 0x7 → t.cnt = s.cnt) ∧
    (s.ph.job.waits = false → t.tmo = s.tmo ∧ t.t0 = s.t0 ∧ t.clk = s.clk) ∧
    (s.ph.job.tests = false → t.res = s.res) ∧
    (s.ph.job.tests = false → (∀ f, s.ph.job = .frame f → f.row ≠ .readStatus) → t.sr = s.sr) :=
  ⟨fun ⟨h1, h2, h3, h4, h5, h6, h7, h8, h9, h10, h11, h12, h13, h14, h15, h16, h17, h18, h19, h20⟩ =>
    ⟨h1, h2, h3, h4, h5, h6, h7, h8, h9, h10, h11, h12, h13, h14, h15, h16, h17, h18, h19, h20⟩,
    fun ⟨h1, h2, h3, h4, h5, h6, h7, h8, h9, h10, h11, h12, h13, h14, h15, h16, h17, h18, h19, h20⟩ =>
    ⟨h1, h2, h3, h4, h5, h6, h7, h8, h9, h10, h11, h12, h13, h14, h15, h16, h17, h18, h19, h20⟩⟩

/-- What every line leaves as it was, label by label: first the state each primitive leads to, then its
fields. -/
theorem line_frame {s t : State} (h : line s = .go t) : LineFrame s t := by
  refine line_goes ?_ ?_ ?_ ?_ ?_ ?_ ?_ ?_ ?_ ?_ ?_ ?_ ?_ ?_ h
  · intro l hp
    cases l <;> simp [lineInit] <;> simp [lineFrame_iff, hp, Job.waits, Job.tests]
  · intro l hp
    cases l <;> simp [lineWaitReady, of_ite (LineFrame s)] <;>
      simp [lineFrame_iff, hp, Job.waits, Job.tests, WaitSite.code]
  · intro l hp
    cases l <;> simp [lineWriteEnable, of_ite (LineFrame s)] <;>
      simp [lineFrame_iff, hp, Job.waits, Job.tests, EnableSite.code]
  · intro l hp
    cases l <;> simp [lineWriteDisable] <;>
      simp [lineFrame_iff, hp, Job.waits, Job.tests, DisableSite.code]
  · intro l hp
    cases l <;> simp [lineEraseChip] <;>
      simp [lineFrame_iff, hp, Job.waits, Job.tests, WaitSite.code, EnableSite.code, DisableSite.code]
  · intro l hp
    cases l <;> simp [lineEraseSector, of_ite (LineFrame s)] <;>
      simp [lineFrame_iff, hp, Job.waits, Job.tests, WaitSite.code, EnableSite.code, DisableSite.code]
  · intro l hp
    cases l <;> simp [lineWritePage, of_ite (LineFrame s)] <;>
      simp [lineFrame_iff, hp, Job.waits, Job.tests, WaitSite.code, EnableSite.code, DisableSite.code]
  · intro l hp
    cases l <;> simp [lineBeginRead, of_ite (LineFrame s)] <;>
      simp [lineFrame_iff, hp, Job.waits, Job.tests, WaitSite.code]
  · intro l hp
    cases l <;> simp [lineReadNext] <;> simp [lineFrame_iff, hp, Job.waits, Job.tests]
  · intro l hp
    cases l <;> simp [lineEndRead, of_ite (LineFrame s)] <;> simp [lineFrame_iff, hp, Job.waits, Job.tests]
  · intro c l hp
    cases l <;> cases c <;>
      simp [lineWait, returnWait, passOrFail, passOrForget, of_ite (LineFrame s)] <;>
      simp [lineFrame_iff, hp, Job.waits, Job.tests, WaitSite.code, Clock.now_le_advance,
        Clock.advance_gaps_subset]
  · intro c l hp
    cases l <;> cases c <;> simp [lineEnable, returnEnable, passOrFail, of_ite (LineFrame s)] <;>
      simp [lineFrame_iff, hp, Job.waits, Job.tests, EnableSite.code]
  · intro c l hp
    cases l <;> cases c <;> simp [lineDisable, afterDisable] <;>
      simp [lineFrame_iff, hp, Job.waits, Job.tests, DisableSite.code]
  · intro f l hp
    rcases l with _ | _ | ⟨_ | ⟨o, left⟩, received⟩ <;> simp [lineFrame] <;>
      simp [lineFrame_iff, hp, Job.waits, Job.tests]
    cases f.row <;> simp [keepReceived]

end Sys2Proof.Machine
end

section
/-! SUPPORT. The induction over a run packaged once, with resets and without; what exec presents to the
dispatcher; and the rules that follow for every instruction (spec/10_state.md R30, R31, R37,
spec/40_sequencer_core.md R110, R118, R124). -/

namespace Sys2Proof.Machine

open Sys2Proof.Claims

/-! ## A line that waits -/

/-- Where a line waits, the state it waits in meets `Q`. -/
def Move.Waits (Q : State → Prop) : Move → Prop
  | .go _ => True
  | .wait t => Q t
  | .stop _ => True

theorem Move.waits_iff {Q : State → Prop} {m : Move} : m.Waits Q ↔ ∀ t, m = .wait t → Q t := by
  cases m <;> simp [Move.Waits]

@[simp] theorem waits_go (Q : State → Prop) (t : State) : (Move.go t).Waits Q := trivial

@[simp] theorem waits_select (Q : State → Prop) (next : State → State) (s : State) :
    (select next s).Waits Q :=
  Move.waits_iff.mpr fun _ h => absurd h select_ne_wait

@[simp] theorem waits_deselect (Q : State → Prop) (next : State → State) (s : State) :
    (deselect next s).Waits Q :=
  Move.waits_iff.mpr fun _ h => absurd h deselect_ne_wait

@[simp] theorem waits_now (Q : State → Prop) (next : Word → State → State) (s : State) :
    (now next s).Waits Q := trivial

@[simp] theorem waits_delay (Q : State → Prop) (d : Word) (next : State → State) (s : State) :
    (delay d next s).Waits Q := trivial

/-- SEQ presents a byte that ENV does not answer (R69). -/
def presenting (o : Byte) (s : State) : State := { s with xferStart := true, xferOut := o }

@[simp] theorem waits_xfer (Q : State → Prop) (o : Byte) (next : Byte → State → State) (s : State) :
    (xfer o next s).Waits Q ↔ (s.sel = true → s.env.exchange o = none → Q (presenting o s)) := by
  cases h : s.sel
  · simp [xfer, h, Move.Waits]
  · cases hx : s.env.exchange o <;> simp [xfer, h, hx, Move.Waits, presenting]

/-- A property of the state a line waits in is a property of each kind of phase. -/
theorem line_waits {Q : State → Prop} {s : State} (hidle : s.ph ≠ .idle)
    (init : ∀ l, s.ph = .init l → (lineInit l s).Waits Q)
    (waitReady : ∀ l, s.ph = .waitReady l → (lineWaitReady l s).Waits Q)
    (writeEnable : ∀ l, s.ph = .writeEnable l → (lineWriteEnable l s).Waits Q)
    (writeDisable : ∀ l, s.ph = .writeDisable l → (lineWriteDisable l s).Waits Q)
    (eraseChip : ∀ l, s.ph = .eraseChip l → (lineEraseChip l s).Waits Q)
    (eraseSector : ∀ l, s.ph = .eraseSector l → (lineEraseSector l s).Waits Q)
    (writePage : ∀ l, s.ph = .writePage l → (lineWritePage l s).Waits Q)
    (beginRead : ∀ l, s.ph = .beginRead l → (lineBeginRead l s).Waits Q)
    (readNext : ∀ l, s.ph = .readNext l → (lineReadNext l s).Waits Q)
    (endRead : ∀ l, s.ph = .endRead l → (lineEndRead l s).Waits Q)
    (inWait : ∀ c l, s.ph = .inWait c l → (lineWait c l s).Waits Q)
    (inEnable : ∀ c l, s.ph = .inEnable c l → (lineEnable c l s).Waits Q)
    (inDisable : ∀ c l, s.ph = .inDisable c l → (lineDisable c l s).Waits Q)
    (frame : ∀ f l, s.ph = .frame f l → (lineFrame f l s).Waits Q) {t : State} (h : line s = .wait t) :
    Q t := by
  refine Move.waits_iff.mp ?_ t h
  unfold line
  split
  · exact absurd ‹s.ph = .idle› hidle
  · exact init _ ‹_›
  · exact waitReady _ ‹_›
  · exact writeEnable _ ‹_›
  · exact writeDisable _ ‹_›
  · exact eraseChip _ ‹_›
  · exact eraseSector _ ‹_›
  · exact writePage _ ‹_›
  · exact beginRead _ ‹_›
  · exact readNext _ ‹_›
  · exact endRead _ ‹_›
  · exact inWait _ _ ‹_›
  · exact inEnable _ _ ‹_›
  · exact inDisable _ _ ‹_›
  · exact frame _ _ ‹_›

/-- `t` is `s` standing at an exchange that ENV does not answer, where it would wait again. -/
def StandsAt (s t : State) : Prop :=
  ∃ o, s.sel = true ∧ s.env.exchange o = none ∧ t = presenting o s ∧ line t = .wait t

theorem standsAt_presenting {s : State} {o : Byte} (hs : s.sel = true) (hx : s.env.exchange o = none)
    (hl : line (presenting o s) = .wait (presenting o s)) : StandsAt s (presenting o s) :=
  ⟨o, hs, hx, rfl, hl⟩

/-- A line of a job waits only at an exchange, with the byte presented and nothing else changed, and it
would wait there again (R69). -/
theorem line_wait {s t : State} (hp : s.ph ≠ .idle) (h : line s = .wait t) : StandsAt s t := by
  refine line_waits hp ?_ ?_ ?_ ?_ ?_ ?_ ?_ ?_ ?_ ?_ ?_ ?_ ?_ ?_ h
  · intro l hp
    cases l <;> simp [lineInit]
    all_goals
      intro hs hx
      exact standsAt_presenting hs hx (by simp [line, presenting, hp, lineInit, xfer, hs, hx])
  · intro l hp
    cases l <;> simp [lineWaitReady]
  · intro l hp
    cases l <;> simp [lineWriteEnable]
  · intro l hp
    cases l <;> simp [lineWriteDisable]
  · intro l hp
    cases l <;> simp [lineEraseChip]
    intro hs hx
    exact standsAt_presenting hs hx (by simp [line, presenting, hp, lineEraseChip, xfer, hs, hx])
  · intro l hp
    cases l <;> simp [lineEraseSector]
    all_goals
      intro hs hx
      exact standsAt_presenting hs hx (by simp [line, presenting, hp, lineEraseSector, xfer, hs, hx])
  · intro l hp
    cases l <;> simp [lineWritePage]
    all_goals
      intro hs hx
      exact standsAt_presenting hs hx (by simp [line, presenting, hp, lineWritePage, xfer, hs, hx])
  · intro l hp
    cases l <;> simp [lineBeginRead]
    all_goals
      intro hs hx
      exact standsAt_presenting hs hx (by simp [line, presenting, hp, lineBeginRead, xfer, hs, hx])
  · intro l hp
    cases l <;> simp [lineReadNext]
    intro hs hx
    exact standsAt_presenting hs hx (by simp [line, presenting, hp, lineReadNext, xfer, hs, hx])
  · intro l hp
    cases l <;> simp [lineEndRead]
  · intro c l hp
    cases l <;> simp [lineWait]
    all_goals
      intro hs hx
      exact standsAt_presenting hs hx (by simp [line, presenting, hp, lineWait, xfer, hs, hx])
  · intro c l hp
    cases l <;> simp [lineEnable]
    all_goals
      intro hs hx
      exact standsAt_presenting hs hx (by simp [line, presenting, hp, lineEnable, xfer, hs, hx])
  · intro c l hp
    cases l <;> simp [lineDisable]
    intro hs hx
    exact standsAt_presenting hs hx (by simp [line, presenting, hp, lineDisable, xfer, hs, hx])
  · intro f l hp
    rcases l with _ | _ | ⟨_ | ⟨o, left⟩, received⟩ <;> simp [lineFrame]
    all_goals
      intro hs hx
      exact standsAt_presenting hs hx (by simp [line, presenting, hp, lineFrame, xfer, hs, hx])

/-- A state that stands at an unanswered exchange is waiting (R69). -/
theorem StandsAt.waiting {s t : State} (hp : s.ph ≠ .idle) (h : StandsAt s t) : t.waiting = true := by
  obtain ⟨o, -, -, rfl, hl⟩ := h
  rw [State.waiting, hl]
  simp [presenting, hp]

/-! ## Runs -/

/-- The state in which the line at PH runs: the sample of `rst` is used up. -/
def sampled (s : State) : State := { s with rstIn := s.rstIn.tail }

theorem sampled_quiet {s : State} (h : s.rstIn = []) : sampled s = s := by
  cases s
  simp_all [sampled]

/-- What the reset event, every line and every wait keep, a run keeps. -/
theorem run_preserves {P : State → Prop}
    (hreset : ∀ s, s.ph ≠ .idle → rstNow s = true → P s → P (takeReset s))
    (hsampled : ∀ s, P s → P (sampled s))
    (hline : ∀ s t, s.ph ≠ .idle → line s = .go t → P s → P t)
    (hwait : ∀ s o, P s → P (presenting o s))
    {n : Nat} {s t : State} (h : run n s = .next t) (hs : P s) : P t := by
  refine run_keeps (P := P) ?_ ?_ h hs
  · intro s t hp ht hP
    rcases tick_cases s with ⟨hr, hgo⟩ | ⟨-, hgo⟩
    · cases hgo.symm.trans ht
      exact hreset s hp hr hP
    · exact hline (sampled s) t hp (hgo.symm.trans ht) (hsampled s hP)
  · intro s t hp ht hP
    rcases tick_cases s with ⟨-, hgo⟩ | ⟨-, hgo⟩
    · cases hgo.symm.trans ht
    · obtain ⟨o, -, -, rfl, -⟩ := line_wait (s := sampled s) hp (hgo.symm.trans ht)
      exact hwait _ o (hsampled s hP)

/-- With no reset to come, what every line and every wait keep, a run keeps. -/
theorem run_preserves_quiet {P : State → Prop}
    (hline : ∀ s t, s.ph ≠ .idle → line s = .go t → P s → P t)
    (hwait : ∀ s o, P s → P (presenting o s))
    {n : Nat} {s t : State} (h : run n s = .next t) (hr : s.rstIn = []) (hs : P s) : P t := by
  have hboth : t.rstIn = [] ∧ P t := by
    refine run_preserves (P := fun u => u.rstIn = [] ∧ P u) ?_ ?_ ?_ ?_ h ⟨hr, hs⟩
    · rintro u - hu ⟨hq, -⟩
      rw [rstNow_quiet hq] at hu
      cases hu
    · rintro u ⟨hq, hu⟩
      rw [sampled_quiet hq]
      exact ⟨hq, hu⟩
    · rintro u v hp hl ⟨hq, hu⟩
      exact ⟨(line_frame hl).rstIn.trans hq, hline u v hp hl hu⟩
    · rintro u o ⟨hq, hu⟩
      exact ⟨hq, hwait u o hu⟩
  exact hboth.2

/-- A run whose lines all bring a measure down comes to IDLE, or stands at an unanswered exchange. -/
theorem run_ends {P : State → Prop} {μ : State → Nat}
    (hline : ∀ s t, s.ph ≠ .idle → line s = .go t → P s → t.ph = .idle ∨ P t ∧ μ t < μ s)
    {n : Nat} {s t : State} (h : run n s = .next t) (hr : s.rstIn = []) (hs : P s) (hn : μ s < n) :
    t.ph = .idle ∨ ∃ u, u.ph ≠ .idle ∧ P u ∧ StandsAt u t := by
  induction n generalizing s with
  | zero => omega
  | succ n ih =>
    by_cases hp : s.ph = .idle
    · cases (run_idle _ hp).symm.trans h
      exact .inl hp
    · cases hl : line s with
      | go u =>
        rw [run_line n hp hr hl] at h
        rcases hline s u hp hl hs with hu | ⟨hu, hlt⟩
        · cases (run_idle _ hu).symm.trans h
          exact .inl hu
        · exact ih h ((line_frame hl).rstIn.trans hr) hu (by omega)
      | wait u =>
        have hstands := line_wait hp hl
        obtain ⟨o, -, -, rfl, -⟩ := id hstands
        cases (run_wait n hp ((tick_quiet hr).trans hl) hr).symm.trans h
        exact .inr ⟨s, hp, hs, hstands⟩
      | stop f =>
        simp [run, hp, tick_quiet hr, hl] at h

/-! ## What exec presents -/

/-- The command word of a host command (R82). -/
def commandWord : Instr → Word
  | .init rsv arg => mkCommandWord 0x1 rsv arg
  | .waitReady rsv arg => mkCommandWord 0x2 rsv arg
  | .writeEnable rsv arg => mkCommandWord 0x3 rsv arg
  | .writeDisable rsv arg => mkCommandWord 0x4 rsv arg
  | .eraseChip rsv arg => mkCommandWord 0x5 rsv arg
  | .eraseSector rsv arg => mkCommandWord 0x6 rsv arg
  | .writePage rsv arg _ => mkCommandWord 0x7 rsv arg
  | .beginRead rsv arg => mkCommandWord 0x8 rsv arg
  | .readNext rsv arg => mkCommandWord 0x9 rsv arg
  | .endRead rsv arg => mkCommandWord 0xA rsv arg
  | _ => 0

/-- The page data port beside a host command: WRITE_PAGE brings its buffer (R33). -/
def pagePort (i : Instr) (s : State) : List Byte :=
  match i with
  | .writePage _ _ buf => buf
  | _ => s.page

/-- The state in which the dispatcher tests a host command (R106). -/
def accepted (i : Instr) (s : State) : State :=
  accept (commandWord i) { s with page := pagePort i s }

/-- A host command that SEQ is not ready for waits at the port. -/
theorem exec_command_not_ready {i : Instr} {s : State} (hi : isHostCommand i = true)
    (h : cmdReady s = false) : exec i s = .next s := by
  cases i <;> simp only [isHostCommand, Bool.false_eq_true] at hi
  case writePage rsv arg buf => exact exec_writePage_not_ready rsv arg buf h
  all_goals exact issue_not_ready h

/-- A host command that SEQ is ready for is dispatched to its first label (R105, R106, R109). -/
theorem exec_command {i : Instr} {s : State} (hi : isHostCommand i = true) (h : cmdReady s = true) :
    exec i s = run (budget s) (dispatch (firstLabel (cwOp (commandWord i))) (accepted i s)) := by
  cases i <;> simp only [isHostCommand, Bool.false_eq_true] at hi
  case writePage rsv arg buf =>
    rw [exec, execWritePage, if_pos h, issue, if_pos (by exact h)]
    simp [commandWord, firstLabel, accepted, pagePort, budget]
  all_goals
    simp only [commandWord, cwOp_mkCommandWord]
    exact if_pos h

/-- The first label of a command is a line of it. -/
theorem firstLabel_job {i : Instr} (hi : isHostCommand i = true) :
    (firstLabel (cwOp (commandWord i))).job = .command (cwOp (commandWord i)) := by
  cases i <;> simp only [isHostCommand, Bool.false_eq_true] at hi <;>
    simp [commandWord, firstLabel]

theorem firstLabel_ne_idle {i : Instr} (hi : isHostCommand i = true) :
    firstLabel (cwOp (commandWord i)) ≠ .idle := by
  intro h
  have hj := firstLabel_job hi
  rw [h] at hj
  cases hj

/-- What a host command can do: wait at the port, be answered PROTOCOL, or run from its first label. -/
theorem exec_command_cases {i : Instr} {s t : State} (hi : isHostCommand i = true)
    (h : exec i s = .next t) :
    (cmdReady s = false ∧ t = s) ∨
      (cmdReady s = true ∧ admits (cwOp (commandWord i)) s.rda = false ∧
        t = respondAny .protocol (accepted i s)) ∨
      (cmdReady s = true ∧ admits (cwOp (commandWord i)) s.rda = true ∧
        run (budget s) (goto (firstLabel (cwOp (commandWord i))) (accepted i s)) = .next t) := by
  cases hc : cmdReady s
  · rw [exec_command_not_ready hi hc] at h
    cases h
    exact .inl ⟨rfl, rfl⟩
  · rw [exec_command hi hc] at h
    cases hg : admits (cwOp (commandWord i)) s.rda
    · rw [dispatch_refused _ hg, run_idle _ rfl] at h
      cases h
      exact .inr (.inl ⟨rfl, rfl, rfl⟩)
    · rw [dispatch_admitted _ hg] at h
      exact .inr (.inr ⟨rfl, rfl, h⟩)

/-- The frame of a wire row (R88). -/
def wireFrame : Instr → WireFrame
  | .wPageProgram page data =>
    ⟨.pageProgram, page.extractLsb' 8 8 :: page.extractLsb' 0 8 :: 0x00 :: data⟩
  | .wReadData a n => ⟨.readData, addrHigh a :: addrMid a :: addrLow a :: List.replicate n Config.dummy⟩
  | .wWriteDisable => ⟨.writeDisable, []⟩
  | .wReadStatus1 => ⟨.readStatus, [Config.dummy]⟩
  | .wWriteEnable => ⟨.writeEnable, []⟩
  | .wSectorErase4k a => ⟨.sectorErase, [addrHigh a, addrMid a, addrLow a]⟩
  | .wChipErase => ⟨.chipErase, []⟩
  | .wReadIdentification => ⟨.readId, [Config.dummy, Config.dummy, Config.dummy]⟩
  | _ => ⟨.writeDisable, []⟩

/-- A well-formed wire row sends its frame. -/
theorem exec_wire {i : Instr} (s : State) (hi : isHostCommand i = false) (hwf : i.wellFormed = true) :
    exec i s = sendFrame (wireFrame i) s := by
  cases i <;> simp only [isHostCommand, Bool.true_eq_false] at hi
  case wPageProgram page data => exact if_pos (by simpa [Instr.wellFormed] using hwf)
  all_goals rfl

/-- A wire row that goes on has sent its frame. -/
theorem exec_wire_next {i : Instr} {s t : State} (hi : isHostCommand i = false) (h : exec i s = .next t) :
    sendFrame (wireFrame i) s = .next t := by
  refine (exec_wire s hi ?_).symm.trans h
  cases i <;> simp only [isHostCommand, Bool.true_eq_false] at hi
  case wPageProgram page data =>
    by_contra hlen
    have hrefused : exec (.wPageProgram page data) s = .refused .frameShape :=
      if_neg (by simpa [Instr.wellFormed] using hlen)
    rw [hrefused] at h
    cases h
  all_goals rfl

/-! ## The command port, the parameters, the clock and the trace -/

/-- What no instruction changes, or only takes further (R30, R37, R118, R190). -/
structure Extends (s t : State) : Prop where
  par   : t.par = s.par
  host  : t.host = s.host
  clock : s.clk.now ≤ t.clk.now
  trace : ∃ es, t.trace = s.trace ++ es

theorem Extends.refl (s : State) : Extends s s := ⟨rfl, rfl, le_rfl, [], (List.append_nil _).symm⟩

theorem Extends.trans {s t u : State} (h : Extends s t) (h' : Extends t u) : Extends s u := by
  obtain ⟨es, hes⟩ := h.trace
  obtain ⟨fs, hfs⟩ := h'.trace
  exact ⟨h'.par.trans h.par, h'.host.trans h.host, h.clock.trans h'.clock, es ++ fs,
    by rw [hfs, hes, List.append_assoc]⟩

theorem run_extends {n : Nat} {s t : State} (h : run n s = .next t) : Extends s t := by
  refine run_preserves (P := Extends s) ?_ ?_ ?_ ?_ h (Extends.refl s)
  · exact fun u _ _ hu => hu.trans ⟨rfl, rfl, le_rfl, [.reset], rfl⟩
  · exact fun u hu => hu.trans ⟨rfl, rfl, le_rfl, [], (List.append_nil _).symm⟩
  · intro u v _ hl hu
    have hf := line_frame hl
    exact hu.trans ⟨hf.par, hf.host, hf.clock, hf.trace⟩
  · exact fun u o hu => hu.trans ⟨rfl, rfl, le_rfl, [], (List.append_nil _).symm⟩

theorem exec_extends {i : Instr} {s t : State} (h : exec i s = .next t) : Extends s t := by
  cases hi : isHostCommand i
  · rcases sendFrame_cases (wireFrame i) s with ⟨-, hrun⟩ | ⟨-, hsame⟩
    · have hbegin : Extends s (beginFrame (wireFrame i) s) :=
        ⟨rfl, rfl, le_rfl, [], (List.append_nil _).symm⟩
      exact hbegin.trans (run_extends (hrun.symm.trans (exec_wire_next hi h)))
    · cases hsame.symm.trans (exec_wire_next hi h)
      exact Extends.refl s
  · have haccept : Extends s (accepted i s) := ⟨rfl, rfl, le_rfl, [.command _], rfl⟩
    rcases exec_command_cases hi h with ⟨-, rfl⟩ | ⟨-, -, rfl⟩ | ⟨-, -, hrun⟩
    · exact Extends.refl t
    · exact haccept.trans ⟨rfl, rfl, le_rfl, [.response _ _], rfl⟩
    · have hgoto : ∀ p, Extends (accepted i s) (goto p (accepted i s)) := fun p =>
        ⟨rfl, rfl, le_rfl, [], (List.append_nil _).symm⟩
      exact (haccept.trans (hgoto _)).trans (run_extends hrun)

/-- Settles O53: every line, the reset event, acceptance and the beginning of a frame extend the state. -/
theorem parametersAndTraceArePreserved : Obligations.ParametersAndTraceArePreserved := fun _ _ _ h =>
  let ⟨hpar, hhost, hclock, htrace⟩ := exec_extends h
  ⟨hpar, hhost, hclock, htrace⟩

theorem step_in_flight {s : State} (hr : rstNow s = false) (hp : s.ph ≠ .idle) : step s = resume s := by
  simp [step, hr, hp]

/-- Settles O14: a step in flight is a reset or a run, and neither takes from the port; and a SEQ in flight is
not ready. -/
theorem presentedCommandWaits : Obligations.PresentedCommandWaits := by
  constructor
  · intro s t hp h
    cases hr : rstNow s
    · rw [step_in_flight hr hp] at h
      exact (run_extends h).host
    · cases (step_reset hr).symm.trans h
      rfl
  · exact fun s i hwf hp => exec_not_ready hwf (by simp [cmdReady, hp])

/-! ## One response per command -/

/-- How far the answer to a command has come, of a state in whose trace `n` responses stood before. -/
def Answering (n : Nat) (u : State) : Prop :=
  (∀ f, u.ph.job ≠ .frame f) ∧
    if u.ph = .idle then responses u.trace = n + 1 ∧ u.rsp.valid = true else responses u.trace = n

theorem line_answering {n : Nat} {s t : State} (hp : s.ph ≠ .idle) (hl : line s = .go t)
    (h : Answering n s) : Answering n t := by
  have hf := line_frame hl
  obtain ⟨hjob, hcount⟩ := h
  rw [if_neg hp] at hcount
  refine ⟨?_, ?_⟩
  · rcases hf.job with ht | ht
    · simp [ht]
    · rw [ht]
      exact hjob
  · split
    · rename_i ht
      rw [← hcount]
      exact hf.ends ht hjob
    · rename_i ht
      rw [← hcount]
      exact (hf.quiet (.inl ht)).1

/-- A host command that is run from its first label and comes to IDLE has responded once. -/
theorem run_command_answers {i : Instr} {n : Nat} {s t : State} (hi : isHostCommand i = true)
    (hr : s.rstIn = []) (h : run n (goto (firstLabel (cwOp (commandWord i))) (accepted i s)) = .next t)
    (ht : t.ph = .idle) : responses t.trace = responses s.trace + 1 ∧ t.rsp.valid = true := by
  have hdone : Answering (responses s.trace) t := by
    refine run_preserves_quiet (P := Answering (responses s.trace)) ?_ ?_ h (by simp [accepted, hr]) ?_
    · exact fun u v hp hl hu => line_answering hp hl hu
    · exact fun u o hu => hu
    · refine ⟨by simp [firstLabel_job hi], ?_⟩
      simp [firstLabel_ne_idle hi, accepted]
  have hanswer := hdone.2
  rwa [if_pos ht] at hanswer

/-- Settles O54: a refused command responds at once, and of an admitted one only the line that ends it
responds. -/
theorem oneResponsePerCommand : Obligations.OneResponsePerCommand := by
  intro s t i hready hi h ht
  have hanswer : responses t.trace = responses s.trace + 1 ∧ t.rsp.valid = true := by
    rcases exec_command_cases hi h with ⟨hc, -⟩ | ⟨-, -, rfl⟩ | ⟨-, -, hrun⟩
    · rw [cmdReady_of_ready hready] at hc
      cases hc
    · simp [accepted]
    · exact run_command_answers hi hready.2 hrun ht
  refine ⟨hanswer.1, hanswer.2, ?_⟩
  simp [State.final, ht, hanswer.2, (exec_extends h).host]

/-! ## The frame of the registers -/

/-- What a quiet run of a job leaves as it was: the registers its lines do not write, and its job. -/
structure JobFrame (j : Job) (s t : State) : Prop where
  job   : t.ph = .idle ∨ t.ph.job = j
  page  : t.page = s.page
  latch : (∃ f, j = .frame f) → t.op = s.op ∧ t.arg = s.arg ∧ t.rsp = s.rsp
  cap   : j ≠ .command 0x1 → t.cap = s.cap
  rda   : j ≠ .command 0x8 → j ≠ .command 0xA → t.rda = s.rda
  ident : j ≠ .command 0x1 → (∀ f, j = .frame f → f.row ≠ .readId) → t.ident = s.ident
  cnt   : j ≠ .command 0x7 → t.cnt = s.cnt
  timer : j.waits = false → t.tmo = s.tmo ∧ t.t0 = s.t0 ∧ t.clk = s.clk
  res   : j.tests = false → t.res = s.res
  sr    : j.tests = false → (∀ f, j = .frame f → f.row ≠ .readStatus) → t.sr = s.sr

theorem JobFrame.refl {j : Job} {s : State} (h : s.ph = .idle ∨ s.ph.job = j) : JobFrame j s s :=
  ⟨h, rfl, fun _ => ⟨rfl, rfl, rfl⟩, fun _ => rfl, fun _ _ => rfl, fun _ _ => rfl, fun _ => rfl,
    fun _ => ⟨rfl, rfl, rfl⟩, fun _ => rfl, fun _ _ => rfl⟩

theorem JobFrame.line {j : Job} {s u v : State} (h : JobFrame j s u) (hp : u.ph ≠ .idle)
    (hl : line u = .go v) : JobFrame j s v := by
  have hf := line_frame hl
  have hj : u.ph.job = j := h.job.resolve_left hp
  subst hj
  refine ⟨hf.job, hf.page.trans h.page, fun hfr => ?_, fun h1 => (hf.cap h1).trans (h.cap h1),
    fun h8 hA => (hf.rda h8 hA).trans (h.rda h8 hA), fun h1 hid => (hf.ident h1 hid).trans (h.ident h1 hid),
    fun h7 => (hf.cnt h7).trans (h.cnt h7), fun hw => ?_, fun ht => (hf.res ht).trans (h.res ht),
    fun ht hst => (hf.sr ht hst).trans (h.sr ht hst)⟩
  · obtain ⟨hop, harg, hrsp⟩ := h.latch hfr
    exact ⟨hf.op.trans hop, hf.arg.trans harg, (hf.rsp hfr).trans hrsp⟩
  · obtain ⟨htmo, ht0, hclk⟩ := h.timer hw
    obtain ⟨htmo', ht0', hclk'⟩ := hf.timer hw
    exact ⟨htmo'.trans htmo, ht0'.trans ht0, hclk'.trans hclk⟩

theorem run_jobFrame {n : Nat} {s t : State} (h : run n s = .next t) (hr : s.rstIn = []) :
    JobFrame s.ph.job s t := by
  refine run_preserves_quiet (P := JobFrame s.ph.job s) ?_ ?_ h hr (.refl (.inr rfl))
  · exact fun u v hp hl hu => hu.line hp hl
  · exact fun u o hu => ⟨hu.job, hu.page, hu.latch, hu.cap, hu.rda, hu.ident, hu.cnt, hu.timer, hu.res, hu.sr⟩

/-- How many lines a frame by itself still has to run. -/
def frameLinesLeft : Phase → Nat
  | .frame f .start => f.operands.length + 3
  | .frame f .opcode => f.operands.length + 2
  | .frame _ (.operands left _) => left.length + 1
  | _ => 0

theorem line_frameLinesLeft {f : WireFrame} {s t : State} (hj : s.ph.job = .frame f) (hl : line s = .go t) :
    t.ph = .idle ∨ t.ph.job = .frame f ∧ frameLinesLeft t.ph < frameLinesLeft s.ph := by
  have hgoes : (line s).Goes
      (fun t => t.ph = .idle ∨ t.ph.job = .frame f ∧ frameLinesLeft t.ph < frameLinesLeft s.ph) := by
    cases hp : s.ph <;> rw [hp] at hj <;> simp at hj
    case frame g l =>
      subst hj
      rcases l with _ | _ | ⟨_ | ⟨o, left⟩, received⟩ <;> simp [line, hp, lineFrame, frameLinesLeft]
      cases g.row <;> simp [keepReceived]
  exact Move.goes_iff.mp hgoes t hl

/-- A frame by itself comes to its end in one step of the machine, or waits for ENV (R69). -/
theorem sendFrame_ends {f : WireFrame} {s t : State} (hr : s.rstIn = []) (h : sendFrame f s = .next t) :
    t.ph = s.ph ∨ t.waiting = true := by
  rcases sendFrame_cases f s with ⟨hc, hrun⟩ | ⟨-, hsame⟩
  · have hend := run_ends (P := fun u => u.ph.job = .frame f) (μ := fun u => frameLinesLeft u.ph)
      (fun u v _ hl hj => line_frameLinesLeft hj hl) (hrun.symm.trans h) (by simp [beginFrame, hr]) rfl
      (by simp [beginFrame, frameLinesLeft, budget, Phase.frameLines])
    rcases hend with hidle | ⟨u, hp, -, hstands⟩
    · exact .inl (hidle.trans (cmdReady_idle hc).1.symm)
    · exact .inr (hstands.waiting hp)
  · cases hsame.symm.trans h
    exact .inl rfl

/-- With no reset to come, a host command leaves what its job leaves of the state it was accepted in. -/
theorem exec_command_jobFrame {i : Instr} {s t : State} (hi : isHostCommand i = true) (hr : s.rstIn = [])
    (h : exec i s = .next t) : t = s ∨ JobFrame (.command (cwOp (commandWord i))) (accepted i s) t := by
  rcases exec_command_cases hi h with ⟨-, rfl⟩ | ⟨-, -, rfl⟩ | ⟨-, -, hrun⟩
  · exact .inl rfl
  · exact .inr ⟨.inl rfl, rfl, fun ⟨_, hf⟩ => (by cases hf), fun _ => rfl, fun _ _ => rfl, fun _ _ => rfl,
      fun _ => rfl, fun _ => ⟨rfl, rfl, rfl⟩, fun _ => rfl, fun _ _ => rfl⟩
  · have hf := run_jobFrame hrun (by simp [accepted, hr])
    rw [goto_ph, firstLabel_job hi] at hf
    exact .inr ⟨hf.job, hf.page, fun ⟨_, h⟩ => (by cases h), hf.cap, hf.rda, hf.ident, hf.cnt, hf.timer, hf.res,
      hf.sr⟩

/-- With no reset to come, a wire row leaves what a frame by itself leaves. -/
theorem exec_wire_jobFrame {i : Instr} {s t : State} (hi : isHostCommand i = false) (hr : s.rstIn = [])
    (h : exec i s = .next t) : JobFrame (.frame (wireFrame i)) s t ∨ t = s := by
  rcases sendFrame_cases (wireFrame i) s with ⟨-, hrun⟩ | ⟨-, hsame⟩
  · have hf := run_jobFrame (hrun.symm.trans (exec_wire_next hi h)) (by simp [beginFrame, hr])
    exact .inl ⟨hf.job, hf.page, hf.latch, hf.cap, hf.rda, hf.ident, hf.cnt, hf.timer, hf.res, hf.sr⟩
  · cases hsame.symm.trans (exec_wire_next hi h)
    exact .inr rfl

/-- Only the identification frame keeps its bytes in ID, only the status frame its byte in SR (R92). -/
theorem wireFrame_row_ne_readId {i : Instr} (h : i ≠ .wReadIdentification) : (wireFrame i).row ≠ .readId := by
  intro hrow
  refine h ?_
  cases i <;> first | rfl | cases hrow

theorem wireFrame_row_ne_readStatus {i : Instr} (h : i ≠ .wReadStatus1) : (wireFrame i).row ≠ .readStatus := by
  intro hrow
  refine h ?_
  cases i <;> first | rfl | cases hrow

/-- The registers a host command leaves as they were, row by row: the code of the row is compared with the
codes of the jobs that write them. -/
theorem jobFrame_clauses {i : Instr} {s t : State} (hi : isHostCommand i = true)
    (hf : JobFrame (.command (cwOp (commandWord i))) (accepted i s) t) :
    ((∀ r a, i ≠ .init r a) → t.cap = s.cap) ∧
    ((∀ r a, i ≠ .beginRead r a ∧ i ≠ .endRead r a) → t.rda = s.rda) ∧
    ((∀ r a, i ≠ .init r a) → t.ident = s.ident) ∧
    ((∀ r a b, i ≠ .writePage r a b) → t.cnt = s.cnt ∧ t.page = s.page) ∧
    ((∃ r a, i = .init r a ∨ i = .writeDisable r a ∨ i = .readNext r a ∨ i = .endRead r a) →
      t.tmo = s.tmo ∧ t.t0 = s.t0 ∧ t.res = s.res ∧ t.clk = s.clk ∧ t.sr = s.sr) ∧
    ((∃ r a, i = .writeEnable r a) → t.tmo = s.tmo ∧ t.t0 = s.t0 ∧ t.clk = s.clk) := by
  obtain ⟨-, hpage, -, hcap, hrda, hident, hcnt, htimer, hres, hsr⟩ := hf
  cases i <;> simp [isHostCommand] at hi <;>
    simp [commandWord, Job.waits, Job.tests, accepted, pagePort] at * <;> simp [*]

/-- Settles O52: each clause is one of the job's, by the code or the row of the instruction. -/
theorem registersWrittenOnlyByTheirCommands : Obligations.RegistersWrittenOnlyByTheirCommands := by
  intro s t i hr h
  cases hi : isHostCommand i
  · have hph := sendFrame_ends hr (exec_wire_next hi h)
    rcases exec_wire_jobFrame hi hr h with hf | rfl
    · have hsr : i ≠ .wReadStatus1 → t.sr = s.sr := fun hne =>
        hf.sr rfl (by rintro _ ⟨⟩; exact wireFrame_row_ne_readStatus hne)
      obtain ⟨htmo, ht0, hclk⟩ := hf.timer rfl
      obtain ⟨hop, harg, hrsp⟩ := hf.latch ⟨_, rfl⟩
      exact ⟨fun _ => hf.cap (by simp), fun _ => hf.rda (by simp) (by simp),
        fun _ hne => hf.ident (by simp) (by rintro _ ⟨⟩; exact wireFrame_row_ne_readId hne),
        fun _ => ⟨hf.cnt (by simp), hf.page⟩, fun _ => ⟨htmo, ht0, hf.res rfl, hclk, hsr⟩,
        fun _ => ⟨htmo, ht0, hclk⟩, fun _ => ⟨hop, harg, hrsp, hph⟩⟩
    · simp
  · rcases exec_command_jobFrame hi hr h with rfl | hf
    · simp
    · obtain ⟨hcap, hrda, hident, hcnt, hquiet, henable⟩ := jobFrame_clauses hi hf
      refine ⟨hcap, hrda, fun hne _ => hident hne, hcnt, fun hq => ?_, henable, by simp⟩
      obtain ⟨htmo, ht0, hres, hclk, hsr⟩ := hquiet (hq.resolve_right (by simp))
      exact ⟨htmo, ht0, hres, hclk, fun _ => hsr⟩

end Sys2Proof.Machine
end

section
/-! SUPPORT. The invariant through acceptance, the dispatcher, a run and a step of the machine
(spec/10_state.md R36). -/

namespace Sys2Proof.Machine

open Sys2Proof.Claims

/-! ## Runs -/

theorem State.Inv.sampled {s : State} (h : s.Inv) : (sampled s).Inv := ⟨h.rda, h.sel, h.trace, h.env, h.cap⟩

theorem State.Inv.presenting {s : State} (o : Byte) (h : s.Inv) : (presenting o s).Inv :=
  ⟨h.rda, h.sel, h.trace, h.env, h.cap⟩

theorem run_stop {s : State} {f : Fault} (n : Nat) (hp : s.ph ≠ .idle) (h : tick s = .stop f) :
    run (n + 1) s = .fault f := by
  simp [run, hp, h]

theorem run_inv {n : Nat} {s t : State} (h : run n s = .next t) (hs : s.Inv) : t.Inv :=
  run_preserves (P := State.Inv) (fun _ _ _ hu => takeReset_inv hu) (fun _ hu => hu.sampled)
    (fun _ _ _ hl hu => line_inv hu hl) (fun _ o hu => hu.presenting o) h hs

/-- No step of SEQ performs a primitive out of place. -/
theorem tick_ne_stop {s : State} (f : Fault) (h : s.Inv) : tick s ≠ .stop f := by
  rcases tick_cases s with ⟨-, hgo⟩ | ⟨-, hgo⟩
  · rw [hgo]
    exact fun hstop => nomatch hstop
  · rw [hgo]
    exact line_ne_stop (s := sampled s) f h.sampled

theorem tick_go_inv {s t : State} (h : tick s = .go t) (hs : s.Inv) : t.Inv := by
  rcases tick_cases s with ⟨-, hgo⟩ | ⟨-, hgo⟩
  · cases hgo.symm.trans h
    exact takeReset_inv hs
  · exact line_inv (s := sampled s) hs.sampled (hgo.symm.trans h)

theorem tick_wait_inv {s t : State} (h : tick s = .wait t) (hs : s.Inv) : t.Inv := by
  rcases tick_cases s with ⟨-, hgo⟩ | ⟨-, hgo⟩
  · cases hgo.symm.trans h
  · exact line_wait_inv (s := sampled s) hs.sampled (hgo.symm.trans h)

/-- From a state that meets the invariant a run goes on. -/
theorem run_next {n : Nat} {s : State} (h : s.Inv) : ∃ t, run n s = .next t :=
  run_no_fault (P := State.Inv) (fun _ _ _ ht hs => tick_go_inv ht hs) (fun _ _ _ ht hs => tick_wait_inv ht hs)
    (fun _ f _ hs => tick_ne_stop f hs) h

/-! ## Acceptance and the dispatcher -/

/-- Idle, the bus is released, or a read frame is open with RDA (R36). -/
theorem State.Inv.idle {s : State} (h : s.Inv) (hp : s.ph = .idle) :
    (s.rda = false ∧ Agree .released s) ∨ (s.rda = true ∧ Agree (.inFrame Config.opReadData) s) := by
  have ha := (inv_iff.mp h).2
  rw [hp] at ha
  cases hr : s.rda <;> rw [hr] at ha
  · exact .inl ⟨rfl, ha⟩
  · exact .inr ⟨rfl, ha⟩

theorem accept_inv {s : State} (cw : Word) (h : s.Inv) (hp : s.ph = .idle) : (accept cw s).Inv := by
  have haccept : ∀ b, Agree b s → Agree b (accept cw s) := fun b ha =>
    ⟨ha.sel, by rw [accept_trace, busAfter_snoc ha.trace]; cases b <;> rfl, ha.env, ha.cap⟩
  rcases h.idle hp with ⟨hr, ha⟩ | ⟨hr, ha⟩
  all_goals exact inv_at (haccept _ ha) hp rfl (by rw [accept_rda, hr]; rfl) rfl rfl rfl rfl

theorem accepted_inv {i : Instr} {s : State} (h : s.Inv) (hp : s.ph = .idle) : (accepted i s).Inv :=
  accept_inv (s := { s with page := pagePort i s }) _ ⟨h.rda, h.sel, h.trace, h.env, h.cap⟩ hp

theorem respondAny_idle_inv {s : State} (st : Status) (h : s.Inv) (hp : s.ph = .idle) :
    (respondAny st s).Inv := by
  rcases h.idle hp with ⟨hr, ha⟩ | ⟨hr, ha⟩
  · exact respondAny_inv st hr ha
  · exact respondAny_inv_open st hr ha

/-- What the guard admits stands at its first label with the bus as that label has it (R108, R109). -/
theorem firstLabel_bus {i : Instr} {rda : Bool} (hi : isHostCommand i = true)
    (hg : admits (cwOp (commandWord i)) rda = true) :
    rda = rdaAt rda (firstLabel (cwOp (commandWord i))) ∧
      busAt rda (firstLabel (cwOp (commandWord i))) = busAt rda .idle := by
  cases rda <;> cases i <;> simp [isHostCommand] at hi <;> simp [commandWord, admits] at hg <;>
    simp [commandWord, firstLabel, rdaAt, busAt]

theorem goto_firstLabel_inv {i : Instr} {s : State} (hi : isHostCommand i = true) (h : s.Inv)
    (hp : s.ph = .idle) (hg : admits (cwOp (commandWord i)) s.rda = true) :
    (goto (firstLabel (cwOp (commandWord i))) s).Inv := by
  obtain ⟨hr, hb⟩ := firstLabel_bus hi hg
  have ha := (inv_iff.mp h).2
  rw [hp] at ha
  exact inv_at ha rfl hr hb rfl rfl rfl rfl

theorem exec_command_inv {i : Instr} {s t : State} (hi : isHostCommand i = true) (h : s.Inv)
    (he : exec i s = .next t) : t.Inv := by
  rcases exec_command_cases hi he with ⟨-, rfl⟩ | ⟨hc, -, rfl⟩ | ⟨hc, hg, hrun⟩
  · exact h
  · exact respondAny_idle_inv _ (accepted_inv h (cmdReady_idle hc).1) (cmdReady_idle hc).1
  · exact run_inv hrun (goto_firstLabel_inv hi (accepted_inv h (cmdReady_idle hc).1) (cmdReady_idle hc).1 hg)

/-- Settles O57: a refused command responds, an admitted one is a run, and neither leaves the invariant. -/
theorem commandsNeverStop : Obligations.CommandsNeverStop := by
  intro s i h hi
  have hnext : ∃ t, exec i s = .next t := by
    cases hc : cmdReady s
    · exact ⟨s, exec_command_not_ready hi hc⟩
    rw [exec_command hi hc]
    have hp := (cmdReady_idle hc).1
    cases hg : admits (cwOp (commandWord i)) s.rda
    · exact ⟨_, by rw [dispatch_refused _ hg, run_idle _ rfl]⟩
    · rw [dispatch_admitted _ hg]
      exact run_next (goto_firstLabel_inv hi (accepted_inv h hp) hp hg)
  obtain ⟨t, ht⟩ := hnext
  exact ⟨t, ht, exec_command_inv hi h ht⟩

/-! ## A frame by itself -/

/-- The reset event leaves a state that meets the invariant, whatever the phase was (R200). -/
theorem takeReset_inv_of_agree {b : Bus} {s : State} (h : Agree b s) : (takeReset s).Inv := by
  have henv : envAgrees .released (if s.sel then s.env.deselect else s.env) = true := by
    have hsel := h.sel
    have he := h.env
    cases b <;> simp at hsel <;> simp only [hsel]
    · exact he
    all_goals exact envAgrees_deselect he
  refine ⟨rfl, rfl, ?_, ?_, rfl⟩
  · rw [takeReset_trace, busAfter_snoc h.trace]
    cases b <;> rfl
  · show envAgrees .released (resetEnv s) = true
    unfold resetEnv
    simp only
    split
    · exact henv
    · exact envAgrees_abandon _ henv

theorem beginFrame_budget (f : WireFrame) (s : State) : ∃ n, budget (beginFrame f s) = n + 1 :=
  ⟨budget (beginFrame f s) - 1, by unfold budget; omega⟩

/-- A frame by itself that begins in a read session is cut by a reset or stops: it never goes on (R87). -/
theorem run_beginFrame_session {f : WireFrame} {s t : State} (hs : s.sel = true)
    (h : run (budget (beginFrame f s)) (beginFrame f s) = .next t) : t = takeReset (beginFrame f s) := by
  obtain ⟨n, hn⟩ := beginFrame_budget f s
  rw [hn] at h
  rcases tick_cases (beginFrame f s) with ⟨-, hgo⟩ | ⟨-, hgo⟩
  · rw [run_go n (by simp [beginFrame]) hgo, run_idle n rfl] at h
    cases h
    rfl
  · have hstop : tick (beginFrame f s) = .stop .selectWhileSelected := by
      rw [hgo]
      simp [line, beginFrame, lineFrame, select, hs]
    rw [run_stop n (by simp [beginFrame]) hstop] at h
    cases h

theorem sendFrame_inv {f : WireFrame} {s t : State} (h : s.Inv) (hf : sendFrame f s = .next t) : t.Inv := by
  rcases sendFrame_cases f s with ⟨hc, hrun⟩ | ⟨-, hsame⟩
  · have hrun := hrun.symm.trans hf
    rcases h.idle (cmdReady_idle hc).1 with ⟨hr, ha⟩ | ⟨-, ha⟩
    · exact run_inv hrun (inv_at (s := s) ha rfl hr rfl rfl rfl rfl rfl)
    · rw [run_beginFrame_session ha.sel hrun]
      exact takeReset_inv_of_agree (ha.same (t := beginFrame f s) rfl rfl rfl rfl)
  · cases hsame.symm.trans hf
    exact h

/-! ## A step of the machine -/

theorem exec_inv {i : Instr} {s t : State} (h : s.Inv) (he : exec i s = .next t) : t.Inv := by
  cases hi : isHostCommand i
  · exact sendFrame_inv h (exec_wire_next hi he)
  · exact exec_command_inv hi h he

theorem issueIllegal_inv {cw : Word} {s t : State} (h : s.Inv) (he : issueIllegal cw s = .next t) : t.Inv := by
  cases hc : cmdReady s <;> simp only [issueIllegal, hc, if_true, Bool.false_eq_true, if_false] at he <;> cases he
  · exact h
  · exact respondAny_idle_inv _ (accept_inv cw h (cmdReady_idle hc).1) (cmdReady_idle hc).1

/-- Settles O56: a reset, an idle step, an instruction, an illegal code and a command taken further each keep
the invariant. -/
theorem stepKeepsInvariant : Obligations.StepKeepsInvariant := by
  intro s t h hstep
  have htaken : ∀ rest, ({ s with host := rest } : State).Inv := fun _ => ⟨h.rda, h.sel, h.trace, h.env, h.cap⟩
  rcases step_cases hstep with ⟨-, rfl⟩ | ⟨-, -, -, rfl⟩ | ⟨-, -, r, rest, i, -, -, he⟩ |
    ⟨-, -, cw, buf, rest, op, -, -, he⟩ | ⟨-, -, he⟩
  · exact takeReset_inv h
  · exact h.sampled
  · exact exec_inv (htaken rest) he
  · exact issueIllegal_inv (htaken rest) he
  · exact run_inv he h

end Sys2Proof.Machine
end

section
/-! SUPPORT. The write-enable guard on erase and program frames: the guard's open frame is the one on the bus,
and every line of a host command keeps the grant its phase needs (spec/44_erase.md R154,
spec/43_write_enable.md R148). -/

namespace Sys2Proof.Machine

open Sys2Proof.Claims

/-! ## The guard over a trace -/

theorem guardFrom_append (g : GuardState) (t u : List Event) :
    guardFrom g (t ++ u) = (guardFrom g t).bind fun g' => guardFrom g' u := by
  induction t generalizing g with
  | nil => rfl
  | cons e t ih =>
    simp only [List.cons_append, guardFrom]
    cases guardStep g e <;> simp [ih]

@[simp] theorem guardStep_select (g : GuardState) : guardStep g .select = some { g with cur := [] } := rfl
@[simp] theorem guardStep_deselect (g : GuardState) :
    guardStep g .deselect = some { grant := grantAfter g.grant g.cur, cur := [] } := rfl
@[simp] theorem guardStep_reset (g : GuardState) : guardStep g .reset = some { grant := .no, cur := [] } := rfl
@[simp] theorem guardStep_time (g : GuardState) (t : Word) : guardStep g (.time t) = some g := rfl
@[simp] theorem guardStep_delay (g : GuardState) (d : Word) : guardStep g (.delay d) = some g := rfl
@[simp] theorem guardStep_command (g : GuardState) (cw : Word) : guardStep g (.command cw) = some g := rfl
@[simp] theorem guardStep_response (g : GuardState) (st : Status) (v : Word) :
    guardStep g (.response st v) = some g := rfl

/-- The opcodes that only a confirmed grant lets open a frame (R154). -/
def isStoreOpcode (o : Byte) : Bool :=
  o = Config.opChipErase || o = Config.opSectorErase || o = Config.opPageProgram

theorem guardStep_xfer (g : GuardState) (o i : Byte) : guardStep g (.xfer o i) =
    if g.cur = [] && isStoreOpcode o && g.grant ≠ .confirmed then none
    else some { g with cur := g.cur ++ [(o, i)] } := rfl

@[simp] theorem isStoreOpcode_readId : isStoreOpcode Config.opReadId = false := rfl
@[simp] theorem isStoreOpcode_readStatus : isStoreOpcode Config.opReadStatus = false := rfl
@[simp] theorem isStoreOpcode_writeEnable : isStoreOpcode Config.opWriteEnable = false := rfl
@[simp] theorem isStoreOpcode_writeDisable : isStoreOpcode Config.opWriteDisable = false := rfl
@[simp] theorem isStoreOpcode_readData : isStoreOpcode Config.opReadData = false := rfl

/-! ## The open frame, by the bus -/

/-- The exchanges of the open frame begin with the opcode that the bus shows. -/
def frameFits : Bus → List (Byte × Byte) → Prop
  | .released, cur => cur = []
  | .opened, cur => cur = []
  | .inFrame op, cur => ∃ i rest, cur = (op, i) :: rest

/-- Bus and guard read the same events, so the guard's open frame is the one on the bus. -/
theorem frameFits_step {b b' : Bus} {g g' : GuardState} {e : Event} (h : frameFits b g.cur)
    (hb : busStep b e = some b') (hg : guardStep g e = some g') : frameFits b' g'.cur := by
  cases e with
  | select =>
    simp only [guardStep_select, Option.some.injEq] at hg
    simp only [busStep, Option.ite_none_right_eq_some, Option.some.injEq] at hb
    obtain ⟨-, rfl⟩ := hb
    subst hg
    rfl
  | deselect =>
    simp only [guardStep_deselect, Option.some.injEq] at hg
    subst hg
    cases b <;> cases hb
    rfl
  | xfer o i =>
    rw [guardStep_xfer] at hg
    split at hg
    · cases hg
    · cases hg
      cases b with
      | released => cases hb
      | opened =>
        simp only [busStep, Option.ite_none_right_eq_some, Option.some.injEq] at hb
        obtain ⟨-, rfl⟩ := hb
        rw [show g.cur = [] from h]
        exact ⟨i, [], rfl⟩
      | inFrame op =>
        cases hb
        obtain ⟨j, rest, hcur⟩ := h
        exact ⟨j, rest ++ [(o, i)], by rw [hcur]; rfl⟩
  | time | command | response =>
    cases hb
    cases hg
    exact h
  | delay =>
    cases hg
    cases b <;> cases hb
    exact h
  | reset =>
    cases hg
    cases hb
    rfl

theorem frameFits_from {t : List Event} {b b' : Bus} {g g' : GuardState} (h : frameFits b g.cur)
    (hb : busFrom b t = some b') (hg : guardFrom g t = some g') : frameFits b' g'.cur := by
  induction t generalizing b g with
  | nil =>
    cases hb
    cases hg
    exact h
  | cons e t ih =>
    simp only [busFrom, guardFrom] at hb hg
    cases hbe : busStep b e <;> simp only [hbe, reduceCtorEq] at hb
    cases hge : guardStep g e <;> simp only [hge, reduceCtorEq] at hg
    exact ih (frameFits_step h hbe hge) hb hg

/-! ## The grant, by the phase -/

/-- The grant the guard must hold at each phase: the second half of `guardAt`. -/
def grantAt (p : Phase) (sr : Byte) (g : GuardState) : Bool :=
  match p with
  | .inEnable _ .v2 => g.cur.length == 1
  | .inEnable _ .v3 => g.grant == .enabled
  | .inEnable _ .v4 => g.grant == .enabled
  | .inEnable _ .v5 => g.grant == .enabled && g.cur.length == 1
  | .inEnable _ .v6 => g.grant == .enabled && g.cur.length == 2 && (g.cur.getLast?.map (·.2)) == some sr
  | .inEnable _ .v7 => !writeEnabledBit sr || g.grant == .confirmed
  | .eraseChip .c2 => g.grant == .confirmed
  | .eraseChip .c3 => g.grant == .confirmed
  | .eraseSector .s3 => g.grant == .confirmed
  | .eraseSector .s4 => g.grant == .confirmed
  | .writePage .p3 => g.grant == .confirmed
  | .writePage .p4 => g.grant == .confirmed
  | .frame _ _ => false
  | _ => true

theorem guardAt_iff {s : State} {g : GuardState} :
    guardAt s g = true ↔ frameFits (busAt s.rda s.ph) g.cur ∧ grantAt s.ph s.sr g = true := by
  obtain ⟨grant, cur⟩ := g
  have hfits : (match busAt s.rda s.ph with
      | .released => cur.isEmpty
      | .opened => cur.isEmpty
      | .inFrame op => (cur.head?.map (·.1)) == some op) = true ↔ frameFits (busAt s.rda s.ph) cur := by
    cases busAt s.rda s.ph <;> cases cur <;> simp [frameFits]
    rename_i op head rest
    obtain ⟨o, i⟩ := head
    simp
  rw [← hfits, ← Bool.and_eq_true]
  rfl

/-- In a state that meets the invariant the guard's open frame is the one its phase has. -/
theorem frameFits_after {s : State} {g : GuardState} (h : s.Inv)
    (hg : guardFrom { grant := .no, cur := [] } s.trace = some g) : frameFits (busAt s.rda s.ph) g.cur :=
  frameFits_from (b := .released) (g := { grant := .no, cur := [] }) rfl h.trace hg

/-- The guard holds over the trace, and the grant is the one the phase needs. -/
def Granted (s : State) : Prop :=
  ∃ g, guardFrom { grant := .no, cur := [] } s.trace = some g ∧ grantAt s.ph s.sr g = true

theorem guardInv_iff {s : State} (h : s.Inv) : s.GuardInv ↔ Granted s := by
  constructor
  · rintro ⟨g, hg, hat⟩
    exact ⟨g, hg, (guardAt_iff.mp hat).2⟩
  · rintro ⟨g, hg, hat⟩
    exact ⟨g, hg, guardAt_iff.mpr ⟨frameFits_after h hg, hat⟩⟩

theorem ne_nil_of_frameFits {op : Byte} {cur : List (Byte × Byte)} (h : frameFits (.inFrame op) cur) : cur ≠ [] := by
  obtain ⟨i, rest, rfl⟩ := h
  simp

/-- The frame of one exchange is the opcode alone. -/
theorem eq_singleton_of_frameFits {op : Byte} {cur : List (Byte × Byte)} (h : frameFits (.inFrame op) cur)
    (hlen : cur.length = 1) : ∃ i, cur = [(op, i)] := by
  obtain ⟨i, rest, rfl⟩ := h
  exact ⟨i, by simpa using hlen⟩

/-- The lines of WriteEnable: the enable frame leaves the grant `enabled`, the one status frame right after it
confirms it where bit 1 is set, and the return passes to its caller only then (R145, R148). -/
theorem lineEnable_granted {s : State} {c : EnableSite} {l : EnableLabel} {g : GuardState}
    (hp : s.ph = .inEnable c l) (hg : guardFrom { grant := .no, cur := [] } s.trace = some g)
    (hfits : frameFits (busAt s.rda s.ph) g.cur) (hat : grantAt s.ph s.sr g = true) :
    (lineEnable c l s).Goes Granted := by
  obtain ⟨grant, cur⟩ := g
  rw [hp] at hfits hat
  cases l with
  | v0 | v3 =>
    simp [grantAt] at hat
    simp [lineEnable]
    intros
    simp [Granted, guardFrom_append, guardFrom, hg, grantAt, hat]
  | v1 | v4 =>
    have hcur : cur = [] := hfits
    simp [grantAt] at hat
    simp [lineEnable]
    intros
    simp [Granted, guardFrom_append, guardFrom, hg, guardStep_xfer, grantAt, hcur, hat]
  | v2 =>
    obtain ⟨i, rfl⟩ := eq_singleton_of_frameFits hfits (by simpa [grantAt] using hat)
    simp [lineEnable]
    intros
    simp [Granted, guardFrom_append, guardFrom, hg, grantAt, grantAfter]
  | v5 =>
    simp [grantAt] at hat
    obtain ⟨i, rfl⟩ := eq_singleton_of_frameFits hfits hat.2
    simp [lineEnable]
    intros
    simp [Granted, guardFrom_append, guardFrom, hg, guardStep_xfer, grantAt, hat]
  | v6 =>
    obtain ⟨i, rest, rfl⟩ := hfits
    simp [grantAt] at hat
    obtain ⟨⟨hgrant, hlen⟩, hlast⟩ := hat
    obtain ⟨⟨o, sr⟩, rfl⟩ := List.length_eq_one_iff.mp hlen
    simp [lineEnable]
    intros
    cases hw : writeEnabledBit s.sr <;>
      simp_all [Granted, guardFrom_append, guardFrom, grantAt, grantAfter]
  | v7 =>
    simp [grantAt] at hat
    cases hw : writeEnabledBit s.sr <;> cases c <;> simp [lineEnable, returnEnable, hw] <;>
      simp_all [Granted, guardFrom_append, guardFrom, grantAt]

/-- Every line of a host command keeps the guard. The grant is confirmed where an erase or page-program
frame opens, since only WriteEnable's return with bit 1 set leads there (R148, R154). -/
theorem line_granted {s t : State} (h : s.Inv) (hs : Granted s) (hl : line s = .go t) : Granted t := by
  obtain ⟨⟨grant, cur⟩, hg, hat⟩ := hs
  have hfits := frameFits_after h hg
  have hne : ∀ op, busAt s.rda s.ph = .inFrame op → cur ≠ [] := fun op hb => by
    rw [hb] at hfits
    exact ne_nil_of_frameFits hfits
  refine line_goes (Q := Granted) ?_ ?_ ?_ ?_ ?_ ?_ ?_ ?_ ?_ ?_ ?_ ?_ ?_ ?_ hl
  · intro l hp
    rw [hp] at hne
    cases l <;> simp [busAt] at hne <;> simp [lineInit] <;> intros <;>
      simp [Granted, guardFrom_append, guardFrom, hg, guardStep_xfer, grantAt, hne]
  · intro l hp
    cases l <;> simp [lineWaitReady, of_ite Granted] <;> simp [Granted, guardFrom_append, guardFrom, hg, grantAt]
  · intro l hp
    cases l <;> simp [lineWriteEnable, of_ite Granted] <;> simp [Granted, guardFrom_append, guardFrom, hg, grantAt]
  · intro l hp
    cases l <;> simp [lineWriteDisable] <;> simp [Granted, guardFrom_append, guardFrom, hg, grantAt]
  · intro l hp
    rw [hp] at hat
    cases l <;> simp [grantAt] at hat <;> simp [lineEraseChip] <;> intros <;>
      simp [Granted, guardFrom_append, guardFrom, hg, guardStep_xfer, grantAt, hat]
  · intro l hp
    rw [hp] at hne hat
    cases l <;> simp [busAt] at hne <;> simp [grantAt] at hat <;>
      simp [lineEraseSector, of_ite Granted] <;> intros <;>
      simp [Granted, guardFrom_append, guardFrom, hg, guardStep_xfer, grantAt, hne, hat]
  · intro l hp
    rw [hp] at hne hat
    cases l <;> simp [busAt] at hne <;> simp [grantAt] at hat <;>
      simp [lineWritePage, of_ite Granted] <;> intros <;>
      simp [Granted, guardFrom_append, guardFrom, hg, guardStep_xfer, grantAt, hne, hat, hp]
  · intro l hp
    rw [hp] at hne
    cases l <;> simp [busAt] at hne <;> simp [lineBeginRead, of_ite Granted] <;> intros <;>
      simp [Granted, guardFrom_append, guardFrom, hg, guardStep_xfer, grantAt, hne]
  · intro l hp
    rw [hp] at hne
    cases l <;> simp [busAt] at hne <;> simp [lineReadNext] <;> intros <;>
      simp [Granted, guardFrom_append, guardFrom, hg, guardStep_xfer, grantAt, hne]
  · intro l hp
    cases l <;> simp [lineEndRead, of_ite Granted] <;> intros <;>
      simp [Granted, guardFrom_append, guardFrom, hg, grantAt]
  · intro c l hp
    rw [hp] at hne
    cases l <;> simp [busAt] at hne <;>
      simp [lineWait, of_ite Granted] <;> intros
    case w5 | w6 =>
      cases c <;> simp [returnWait, passOrFail, passOrForget] <;>
        simp [Granted, guardFrom_append, guardFrom, hg, grantAt]
    all_goals
      simp [Granted, guardFrom_append, guardFrom, hg, guardStep_xfer, grantAt, hne]
  · exact fun c l hp => lineEnable_granted hp hg hfits hat
  · intro c l hp
    rw [hp] at hne
    cases l <;> simp [busAt] at hne <;>
      simp [lineDisable] <;> intros
    case u2 => 
      cases c <;> simp [Granted, guardFrom_append, guardFrom, hg, afterDisable, grantAt]
    all_goals
      simp [Granted, guardFrom_append, guardFrom, hg, guardStep_xfer, grantAt]
  · intro f l hp
    rw [hp] at hat
    cases hat

/-! ## Runs, commands and steps -/

/-- Events that do not touch the guard, at a phase that needs no grant. -/
theorem Granted.extend {s t : State} {e : Event} (h : Granted s) (ht : t.trace = s.trace ++ [e])
    (he : ∀ g, guardStep g e = some g) (hat : ∀ g, grantAt t.ph t.sr g = true) : Granted t := by
  obtain ⟨g, hg, -⟩ := h
  exact ⟨g, by simp [ht, guardFrom_append, hg, guardFrom, he], hat g⟩

theorem takeReset_granted {s : State} (h : Granted s) : Granted (takeReset s) := by
  obtain ⟨g, hg, -⟩ := h
  exact ⟨{ grant := .no, cur := [] }, by simp [guardFrom_append, hg, guardFrom], rfl⟩

theorem run_granted {n : Nat} {s t : State} (h : run n s = .next t) (hs : s.Inv) (hg : Granted s) : Granted t :=
  (run_preserves (P := fun u => u.Inv ∧ Granted u)
    (fun _ _ _ hu => ⟨takeReset_inv hu.1, takeReset_granted hu.2⟩)
    (fun _ hu => ⟨hu.1.sampled, hu.2⟩)
    (fun _ _ _ hl hu => ⟨line_inv hu.1 hl, line_granted hu.1 hu.2 hl⟩)
    (fun _ o hu => ⟨hu.1.presenting o, hu.2⟩) h ⟨hs, hg⟩).2

/-- No command begins at a line that opens an erase or page-program frame. -/
theorem grantAt_firstLabel {i : Instr} (hi : isHostCommand i = true) (sr : Byte) (g : GuardState) :
    grantAt (firstLabel (cwOp (commandWord i))) sr g = true := by
  cases i <;> simp [isHostCommand] at hi <;> simp [commandWord, firstLabel, grantAt]

theorem accept_granted {s : State} (cw : Word) (h : Granted s) (hp : s.ph = .idle) : Granted (accept cw s) :=
  h.extend rfl (fun _ => rfl) (fun _ => by rw [accept_ph, hp]; rfl)

theorem respondAny_granted {s : State} (st : Status) (h : Granted s) : Granted (respondAny st s) :=
  h.extend rfl (fun _ => rfl) (fun _ => rfl)

theorem exec_command_granted {i : Instr} {s t : State} (hi : isHostCommand i = true) (h : s.Inv)
    (hg : Granted s) (he : exec i s = .next t) : Granted t := by
  rcases exec_command_cases hi he with ⟨-, rfl⟩ | ⟨hc, -, rfl⟩ | ⟨hc, hadm, hrun⟩
  · exact hg
  all_goals
    have hp := (cmdReady_idle hc).1
    have haccepted : Granted (accepted i s) := accept_granted (s := { s with page := pagePort i s }) _ hg hp
  · exact respondAny_granted _ haccepted
  · refine run_granted hrun (goto_firstLabel_inv hi (accepted_inv h hp) hp hadm) ?_
    obtain ⟨g, hg, -⟩ := haccepted
    exact ⟨g, hg, grantAt_firstLabel hi _ g⟩

theorem issueIllegal_granted {cw : Word} {s t : State} (hg : Granted s) (he : issueIllegal cw s = .next t) :
    Granted t := by
  cases hc : cmdReady s <;> simp only [issueIllegal, hc, if_true, Bool.false_eq_true, if_false] at he <;> cases he
  · exact hg
  · exact respondAny_granted _ (accept_granted cw hg (cmdReady_idle hc).1)

/-- While the port brings command words, a step of the machine keeps the guard (R154). -/
theorem step_granted {s t : State} (h : s.Inv) (hg : Granted s)
    (hport : ∀ r ∈ s.host, isCommandRequest r = true) (hstep : step s = .next t) : Granted t := by
  have htaken : ∀ rest, ({ s with host := rest } : State).Inv := fun _ => ⟨h.rda, h.sel, h.trace, h.env, h.cap⟩
  rcases step_cases hstep with ⟨-, rfl⟩ | ⟨-, -, -, rfl⟩ | ⟨-, -, r, rest, i, hhost, hdecode, he⟩ |
    ⟨-, -, cw, buf, rest, op, -, -, he⟩ | ⟨-, -, he⟩
  · exact takeReset_granted hg
  · exact hg
  · cases r with
    | command cw buf => exact exec_command_granted (decodeCommand_isHostCommand hdecode) (htaken rest) hg he
    | frame bytes => exact absurd (hport (.frame bytes) (by simp [hhost])) (by simp [isCommandRequest])
  · exact issueIllegal_granted (s := { s with host := rest }) hg he
  · exact run_granted he h hg

theorem guarded_of_granted {s : State} (h : Granted s) : guarded s.trace = true := by
  obtain ⟨g, hg, -⟩ := h
  simp [guarded, hg]

/-- Settles O58: the guard with the grant each phase needs is an invariant of lines, runs, commands and steps;
idle it asks no more than that the trace so far keeps the guard. -/
theorem eraseNeedsConfirmedEnable : Obligations.EraseNeedsConfirmedEnable := by
  refine ⟨?_, ⟨{ grant := .no, cur := [] }, rfl, rfl⟩, ?_, ?_⟩
  · intro s t i h hp hguarded hi he
    obtain ⟨g, hg⟩ := Option.isSome_iff_exists.mp hguarded
    exact guarded_of_granted (exec_command_granted hi h ⟨g, hg, by rw [hp]; rfl⟩ he)
  · intro s t h hguard hport hstep
    exact (guardInv_iff (stepKeepsInvariant s t h hstep)).mpr
      (step_granted h ((guardInv_iff h).mp hguard) hport hstep)
  · rintro s ⟨g, hg, -⟩
    simp [guarded, hg]

end Sys2Proof.Machine
end

section
/-! SUPPORT. Termination: every line of a host command brings the lines that are left down, where a wait is
bounded by the listed advances of the clock and by the milliseconds left of its timeout
(spec/42_ready_wait.md R139, spec/60_exceptions.md R190). -/

namespace Sys2Proof.Machine

open Sys2Proof.Claims

/-! ## ENV stays what it is -/

/-- Whether ENV is the reference chip. -/
def Env.isChip : Env → Bool
  | .script _ => false
  | .chip _ => true

@[simp] theorem Env.isChip_select (e : Env) : e.select.isChip = e.isChip := by cases e <;> rfl
@[simp] theorem Env.isChip_deselect (e : Env) : e.deselect.isChip = e.isChip := by cases e <;> rfl
@[simp] theorem Env.isChip_settle (r : Region) (e : Env) : (e.settle r).isChip = e.isChip := by cases e <;> rfl
@[simp] theorem Env.isChip_abandon (r : Option Region) (e : Env) : (e.abandon r).isChip = e.isChip := by
  cases e <;> cases r <;> rfl

theorem Env.isChip_exchange {o i : Byte} {e e' : Env} (h : e.exchange o = some (i, e')) :
    e'.isChip = e.isChip := by
  cases e with
  | script as => cases as <;> cases h; rfl
  | chip c => cases h; rfl

theorem Env.isChip_iff {e : Env} : e.isChip = true ↔ ∃ c, e = .chip c := by
  cases e <;> simp [Env.isChip]

theorem Env.exchange_isSome {e : Env} (h : e.isChip = true) (o : Byte) : e.exchange o ≠ none := by
  obtain ⟨c, rfl⟩ := Env.isChip_iff.mp h
  simp [Env.exchange_chip]

theorem script_exchanges_length {as is : List Byte} {e : Env} {bytes : List Byte}
    (h : (Env.script as).exchanges bytes = some (is, e)) : bytes.length ≤ as.length := by
  induction bytes generalizing as is with
  | nil => exact Nat.zero_le _
  | cons o os ih =>
    obtain ⟨i, js, e1, hx, ho, -⟩ := Env.exchanges_cons.mp h
    cases as with
    | nil => cases hx
    | cons a as =>
      cases hx
      exact Nat.succ_le_succ (ih ho)

/-- An ENV that always answers is the reference chip: a list of answers is used up (R69). -/
theorem Env.isChip_of_alwaysAnswers {e : Env} (h : e.alwaysAnswers) : e.isChip = true := by
  cases e with
  | chip c => rfl
  | script as =>
    obtain ⟨⟨is, e'⟩, hx⟩ := Option.isSome_iff_exists.mp (h (List.replicate (as.length + 1) 0))
    have hle := script_exchanges_length hx
    simp at hle

theorem line_isChip {s t : State} (h : line s = .go t) : t.env.isChip = s.env.isChip := by
  refine line_goes (Q := fun t => t.env.isChip = s.env.isChip) ?_ ?_ ?_ ?_ ?_ ?_ ?_ ?_ ?_ ?_ ?_ ?_ ?_ ?_ h
  · intro l _
    cases l <;> simp [lineInit]
    all_goals exact fun _ _ _ hx => Env.isChip_exchange hx
  · intro l _
    cases l <;> simp [lineWaitReady, apply_ite State.env]
  · intro l _
    cases l <;> simp [lineWriteEnable, apply_ite State.env]
  · intro l _
    cases l <;> simp [lineWriteDisable]
  · intro l _
    cases l <;> simp [lineEraseChip]
    exact fun _ _ _ hx => Env.isChip_exchange hx
  · intro l _
    cases l <;> simp [lineEraseSector, apply_ite State.env]
    all_goals exact fun _ _ _ hx => Env.isChip_exchange hx
  · intro l _
    cases l <;> simp [lineWritePage, apply_ite State.env]
    all_goals exact fun _ _ _ hx => Env.isChip_exchange hx
  · intro l _
    cases l <;> simp [lineBeginRead, apply_ite State.env]
    all_goals exact fun _ _ _ hx => Env.isChip_exchange hx
  · intro l _
    cases l <;> simp [lineReadNext]
    exact fun _ _ _ hx => Env.isChip_exchange hx
  · intro l _
    cases l <;> simp [lineEndRead, apply_ite State.env]
  · intro c l _
    have hreturn : ∀ r u, (returnWait c r u).env.isChip = u.env.isChip := fun r u => by
      cases c <;> cases r <;> simp [returnWait]
    cases l <;> simp [lineWait, apply_ite State.env, apply_ite Env.isChip, hreturn]
    all_goals exact fun _ _ _ hx => Env.isChip_exchange hx
  · intro c l _
    have hreturn : ∀ r u, (returnEnable c r u).env.isChip = u.env.isChip := fun r u => by
      cases c <;> cases r <;> simp [returnEnable]
    cases l <;> simp [lineEnable, hreturn]
    all_goals exact fun _ _ _ hx => Env.isChip_exchange hx
  · intro c l _
    cases l <;> simp [lineDisable]
    exact fun _ _ _ hx => Env.isChip_exchange hx
  · intro f l _
    rcases l with _ | _ | ⟨_ | ⟨o, left⟩, received⟩ <;> simp [lineFrame]
    · exact fun _ _ _ hx => Env.isChip_exchange hx
    · cases f.row <;> simp [keepReceived]
    · exact fun _ _ _ hx => Env.isChip_exchange hx

/-! ## The clock in a wait -/

/-- The milliseconds that pass before the next sample: as listed, or free and positive (R190). -/
theorem Clock.advance_cases (c : Clock) :
    (∃ g gs, c.gaps = g :: gs ∧ c.advance = { now := c.now + g, gaps := gs }) ∨
      (c.gaps = [] ∧ ∃ d, 0 < d ∧ d ≤ 2 ^ 16 ∧ c.advance = { now := c.now + d, gaps := [] }) := by
  unfold Clock.advance
  cases hg : c.gaps with
  | cons g gs => exact .inl ⟨g, gs, rfl, rfl⟩
  | nil =>
    refine .inr ⟨rfl, (Config.anyGap c.now).toNat + 1, by omega, ?_, by simp [Nat.add_assoc]⟩
    have := (Config.anyGap c.now).isLt
    omega

/-- The time elapsed grows by what passes, as long as the counter does not go round (R13). -/
theorem elapsed_add {t0 : Word} {now d : Nat} (h : (elapsed t0 (BitVec.ofNat 32 now)).toNat + d < 2 ^ 32) :
    (elapsed t0 (BitVec.ofNat 32 (now + d))).toNat = (elapsed t0 (BitVec.ofNat 32 now)).toNat + d := by
  have ht0 : t0.toNat < 2 ^ 32 := t0.isLt
  rw [elapsed_toNat, BitVec.toNat_ofNat] at h ⊢
  rw [elapsed_toNat, BitVec.toNat_ofNat]
  omega

/-! ## The lines left -/

/-- The lines of a wait of `tmo` milliseconds, but for those that the listed advances of the clock pay for. -/
def waitLines (tmo : Word) : Nat := 6 * tmo.toNat + 8

/-- The lines after the return of a wait, its caller's later wait included. -/
def linesAfterWait (p : Params) : WaitSite → Nat
  | .q0 => 1
  | .c0 => waitLines p.tChip + 18
  | .c5 => 5
  | .s1 => waitLines p.tSector + 21
  | .s9 => 5
  | .p1 => waitLines p.tDefault + 278
  | .p11 => 5
  | .b1 => 7

/-- The lines after the return of WriteEnable. -/
def linesAfterEnable (p : Params) : EnableSite → Nat
  | .e0 => 1
  | .c1 => waitLines p.tChip + 9
  | .s2 => waitLines p.tSector + 12
  | .p2 => waitLines p.tDefault + 269

/-- The lines of a wait from a label of the poll loop to its end. -/
def pollLines : WaitLabel → Nat
  | .w0 => 0
  | .w1 => 6
  | .w2 => 5
  | .w3 => 4
  | .w4 => 3
  | .w5 => 2
  | .w6 => 1

/-- At most so many lines are left to the response, but for those that the listed advances of the clock pay
for. In the poll loop each poll takes a millisecond of the timeout (R190 (c)). -/
def linesLeft (s : State) : Nat :=
  match s.ph with
  | .idle => 0
  | .init .i0 => 7
  | .init .i1 => 6
  | .init .i2 => 5
  | .init .i3 => 4
  | .init .i4 => 3
  | .init .i5 => 2
  | .init .i6 => 1
  | .waitReady .q0 => waitLines (timeoutArg s.arg) + 2
  | .waitReady .q1 => 1
  | .writeEnable .e0 => 10
  | .writeEnable .e1 => 1
  | .writeDisable .f0 => 5
  | .writeDisable .f1 => 1
  | .eraseChip .c0 => waitLines s.par.tDefault + waitLines s.par.tChip + 19
  | .eraseChip .c1 => waitLines s.par.tChip + 18
  | .eraseChip .c2 => waitLines s.par.tChip + 9
  | .eraseChip .c3 => waitLines s.par.tChip + 8
  | .eraseChip .c4 => waitLines s.par.tChip + 7
  | .eraseChip .c5 => waitLines s.par.tChip + 6
  | .eraseChip .c6 => 5
  | .eraseChip .c7 => 1
  | .eraseSector .s0 => waitLines s.par.tDefault + waitLines s.par.tSector + 23
  | .eraseSector .s1 => waitLines s.par.tDefault + waitLines s.par.tSector + 22
  | .eraseSector .s2 => waitLines s.par.tSector + 21
  | .eraseSector .s3 => waitLines s.par.tSector + 12
  | .eraseSector .s4 => waitLines s.par.tSector + 11
  | .eraseSector .s5 => waitLines s.par.tSector + 10
  | .eraseSector .s6 => waitLines s.par.tSector + 9
  | .eraseSector .s7 => waitLines s.par.tSector + 8
  | .eraseSector .s8 => waitLines s.par.tSector + 7
  | .eraseSector .s9 => waitLines s.par.tSector + 6
  | .eraseSector .s10 => 5
  | .eraseSector .s11 => 1
  | .writePage .p0 => waitLines s.par.tDefault + waitLines s.par.tDefault + 280
  | .writePage .p1 => waitLines s.par.tDefault + waitLines s.par.tDefault + 279
  | .writePage .p2 => waitLines s.par.tDefault + 278
  | .writePage .p3 => waitLines s.par.tDefault + 269
  | .writePage .p4 => waitLines s.par.tDefault + 268
  | .writePage .p5 => waitLines s.par.tDefault + 267
  | .writePage .p6 => waitLines s.par.tDefault + 266
  | .writePage .p7 => waitLines s.par.tDefault + 265
  | .writePage .p8 => waitLines s.par.tDefault + 8 + (256 - s.cnt.toNat)
  | .writePage .p9 => waitLines s.par.tDefault + 8
  | .writePage .p10 => waitLines s.par.tDefault + 7
  | .writePage .p11 => waitLines s.par.tDefault + 6
  | .writePage .p12 => 5
  | .writePage .p13 => 1
  | .beginRead .b0 => waitLines s.par.tDefault + 9
  | .beginRead .b1 => waitLines s.par.tDefault + 8
  | .beginRead .b2 => 7
  | .beginRead .b3 => 6
  | .beginRead .b4 => 5
  | .beginRead .b5 => 4
  | .beginRead .b6 => 3
  | .beginRead .b7 => 2
  | .beginRead .b8 => 1
  | .readNext .n0 => 2
  | .readNext .n1 => 1
  | .endRead .x0 => 2
  | .endRead .x1 => 1
  | .inWait c .w0 => waitLines (timeoutOf c s) + linesAfterWait s.par c
  | .inWait c l =>
    6 * (s.tmo.toNat - (elapsed s.t0 s.clk.value).toNat) + pollLines l + linesAfterWait s.par c
  | .inEnable c .v0 => 8 + linesAfterEnable s.par c
  | .inEnable c .v1 => 7 + linesAfterEnable s.par c
  | .inEnable c .v2 => 6 + linesAfterEnable s.par c
  | .inEnable c .v3 => 5 + linesAfterEnable s.par c
  | .inEnable c .v4 => 4 + linesAfterEnable s.par c
  | .inEnable c .v5 => 3 + linesAfterEnable s.par c
  | .inEnable c .v6 => 2 + linesAfterEnable s.par c
  | .inEnable c .v7 => 1 + linesAfterEnable s.par c
  | .inDisable _ .u0 => 4
  | .inDisable _ .u1 => 3
  | .inDisable _ .u2 => 2
  | .frame _ _ => 0

/-- The lines left, with those that the listed advances of the clock pay for. -/
def measure (s : State) : Nat := 6 * s.clk.gaps.length + linesLeft s

/-- In the poll loop the time elapsed since T0 is within the timeout, which is far from a turn of the
counter. -/
def InTime (s : State) : Prop :=
  ∀ c l, s.ph = .inWait c l → l ≠ .w0 →
    s.tmo.toNat < 2 ^ 31 ∧ (elapsed s.t0 s.clk.value).toNat ≤ s.tmo.toNat

/-- What termination rests on: the clock's premise, no frame by itself in flight, and every wait in time. -/
structure Timed (s : State) : Prop where
  bounded : s.clockBounded
  noFrame : ∀ f, s.ph.job ≠ .frame f
  inTime  : InTime s

/-- A line brings SEQ to IDLE, or nearer to it. -/
def Nearer (s t : State) : Prop := t.ph = .idle ∨ InTime t ∧ measure t < measure s

theorem timeoutOf_lt {s : State} (h : s.clockBounded) (c : WaitSite) : (timeoutOf c s).toNat < 2 ^ 31 := by
  obtain ⟨-, hd, hs, hc⟩ := h
  cases c with
  | q0 =>
    have := s.arg.isLt
    simp [timeoutOf, timeoutArg]
    omega
  | c5 => exact hc
  | s9 => exact hs
  | _ => exact hd

theorem returnWait_lines (c : WaitSite) (r : Bool) (s : State) :
    (returnWait c r s).ph = .idle ∨
      InTime (returnWait c r s) ∧
        measure (returnWait c r s) ≤ 6 * s.clk.gaps.length + linesAfterWait s.par c := by
  cases c <;> cases r <;> simp [returnWait] <;> simp [InTime, measure, linesLeft, linesAfterWait]

/-- A sample that does not end the wait was paid for by a listed advance, or has taken time of the timeout. -/
theorem advance_pays {s : State} (hb : ∀ g ∈ s.clk.gaps, g < 2 ^ 16) (htmo : s.tmo.toNat < 2 ^ 31)
    (hin : (elapsed s.t0 s.clk.value).toNat ≤ s.tmo.toNat)
    (hstay : timedOut s.t0 s.clk.advance.value s.tmo = false) :
    (elapsed s.t0 s.clk.advance.value).toNat ≤ s.tmo.toNat ∧
      6 * s.clk.advance.gaps.length + 6 * (s.tmo.toNat - (elapsed s.t0 s.clk.advance.value).toNat) + 6 ≤
        6 * s.clk.gaps.length + 6 * (s.tmo.toNat - (elapsed s.t0 s.clk.value).toNat) := by
  have hle : (elapsed s.t0 s.clk.advance.value).toNat ≤ s.tmo.toNat := by
    rw [← not_lt]
    exact fun hlt => by rw [(timedOut_iff_toNat _ _ _).mpr hlt] at hstay; cases hstay
  refine ⟨hle, ?_⟩
  rcases s.clk.advance_cases with ⟨g, gs, hg, hadv⟩ | ⟨hg, d, hd, hd', hadv⟩
  · have hlt : g < 2 ^ 16 := hb g (by simp [hg])
    have hadd := elapsed_add (t0 := s.t0) (now := s.clk.now) (d := g) (by unfold Clock.value at hin; omega)
    simp only [hadv, Clock.value, hg, List.length_cons] at hin ⊢
    omega
  · have hadd := elapsed_add (t0 := s.t0) (now := s.clk.now) (d := d) (by unfold Clock.value at hin; omega)
    simp only [hadv, Clock.value, hg] at hin hle ⊢
    omega

theorem advance_gaps_le (c : Clock) : c.advance.gaps.length ≤ c.gaps.length := by
  rcases c.advance_cases with ⟨g, gs, hg, hadv⟩ | ⟨hg, d, -, -, hadv⟩ <;> simp [hg, hadv]

/-- The lines of a wait: a poll that finds BUSY set goes on only with a sample within the timeout (R135). -/
theorem lineWait_nearer {s : State} {c : WaitSite} {l : WaitLabel} (h : Timed s) (hp : s.ph = .inWait c l) :
    (lineWait c l s).Goes (Nearer s) := by
  cases l with
  | w0 =>
    have hself : elapsed s.clk.advance.value s.clk.advance.value = 0 := BitVec.sub_self _
    have hgaps := advance_gaps_le s.clk
    have htmo := timeoutOf_lt h.bounded c
    simp [lineWait, Nearer, InTime, measure, linesLeft, hp, pollLines, waitLines, hself]
    omega
  | w1 | w2 | w3 | w4 =>
    have hin := h.inTime _ _ hp (by simp)
    simp [lineWait]
    intros
    simp [Nearer, InTime, measure, linesLeft, hp, pollLines]
    exact hin
  | w5 =>
    have hin := h.inTime _ _ hp (by simp)
    simp [lineWait, of_ite (Nearer s)]
    refine ⟨fun _ => ?_, fun _ => ?_⟩
    · simp [Nearer, InTime, measure, linesLeft, hp, pollLines]
      exact hin
    · refine (returnWait_lines c true s).imp_right fun ⟨hin', hle⟩ => ⟨hin', lt_of_le_of_lt hle ?_⟩
      simp [measure, linesLeft, hp, pollLines]
  | w6 =>
    have hin := h.inTime _ _ hp (by simp)
    simp [lineWait, of_ite (Nearer s)]
    refine ⟨fun _ => ?_, fun hstay => ?_⟩
    · refine (returnWait_lines c false _).imp_right fun ⟨hin', hle⟩ => ⟨hin', lt_of_le_of_lt hle ?_⟩
      have hgaps := advance_gaps_le s.clk
      simp [measure, linesLeft, hp, pollLines]
      omega
    · obtain ⟨hle, hpay⟩ := advance_pays h.bounded.1 hin.1 hin.2 (by simpa using hstay)
      simp [Nearer, InTime, measure, linesLeft, hp, pollLines]
      omega

theorem line_nearer {s t : State} (h : Timed s) (hl : line s = .go t) : Nearer s t := by
  refine line_goes (Q := Nearer s) ?_ ?_ ?_ ?_ ?_ ?_ ?_ ?_ ?_ ?_ ?_ ?_ ?_ ?_ hl
  · intro l hp
    cases l <;> simp [lineInit] <;> intros <;> simp [Nearer, InTime, measure, linesLeft, hp]
  · intro l hp
    cases l <;> simp [lineWaitReady, of_ite (Nearer s)] <;>
      simp [Nearer, InTime, measure, linesLeft, hp, timeoutOf, linesAfterWait]
  · intro l hp
    cases l <;> simp [lineWriteEnable, of_ite (Nearer s)] <;>
      simp [Nearer, InTime, measure, linesLeft, hp, linesAfterEnable]
  · intro l hp
    cases l <;> simp [lineWriteDisable] <;> simp [Nearer, InTime, measure, linesLeft, hp]
  · intro l hp
    cases l <;> simp [lineEraseChip] <;> intros <;>
      simp [Nearer, InTime, measure, linesLeft, hp, timeoutOf, linesAfterWait, linesAfterEnable]
    all_goals omega
  · intro l hp
    cases l <;> simp [lineEraseSector, of_ite (Nearer s)] <;> intros <;>
      simp [Nearer, InTime, measure, linesLeft, hp, timeoutOf, linesAfterWait, linesAfterEnable]
    all_goals omega
  · intro l hp
    cases l <;> simp [lineWritePage, of_ite (Nearer s)] <;> intros <;>
      simp [Nearer, InTime, measure, linesLeft, hp, timeoutOf, linesAfterWait, linesAfterEnable]
    case p8 =>
      have hcnt := s.cnt.isLt
      refine ⟨fun _ => hcnt, fun hne => ?_⟩
      have : s.cnt.toNat ≠ 255 := fun h255 => hne (BitVec.eq_of_toNat_eq h255)
      omega
    all_goals omega
  · intro l hp
    cases l <;> simp [lineBeginRead, of_ite (Nearer s)] <;> intros <;>
      simp [Nearer, InTime, measure, linesLeft, hp, timeoutOf, linesAfterWait]
  · intro l hp
    cases l <;> simp [lineReadNext] <;> intros <;> simp [Nearer, InTime, measure, linesLeft, hp]
  · intro l hp
    cases l <;> simp [lineEndRead, of_ite (Nearer s)] <;> intros <;> simp [Nearer, InTime, measure, linesLeft, hp]
  · intro c l hp
    exact lineWait_nearer h hp
  · intro c l hp
    cases l <;> simp [lineEnable] <;> intros
    case v7 =>
      cases c <;> simp [returnEnable, passOrFail, of_ite (Nearer s)] <;>
        simp [Nearer, InTime, measure, linesLeft, hp, linesAfterEnable]
    all_goals simp [Nearer, InTime, measure, linesLeft, hp]
  · intro c l hp
    cases l <;> simp [lineDisable] <;> intros <;> simp [Nearer, InTime, measure, linesLeft, hp]
    cases c <;> simp [afterDisable]
  · intro f l hp
    exact absurd (by rw [hp]; rfl) (h.noFrame f)

theorem line_timed {s t : State} (h : Timed s) (hl : line s = .go t) :
    t.ph = .idle ∨ Timed t ∧ measure t < measure s := by
  have hf := line_frame hl
  refine (line_nearer h hl).imp_right fun ⟨hin, hlt⟩ => ⟨⟨?_, ?_, hin⟩, hlt⟩
  · obtain ⟨hgaps, hpar⟩ := h.bounded
    exact ⟨fun g hg => hgaps g (hf.gaps hg), by rw [hf.par]; exact hpar⟩
  · rcases hf.job with ht | ht
    · simp [ht]
    · rw [ht]
      exact h.noFrame

/-! ## Every command comes to its response -/

/-- A command that stands at its first label has fewer lines left than a step of the machine may run. -/
theorem measure_firstLabel_lt {i : Instr} {s : State} (hi : isHostCommand i = true) (h : s.clockBounded) :
    measure (goto (firstLabel (cwOp (commandWord i))) (accepted i s)) < budget s := by
  obtain ⟨-, hd, hs, hc⟩ := h
  have harg := (cwArg (commandWord i)).isLt
  have hlines : linesLeft (goto (firstLabel (cwOp (commandWord i))) (accepted i s)) ≤ 12 * 2 ^ 31 + 300 := by
    cases i <;> simp [isHostCommand] at hi <;>
      simp [commandWord, firstLabel, linesLeft, accepted, waitLines, timeoutArg] at harg ⊢ <;> omega
  simp only [measure, budget, goto_clk, accepted, accept_clk]
  simp only [accepted] at hlines
  omega

theorem timed_firstLabel {i : Instr} {s : State} (hi : isHostCommand i = true) (h : s.clockBounded) :
    Timed (goto (firstLabel (cwOp (commandWord i))) (accepted i s)) := by
  refine ⟨h, by simp [firstLabel_job hi], ?_⟩
  intro c l hp
  cases i <;> simp [isHostCommand] at hi <;> simp [commandWord, firstLabel] at hp

/-- With no reset to come and a bounded clock, a run of a command from its first label responds, or stands at an
exchange that ENV does not answer, which the reference chip never does. -/
theorem run_command_ends {i : Instr} {s t : State} (hi : isHostCommand i = true) (hr : s.rstIn = [])
    (h : s.clockBounded)
    (hrun : run (budget s) (goto (firstLabel (cwOp (commandWord i))) (accepted i s)) = .next t) :
    t.ph = .idle ∨ t.waiting = true ∧ s.env.isChip = false := by
  have hend := run_ends (P := fun u => Timed u ∧ u.env.isChip = s.env.isChip) (μ := measure)
    (fun u v _ hl hu => (line_timed hu.1 hl).imp_right fun hv => ⟨⟨hv.1, (line_isChip hl).trans hu.2⟩, hv.2⟩)
    hrun (by simp [accepted, hr]) ⟨timed_firstLabel hi h, rfl⟩ (measure_firstLabel_lt hi h)
  refine hend.imp_right fun ⟨u, hp, hu, hstands⟩ => ⟨hstands.waiting hp, ?_⟩
  obtain ⟨o, -, hx, -⟩ := hstands
  rw [← hu.2, ← Bool.not_eq_true]
  exact fun hchip => Env.exchange_isSome hchip o hx

/-- Settles O59: a refused command responds at once; an admitted one has a run whose lines all bring the
measure down, from less than the lines a step of the machine may run. -/
theorem commandsComeToResponse : Obligations.CommandsComeToResponse := by
  intro s i h hready hi hclock
  obtain ⟨t, ht, -⟩ := commandsNeverStop s i h hi
  refine ⟨t, ht, ?_⟩
  have hvalid : t.ph = .idle → t.ph = .idle ∧ t.rsp.valid = true := fun hp =>
    ⟨hp, (oneResponsePerCommand s t i hready hi ht hp).2.1⟩
  rcases exec_command_cases hi ht with ⟨hc, -⟩ | ⟨-, -, rfl⟩ | ⟨-, -, hrun⟩
  · rw [cmdReady_of_ready hready] at hc
    cases hc
  · exact ⟨.inl (hvalid rfl), fun _ => hvalid rfl⟩
  · rcases run_command_ends hi hready.2 hclock hrun with hp | ⟨hwaiting, hscript⟩
    · exact ⟨.inl (hvalid hp), fun _ => hvalid hp⟩
    · refine ⟨.inr hwaiting, fun halways => ?_⟩
      rw [Env.isChip_of_alwaysAnswers halways] at hscript
      cases hscript

end Sys2Proof.Machine
end

section
/-! SUPPORT. What a command can do to the contents of the array: nothing outside its region, whatever line it
has reached and whether a reset cuts it (spec/20_memory.md R46, R50, R53, spec/70_reset_and_hazards.md R201,
R202). -/

namespace Sys2Proof.Machine

open Sys2Proof.Claims

/-! ## The parts of the chip that contents depend on -/

/-- The size, the bytes and what befell them: all that the contents of the array depend on. -/
def Chip.array (c : Chip) : ChipParams × Memory × List Mark := (c.par, c.mem, c.marks)

theorem Chip.array_eq_iff {c d : Chip} : c.array = d.array ↔ c.par = d.par ∧ c.mem = d.mem ∧ c.marks = d.marks := by
  simp [Chip.array]

theorem Chip.content_of_array {c d : Chip} (h : c.array = d.array) (b : Nat) : c.content b = d.content b := by
  obtain ⟨-, hmem, hmarks⟩ := Chip.array_eq_iff.mp h
  exact Chip.content_congr (by rw [Chip.doubt, hmarks]; rfl) (by rw [hmem])

theorem Chip.answer_array (f : List Byte) (c : Chip) : (c.answer f).2.array = c.array := by
  unfold Chip.answer
  split
  · rfl
  · split
    · unfold Chip.answerStatus
      split <;> rfl
    · split
      · unfold Chip.answerRead
        split <;> rfl
      · split <;> rfl

/-- An exchange leaves the array as it was. -/
@[simp] theorem Chip.onXfer_array (o : Byte) (c : Chip) : (c.onXfer o).2.array = c.array := by
  unfold Chip.onXfer
  split
  · rfl
  · exact Chip.answer_array _ c

@[simp] theorem Chip.onSelect_array (c : Chip) : c.onSelect.array = c.array := rfl

/-! ## The region a frame acts on -/

/-- The region that a frame may change, by its bytes (R64, R65). -/
def frameRegion : List Byte → Option Region
  | [op] => if op = Config.opChipErase then some .whole else none
  | op :: a2 :: a1 :: a0 :: _ =>
    if op = Config.opSectorErase then some (.sector (a2 ++ a1 ++ a0 : BitVec 24))
    else if op = Config.opPageProgram then some (.page (a2 ++ a1 ++ a0 : BitVec 24))
    else none
  | _ => none

/-- The bytes of a chip outside a region read as before. -/
def KeptOutside (r : Option Region) (c d : Chip) : Prop :=
  d.par = c.par ∧ ∀ b, ¬inRegion (chipBytes c.par.size) r b → d.content b = c.content b

theorem KeptOutside.of_array {c d : Chip} (r : Option Region) (h : d.array = c.array) : KeptOutside r c d :=
  ⟨(Chip.array_eq_iff.mp h).1, fun b _ => Chip.content_of_array h b⟩

theorem KeptOutside.trans {r : Option Region} {c d e : Chip} (h : KeptOutside r c d) (h' : KeptOutside r d e) :
    KeptOutside r c e := by
  obtain ⟨hpar, hkept⟩ := h
  obtain ⟨hpar', hkept'⟩ := h'
  rw [hpar] at hkept'
  exact ⟨hpar'.trans hpar, fun b hb => (hkept' b hb).trans (hkept b hb)⟩

theorem inRegion_some {size : Nat} {g : Region} {b : Nat} :
    inRegion size (some g) b ↔ regionBase g ≤ b ∧ b < regionBase g + regionLength size g := by
  simp [inRegion]

theorem not_inRegion_none {size b : Nat} : ¬inRegion size none b := by
  simp [inRegion]

/-- Memory changed in a region only, and the doubt about its bytes renewed. -/
theorem renew_keptOutside {g : Region} {c : Chip} {m : Memory}
    (hm : ∀ b, ¬inRegion (chipBytes c.par.size) (some g) b → Memory.read m b = Memory.read c.mem b) :
    KeptOutside (some g) c (({ c with mem := m } : Chip).renew g) := by
  refine ⟨by unfold Chip.renew; split <;> rfl, fun b hb => Chip.content_congr ?_ ?_⟩
  · exact Chip.doubt_renew_outside (c := { c with mem := m }) (by rwa [inRegion_some] at hb)
  · rw [Chip.renew_mem]
    exact hm b hb

theorem startOperation_array (k : BusyCount) (c : Chip) : (c.startOperation k).array = c.array := rfl

theorem eraseSector_keptOutside (a : Addr) (c : Chip) : KeptOutside (some (.sector a)) c (c.eraseSector a) := by
  refine KeptOutside.trans ?_ (.of_array _ (startOperation_array _ _))
  split
  · refine renew_keptOutside fun b hb => ?_
    rw [Memory.read_erase, if_neg]
    rwa [inRegion_some] at hb
  · exact .of_array _ rfl

theorem eraseAll_keptOutside (c : Chip) : KeptOutside (some .whole) c c.eraseAll := by
  refine KeptOutside.trans ?_ (.of_array _ (startOperation_array _ _))
  refine renew_keptOutside fun b hb => ?_
  rw [Memory.read_erase, if_neg]
  rwa [inRegion_some] at hb

theorem forget_keptOutside (g : Region) (c : Chip) : KeptOutside (some g) c (c.forget g) :=
  ⟨by cases g <;> rfl, fun b hb =>
    Chip.content_congr (Chip.doubt_forget_outside (by rwa [inRegion_some] at hb)) (by rw [Chip.forget_mem])⟩

theorem forgetStatus_array (c : Chip) : c.forgetStatus.array = c.array := rfl

theorem programPage_keptOutside {a : Addr} {data : List Byte} {c : Chip} (hwf : Memory.wf c.mem = true)
    (hlen : data.length = Config.pageSize) : KeptOutside (some (.page a)) c (c.programPage a data) := by
  unfold Chip.programPage
  simp only
  split
  · refine KeptOutside.trans ?_ (.of_array _ (startOperation_array _ _))
    refine renew_keptOutside fun b hb => ?_
    rw [Memory.read_program _ _ _ hwf, if_neg]
    rw [hlen]
    rwa [inRegion_some] at hb
  · exact .of_array _ rfl

/-- What a finished frame does stays in the frame's region (R64, R65, R75 to R77). -/
theorem act_keptOutside {c : Chip} (f : List Byte) (hwf : Memory.wf c.mem = true) :
    KeptOutside (frameRegion f) c (c.act f) := by
  unfold Chip.act
  split
  · rename_i op
    unfold Chip.actOpcode
    split
    · exact .of_array _ rfl
    · split
      · exact .of_array _ rfl
      · split
        · rename_i h
          have hop : op = Config.opChipErase := by simp at h; exact h.1
          rw [frameRegion, if_pos hop]
          exact eraseAll_keptOutside c
        · exact .of_array _ rfl
  · rename_i op a2 a1 a0 data
    unfold Chip.actAddressed
    split
    · rename_i h
      have hop : op = Config.opSectorErase := by simp at h; exact h.1.1
      rw [frameRegion, if_pos hop]
      exact eraseSector_keptOutside _ c
    · split
      · rename_i h
        have hop : op = Config.opPageProgram := by simp at h; exact h.1
        rw [frameRegion, if_neg (by rw [hop]; decide), if_pos hop]
        split
        · rename_i hshape
          exact programPage_keptOutside hwf hshape.2
        · exact (forget_keptOutside _ c).trans (.of_array _ (forgetStatus_array _))
      · exact .of_array _ rfl
  · exact .of_array _ rfl

/-- A deselect changes nothing outside the region of the frame it ends. -/
theorem onDeselect_keptOutside {c : Chip} (hwf : Memory.wf c.mem = true) :
    KeptOutside (frameRegion (c.frame.getD [])) c c.onDeselect := by
  unfold Chip.onDeselect
  simp only
  split
  · exact .of_array _ rfl
  · exact (act_keptOutside _ hwf).trans (.of_array _ rfl)

theorem KeptOutside.mono {r r' : Option Region} {c d : Chip} (h : KeptOutside r c d)
    (hsub : ∀ b, inRegion (chipBytes c.par.size) r b → inRegion (chipBytes c.par.size) r' b) :
    KeptOutside r' c d :=
  ⟨h.1, fun b hb => h.2 b fun hb' => hb (hsub b hb')⟩

theorem settle_keptOutside (g : Region) (c : Chip) : KeptOutside (some g) c (c.settle g) := by
  refine ⟨by unfold Chip.settle; cases g <;> simp only <;> split <;> rfl, fun b hb => ?_⟩
  exact Chip.content_congr (Chip.doubt_settle_outside (by rwa [inRegion_some] at hb)) (by rw [Chip.settle_mem])

/-! ## ENV -/

/-- The bytes of ENV outside a region read as before; a list of answers has none. -/
def EnvKept (r : Option Region) : Env → Env → Prop
  | .script _, .script _ => True
  | .chip c, .chip d => KeptOutside r c d
  | _, _ => False

theorem EnvKept.refl (r : Option Region) (e : Env) : EnvKept r e e := by
  cases e
  · trivial
  · exact .of_array _ rfl

theorem EnvKept.trans {r : Option Region} {e e' e'' : Env} (h : EnvKept r e e') (h' : EnvKept r e' e'') :
    EnvKept r e e'' := by
  cases e <;> cases e' <;> cases e'' <;> simp only [EnvKept] at h h' ⊢
  exact h.trans h'

theorem envKept_select (r : Option Region) (e : Env) : EnvKept r e e.select := by
  cases e
  · trivial
  · exact .of_array _ rfl

theorem envKept_exchange (r : Option Region) {e e' : Env} {o i : Byte} (h : e.exchange o = some (i, e')) :
    EnvKept r e e' := by
  cases e with
  | script as => cases as <;> cases h; trivial
  | chip c => cases h; exact .of_array _ (Chip.onXfer_array o c)

theorem envKept_settle (g : Region) (e : Env) : EnvKept (some g) e (e.settle g) := by
  cases e
  · trivial
  · exact settle_keptOutside g _

theorem envKept_abandon (r : Option Region) (e : Env) : EnvKept r e (e.abandon r) := by
  cases e <;> cases r
  · trivial
  · trivial
  · exact .of_array _ (forgetStatus_array _)
  · exact (forget_keptOutside _ _).trans (.of_array _ (forgetStatus_array _))

theorem EnvKept.byteAt {r : Option Region} {e e' : Env} (h : EnvKept r e e') {b : Nat}
    (hb : ∀ size, ¬inRegion size r b) : e'.byteAt b = e.byteAt b := by
  cases e <;> cases e' <;> simp only [EnvKept] at h
  · rfl
  · exact congrArg some (h.2 b (hb _))

end Sys2Proof.Machine
end

section
/-! SUPPORT. The frame that is open at each line of a command, and that no line and no reset changes the array
outside the region the command addresses (spec/20_memory.md R46, R50, R53, spec/70_reset_and_hazards.md R201,
R202). -/

namespace Sys2Proof.Machine

open Sys2Proof.Claims

/-! ## Regions as numbers -/

theorem page_masked (a : Addr) : a &&& 0xFFFF00 = (a >>> 8) <<< 8 := by
  apply BitVec.eq_of_getLsbD_eq
  intro i hi
  interval_cases i <;> simp

theorem sector_masked (a : Addr) : a &&& 0xFFF000 = (a >>> 12) <<< 12 := by
  apply BitVec.eq_of_getLsbD_eq
  intro i hi
  interval_cases i <;> simp

/-- The first address of the page that contains `a` (R49). -/
theorem regionBase_page (a : Addr) : regionBase (.page a) = a.toNat / 256 * 256 := by
  have ha := a.isLt
  have hmask : regionBase (.page a) = ((a >>> 8) <<< 8).toNat := congrArg BitVec.toNat (page_masked a)
  rw [hmask, BitVec.toNat_shiftLeft, BitVec.toNat_ushiftRight, Nat.shiftRight_eq_div_pow, Nat.shiftLeft_eq]
  omega

/-- The first address of the sector that contains `a` (R49). -/
theorem regionBase_sector (a : Addr) : regionBase (.sector a) = a.toNat / 4096 * 4096 := by
  have ha := a.isLt
  have hmask : regionBase (.sector a) = ((a >>> 12) <<< 12).toNat := congrArg BitVec.toNat (sector_masked a)
  rw [hmask, BitVec.toNat_shiftLeft, BitVec.toNat_ushiftRight, Nat.shiftRight_eq_div_pow, Nat.shiftLeft_eq]
  omega

/-- The page of an address is named by its two upper bytes (R89). -/
theorem page_of_upper_bytes (a : Addr) (b : Byte) :
    (addrHigh a ++ addrMid a ++ b : BitVec 24).toNat / 256 = a.toNat / 256 := by
  have hhigh := congrArg BitVec.toNat (addrHigh_append (addrHigh a) (addrMid a) b)
  have hmid := congrArg BitVec.toNat (addrMid_append (addrHigh a) (addrMid a) b)
  simp only [addrHigh_toNat, addrMid_toNat] at hhigh hmid
  omega

/-! ## The frame open at each line -/

/-- The frame that stands open at the lines that send an address or page bytes (R155, R161). -/
def sentAt (p : Phase) (a : Addr) (f : Option (List Byte)) : Prop :=
  match p with
  | .eraseSector .s5 => f = some [Config.opSectorErase]
  | .eraseSector .s6 => f = some [Config.opSectorErase, addrHigh a]
  | .eraseSector .s7 => f = some [Config.opSectorErase, addrHigh a, addrMid a]
  | .eraseSector .s8 => f = some [Config.opSectorErase, addrHigh a, addrMid a, addrLow a]
  | .writePage .p5 => f = some [Config.opPageProgram]
  | .writePage .p6 => f = some [Config.opPageProgram, addrHigh a]
  | .writePage .p7 => f = some [Config.opPageProgram, addrHigh a, addrMid a]
  | .writePage .p8 | .writePage .p9 =>
    ∃ data, f = some (Config.opPageProgram :: addrHigh a :: addrMid a :: 0x00 :: data)
  | _ => True

/-- The reference chip has received what the phase says. -/
def Sent (s : State) : Prop := ∀ c, s.env = .chip c → sentAt s.ph s.arg c.frame

/-- An exchange adds its byte to the open frame. -/
theorem exchange_frame {e : Env} {o i : Byte} {c : Chip} (h : e.exchange o = some (i, .chip c)) :
    ∃ c0, e = .chip c0 ∧ ∀ f, c0.frame = some f → c.frame = some (f ++ [o]) := by
  cases e with
  | script as => cases as <;> cases h
  | chip c0 =>
    cases h
    exact ⟨c0, rfl, fun f hf => onXfer_frame o hf⟩

theorem frame_of_opened {c : Chip} (h : envAgrees .opened (.chip c) = true) : c.frame = some [] := by
  simp only [envAgrees, Bool.and_eq_true] at h
  have hframe := h.2
  split at hframe <;> simp_all

theorem line_sent {s t : State} (h : s.Inv) (hs : Sent s) (hl : line s = .go t) : Sent t := by
  have henv := h.env
  have hexchange : ∀ {o i e f}, s.env.exchange o = some (i, e) →
      (∀ c, s.env = .chip c → c.frame = some f) → ∀ c, e = .chip c → c.frame = some (f ++ [o]) := by
    rintro o i e f hx hf c rfl
    obtain ⟨c0, h0, hframe⟩ := exchange_frame hx
    exact hframe f (hf c0 h0)
  have hopened : ∀ {o i e}, busAt s.rda s.ph = .opened → s.env.exchange o = some (i, e) →
      ∀ c, e = .chip c → c.frame = some [o] := fun hb hx =>
    hexchange (f := []) hx fun c hc => frame_of_opened (by rw [hb, hc] at henv; exact henv)
  refine line_goes (Q := Sent) ?_ ?_ ?_ ?_ ?_ ?_ ?_ ?_ ?_ ?_ ?_ ?_ ?_ ?_ hl
  · intro l _
    cases l <;> simp [lineInit] <;> simp [Sent, sentAt]
  · intro l _
    cases l <;> simp [lineWaitReady, of_ite Sent] <;> simp [Sent, sentAt]
  · intro l _
    cases l <;> simp [lineWriteEnable, of_ite Sent] <;> simp [Sent, sentAt]
  · intro l _
    cases l <;> simp [lineWriteDisable] <;> simp [Sent, sentAt]
  · intro l _
    cases l <;> simp [lineEraseChip] <;> simp [Sent, sentAt]
  · intro l hp
    have hsent : ∀ c, s.env = .chip c → sentAt (.eraseSector l) s.arg c.frame := fun c hc => hp ▸ hs c hc
    cases l <;> simp [lineEraseSector, of_ite Sent] <;> simp [Sent, sentAt]
    · exact fun _ _ _ hx => hopened (by rw [hp]; rfl) hx
    all_goals exact fun _ _ _ hx => hexchange hx hsent
  · intro l hp
    have hsent : ∀ c, s.env = .chip c → sentAt (.writePage l) s.arg c.frame := fun c hc => hp ▸ hs c hc
    cases l <;> simp [lineWritePage, of_ite Sent] <;> simp [Sent, sentAt, hp]
    · exact fun _ _ _ hx => hopened (by rw [hp]; rfl) hx
    · exact fun _ _ _ hx => hexchange hx hsent
    · exact fun _ _ _ hx => hexchange hx hsent
    · exact fun _ _ _ hx c hc => ⟨[], hexchange hx hsent c hc⟩
    · intro _ i e hx
      have hnext : ∀ c, e = .chip c → ∃ data, c.frame =
          some (Config.opPageProgram :: addrHigh s.arg :: addrMid s.arg :: 0x00 :: data) := by
        rintro c rfl
        obtain ⟨c0, h0, hframe⟩ := exchange_frame hx
        obtain ⟨data, hdata⟩ := hsent c0 h0
        exact ⟨_, hframe _ hdata⟩
      exact hnext
  · intro l _
    cases l <;> simp [lineBeginRead, of_ite Sent] <;> simp [Sent, sentAt]
  · intro l _
    cases l <;> simp [lineReadNext] <;> simp [Sent, sentAt]
  · intro l _
    cases l <;> simp [lineEndRead, of_ite Sent] <;> simp [Sent, sentAt]
  · intro c l _
    cases l <;> cases c <;> simp [lineWait, returnWait, passOrFail, passOrForget, of_ite Sent] <;>
      simp [Sent, sentAt]
  · intro c l _
    cases l <;> cases c <;> simp [lineEnable, returnEnable, passOrFail, of_ite Sent] <;> simp [Sent, sentAt]
  · intro c l _
    cases l <;> cases c <;> simp [lineDisable, afterDisable] <;> simp [Sent, sentAt]
  · intro f l _
    rcases l with _ | _ | ⟨_ | ⟨o, left⟩, received⟩ <;> simp [lineFrame] <;> simp [Sent, sentAt]
    cases f.row <;> simp [keepReceived]

end Sys2Proof.Machine
end

section
/-! SUPPORT. No line of a command and no reset changes the array outside the region the command addresses
(spec/20_memory.md R46, R50, R53, spec/70_reset_and_hazards.md R201, R202). -/

namespace Sys2Proof.Machine

open Sys2Proof.Claims

/-! ## The frame open at a line acts in the command's region -/

/-- Each byte of the one region lies in the other, on a chip of any size. -/
def Within (r r' : Option Region) : Prop := ∀ size b, inRegion size r b → inRegion size r' b

theorem Within.refl (r : Option Region) : Within r r := fun _ _ hb => hb

theorem within_of_none (r : Option Region) : Within none r := fun _ _ hb => absurd hb not_inRegion_none

/-- A frame whose opcode stores nothing acts on no region (R46). -/
theorem frameRegion_of_harmless {op : Byte} (rest : List Byte) (h : isStoreOpcode op = false) :
    frameRegion (op :: rest) = none := by
  simp only [isStoreOpcode, Bool.or_eq_false_iff, decide_eq_false_iff_not] at h
  unfold frameRegion
  split <;> simp_all

/-- The open frame, as the bus has it. -/
theorem frame_of_agrees {b : Bus} {c : Chip} (h : envAgrees b (.chip c) = true) :
    (b = .released ∧ c.frame = none) ∨ (b = .opened ∧ c.frame = some []) ∨
      ∃ op rest, b = .inFrame op ∧ c.frame = some (op :: rest) := by
  simp only [envAgrees, Bool.and_eq_true] at h
  have hframe := h.2
  split at hframe <;> simp_all

theorem within_of_harmless {b : Bus} {c : Chip} (r : Option Region) (h : envAgrees b (.chip c) = true)
    (hb : ∀ op, b = .inFrame op → isStoreOpcode op = false) :
    Within (frameRegion (c.frame.getD [])) r := by
  have hnone : frameRegion (c.frame.getD []) = none := by
    rcases frame_of_agrees h with ⟨-, hf⟩ | ⟨-, hf⟩ | ⟨op, rest, hop, hf⟩ <;> rw [hf]
    · rfl
    · rfl
    · exact frameRegion_of_harmless rest (hb op hop)
  rw [hnone]
  exact within_of_none r

/-- A page frame with the low address byte 0 acts on the page of the address (R65, R89). -/
theorem frameRegion_page (a : Addr) (data : List Byte) :
    Within (frameRegion (Config.opPageProgram :: addrHigh a :: addrMid a :: 0x00 :: data)) (some (.page a)) := by
  intro size b hb
  have hregion : frameRegion (Config.opPageProgram :: addrHigh a :: addrMid a :: 0x00 :: data) =
      some (.page (addrHigh a ++ addrMid a ++ (0x00 : Byte) : BitVec 24)) := rfl
  rw [hregion] at hb
  rw [inRegion_some, regionBase_page] at hb ⊢
  rwa [page_of_upper_bytes] at hb

theorem frameRegion_sector (a : Addr) :
    frameRegion [Config.opSectorErase, addrHigh a, addrMid a, addrLow a] = some (.sector a) := by
  have hregion : frameRegion [Config.opSectorErase, addrHigh a, addrMid a, addrLow a] =
      some (.sector (addrHigh a ++ addrMid a ++ addrLow a : BitVec 24)) := rfl
  rw [hregion, addrHigh_append_addrMid_append_addrLow]

theorem frameRegion_chipErase (rest : List Byte) :
    Within (frameRegion (Config.opChipErase :: rest)) (some .whole) := by
  unfold frameRegion
  split
  · simp_all [Within]
  · rename_i hbytes
    obtain ⟨rfl, -⟩ := List.cons.inj hbytes
    rw [if_neg (by decide), if_neg (by decide)]
    exact within_of_none _
  · exact within_of_none _

/-- The frame open at a line of a command acts in the command's region only (R64, R65). -/
theorem openFrame_within {s : State} {c : Chip} (h : s.Inv) (hs : Sent s) (hj : ∀ f, s.ph.job ≠ .frame f)
    (hc : s.env = .chip c) : Within (frameRegion (c.frame.getD [])) (s.ph.region s.arg) := by
  have henv : envAgrees (busAt s.rda s.ph) (.chip c) = true := hc ▸ h.env
  have hsent : sentAt s.ph s.arg c.frame := hs c hc
  cases hp : s.ph <;> rw [hp] at henv hsent
  case frame f l => exact absurd (by rw [hp]; rfl) (hj f)
  case eraseChip l =>
    cases l
    case c4 =>
      rcases frame_of_agrees henv with ⟨hb, -⟩ | ⟨hb, -⟩ | ⟨op, rest, hb, hf⟩ <;> cases hb
      rw [hf]
      exact frameRegion_chipErase rest
    all_goals exact within_of_harmless _ henv (by simp [busAt])
  case eraseSector l =>
    cases l <;> simp only [sentAt] at hsent
    case s5 | s6 | s7 => rw [hsent]; exact within_of_none _
    case s8 => rw [hsent, Option.getD_some, frameRegion_sector]; exact .refl _
    all_goals exact within_of_harmless _ henv (by simp [busAt])
  case writePage l =>
    cases l <;> simp only [sentAt] at hsent
    case p5 | p6 | p7 => rw [hsent]; exact within_of_none _
    case p8 | p9 => obtain ⟨data, hf⟩ := hsent; rw [hf]; exact frameRegion_page s.arg data
    all_goals exact within_of_harmless _ henv (by simp [busAt])
  case idle => exact within_of_harmless _ henv (by simp [busAt]; split <;> simp)
  case waitReady | writeEnable | writeDisable | readNext => exact within_of_harmless _ henv (by simp [busAt])
  case endRead l => exact within_of_harmless _ henv (by cases l <;> simp [busAt]; split <;> simp)
  all_goals
    rename_i l
    exact within_of_harmless _ henv (by cases l <;> simp [busAt])

/-! ## A line -/

/-- A deselect in a command changes nothing outside the command's region. -/
theorem deselect_envKept {s : State} (h : s.Inv) (hs : Sent s) (hj : ∀ f, s.ph.job ≠ .frame f) :
    EnvKept (s.ph.region s.arg) s.env s.env.deselect := by
  cases hc : s.env with
  | script as => trivial
  | chip c =>
    have hwf : Memory.wf c.mem = true := by
      have henv := h.env
      rw [hc] at henv
      simp only [envAgrees, Bool.and_eq_true] at henv
      exact henv.1
    exact (onDeselect_keptOutside hwf).mono (openFrame_within h hs hj hc _)

/-- A wait that returns changes ENV only where a closing wait has failed, and there in the region only
(R158, R165). -/
theorem returnWait_envKept (c : WaitSite) (l : WaitLabel) (r : Bool) (s : State) :
    EnvKept (Phase.region s.arg (.inWait c l)) s.env (returnWait c r s).env := by
  cases r
  · cases c
    case c5 | s9 | p11 => exact envKept_abandon _ _
    all_goals exact .refl _ _
  · have henv : (returnWait c true s).env = s.env := by cases c <;> rfl
    rw [henv]
    exact .refl _ _

/-- ENV outside the command's region is as it was before a line. -/
def LineKept (s t : State) : Prop := EnvKept (s.ph.region s.arg) s.env t.env

/-- Each line of a command changes nothing outside the command's region (R46, R50). -/
theorem line_envKept {s t : State} (h : s.Inv) (hs : Sent s) (hj : ∀ f, s.ph.job ≠ .frame f)
    (hl : line s = .go t) : LineKept s t := by
  have hdeselect := deselect_envKept h hs hj
  have hexchange : ∀ o i e, s.env.exchange o = some (i, e) → EnvKept (s.ph.region s.arg) s.env e :=
    fun _ _ _ hx => envKept_exchange _ hx
  refine line_goes (Q := LineKept s)
    ?_ ?_ ?_ ?_ ?_ ?_ ?_ ?_ ?_ ?_ ?_ ?_ ?_ ?_ hl
  · intro l _
    cases l <;> simp [lineInit, LineKept, envKept_select, EnvKept.refl, hdeselect]
    all_goals exact fun _ => hexchange _
  · intro l _
    cases l <;> simp [lineWaitReady, LineKept, apply_ite State.env, EnvKept.refl]
  · intro l _
    cases l <;> simp [lineWriteEnable, LineKept, apply_ite State.env, EnvKept.refl]
  · intro l _
    cases l <;> simp [lineWriteDisable, LineKept, EnvKept.refl]
  · intro l hp
    cases l <;> simp [lineEraseChip, LineKept, envKept_select, EnvKept.refl, hdeselect]
    · exact fun _ => hexchange _
    · rw [hp]; exact envKept_settle _ _
  · intro l hp
    cases l <;> simp [lineEraseSector, LineKept, apply_ite State.env, envKept_select, EnvKept.refl, hdeselect]
    case s11 => rw [hp]; exact envKept_settle _ _
    all_goals exact fun _ => hexchange _
  · intro l hp
    cases l <;> simp [lineWritePage, LineKept, apply_ite State.env, envKept_select, EnvKept.refl, hdeselect]
    case p13 => rw [hp]; exact envKept_settle _ _
    all_goals exact fun _ => hexchange _
  · intro l _
    cases l <;> simp [lineBeginRead, LineKept, apply_ite State.env, envKept_select, EnvKept.refl]
    all_goals exact fun _ => hexchange _
  · intro l _
    cases l <;> simp [lineReadNext, LineKept, EnvKept.refl]
    exact fun _ => hexchange _
  · intro l _
    cases l <;> simp [lineEndRead, LineKept, apply_ite State.env, EnvKept.refl, hdeselect]
  · intro c l hp
    cases l <;> simp [lineWait, LineKept, apply_ite State.env, envKept_select, EnvKept.refl, hdeselect]
    case w2 | w3 => exact fun _ => hexchange _
    case w5 =>
      rw [hp]
      split
      · exact .refl _ _
      · exact returnWait_envKept c .w5 true s
    case w6 =>
      rw [hp]
      split
      · exact returnWait_envKept c .w6 false { s with clk := s.clk.advance, ph := .inWait c .w6, trace := _ }
      · exact .refl _ _
  · intro c l _
    cases l <;> simp [lineEnable, LineKept, envKept_select, hdeselect]
    case v7 => cases c <;> cases writeEnabledBit s.sr <;> exact .refl _ _
    all_goals exact fun _ => hexchange _
  · intro c l _
    cases l <;> simp [lineDisable, LineKept, envKept_select, hdeselect]
    exact fun _ => hexchange _
  · exact fun f l hp => absurd (by rw [hp]; rfl) (hj f)

end Sys2Proof.Machine
end

section
/-! SUPPORT. The contents of the array through a whole command, ended or cut by a reset (spec/20_memory.md
R46, R50, R53, spec/70_reset_and_hazards.md R201, R202). -/

namespace Sys2Proof.Machine

open Sys2Proof.Claims

/-! ## The region of a command -/

/-- The region that a job addresses (R201). -/
def Job.region (a : Addr) : Job → Option Region
  | .command code =>
    if code = 0x5 then some .whole
    else if code = 0x6 then some (.sector a)
    else if code = 0x7 then some (.page a)
    else Option.none
  | _ => Option.none

/-- Every line of a command addresses the command's region. -/
theorem region_of_job {p : Phase} (a : Addr) (hj : ∀ f, p.job ≠ .frame f) : p.region a = p.job.region a := by
  cases p
  case frame f l => exact absurd rfl (hj f)
  case inWait c l => cases c <;> rfl
  case inEnable c l => cases c <;> rfl
  case inDisable c l => cases c <;> rfl
  all_goals rfl

/-- The region of the accepted command is the one its operand names. -/
theorem commandRegion_eq {i : Instr} (s : State) (hi : isHostCommand i = true) :
    commandRegion i = (Job.command (cwOp (commandWord i))).region (accepted i s).arg := by
  cases i <;> simp only [isHostCommand, Bool.false_eq_true] at hi <;>
    simp [commandRegion, commandWord, Job.region, accepted]

/-! ## A command in flight -/

/-- A command in flight that began with ENV as `e`: the frame it has opened, its region and what it has kept
of the array so far. -/
structure InCommand (code : BitVec 4) (r : Option Region) (e : Env) (u : State) : Prop where
  inv    : u.Inv
  sent   : Sent u
  job    : u.ph.job = .command code
  region : (Job.command code).region u.arg = r
  kept   : EnvKept r e u.env

theorem InCommand.not_frame {code : BitVec 4} {r : Option Region} {e : Env} {u : State}
    (h : InCommand code r e u) (f : WireFrame) : u.ph.job ≠ .frame f := by
  rw [h.job]
  exact Job.noConfusion

theorem InCommand.phase_region {code : BitVec 4} {r : Option Region} {e : Env} {u : State}
    (h : InCommand code r e u) : u.ph.region u.arg = r := by
  rw [region_of_job u.arg h.not_frame, h.job, h.region]

theorem InCommand.sampled {code : BitVec 4} {r : Option Region} {e : Env} {u : State}
    (h : InCommand code r e u) : InCommand code r e (sampled u) :=
  ⟨h.inv.sampled, h.sent, h.job, h.region, h.kept⟩

theorem InCommand.presenting {code : BitVec 4} {r : Option Region} {e : Env} {u : State} (o : Byte)
    (h : InCommand code r e u) : InCommand code r e (presenting o u) :=
  ⟨h.inv.presenting o, h.sent, h.job, h.region, h.kept⟩

/-- A line keeps the array outside the region, and ends the command with a response or goes on with it. -/
theorem InCommand.line {code : BitVec 4} {r : Option Region} {e : Env} {u v : State}
    (h : InCommand code r e u) (hl : line u = .go v) :
    EnvKept r e v.env ∧ (v.ph = .idle ∧ v.rsp.valid = true ∨ InCommand code r e v) := by
  have hf := line_frame hl
  have hkept : EnvKept r e v.env := by
    have hline := line_envKept h.inv h.sent h.not_frame hl
    rw [LineKept, h.phase_region] at hline
    exact h.kept.trans hline
  refine ⟨hkept, ?_⟩
  rcases hf.job with hidle | hjob
  · exact .inl ⟨hidle, (hf.ends hidle h.not_frame).2⟩
  · exact .inr ⟨line_inv h.inv hl, line_sent h.inv h.sent hl, hjob.trans h.job, by rw [hf.arg]; exact h.region,
      hkept⟩

/-- An admitted command stands at its first label with nothing sent. -/
theorem inCommand_firstLabel {i : Instr} {s : State} (hi : isHostCommand i = true) (h : s.Inv)
    (hp : s.ph = .idle) (hg : admits (cwOp (commandWord i)) s.rda = true) :
    InCommand (cwOp (commandWord i)) (commandRegion i) s.env
      (goto (firstLabel (cwOp (commandWord i))) (accepted i s)) := by
  refine ⟨goto_firstLabel_inv hi (accepted_inv h hp) hp hg, fun c _ => ?_, firstLabel_job hi,
    (commandRegion_eq s hi).symm, .refl _ _⟩
  cases i <;> simp only [isHostCommand, Bool.false_eq_true] at hi <;>
    simp [commandWord, firstLabel, sentAt]

/-! ## Commands with no reset to come -/

/-- A host command leaves the array as it was outside its region, on every path (R46, R50). -/
theorem exec_command_envKept {i : Instr} {s t : State} (h : s.Inv) (hr : s.rstIn = [])
    (hi : isHostCommand i = true) (he : exec i s = .next t) : EnvKept (commandRegion i) s.env t.env := by
  rcases exec_command_cases hi he with ⟨-, rfl⟩ | ⟨-, -, rfl⟩ | ⟨hc, hg, hrun⟩
  · exact .refl _ _
  · exact .refl _ _
  · have hbegun := inCommand_firstLabel hi h (cmdReady_idle hc).1 hg
    have hend : EnvKept (commandRegion i) s.env t.env ∧
        (t.ph = .idle ∨ InCommand (cwOp (commandWord i)) (commandRegion i) s.env t) := by
      refine run_preserves_quiet (P := fun u => EnvKept (commandRegion i) s.env u.env ∧
        (u.ph = .idle ∨ InCommand (cwOp (commandWord i)) (commandRegion i) s.env u)) ?_ ?_ hrun
        (by simp [accepted, hr]) ⟨hbegun.kept, .inr hbegun⟩
      · rintro u v hp hl ⟨-, hu⟩
        obtain ⟨hkept, hv⟩ := (hu.resolve_left hp).line hl
        exact ⟨hkept, hv.imp_left And.left⟩
      · rintro u o ⟨hkept, hu⟩
        exact ⟨hkept, hu.imp_right (InCommand.presenting o)⟩
    exact hend.1

theorem isHostCommand_of_readOnly {i : Instr} (h : isReadOnly i = true) : isHostCommand i = true := by
  cases i <;> simp [isReadOnly] at h <;> rfl

theorem commandRegion_of_readOnly {i : Instr} (h : isReadOnly i = true) : commandRegion i = none := by
  cases i <;> simp [isReadOnly] at h <;> rfl

/-- Settles O50: the region of such a command is empty. -/
theorem readOnlyCommandsKeepFlash : Obligations.ReadOnlyCommandsKeepFlash := by
  intro s t i h hr hread he a
  have hkept := exec_command_envKept h hr (isHostCommand_of_readOnly hread) he
  rw [commandRegion_of_readOnly hread] at hkept
  exact hkept.byteAt fun _ => not_inRegion_none

/-- Settles O51: the region of each of the two is the sector or the page of its operand. -/
theorem storesStayInTheirRegion : Obligations.StoresStayInTheirRegion := by
  intro s t rsv a buf h hready
  constructor
  · intro he b hb
    exact (exec_command_envKept h hready.2 rfl he).byteAt fun size => by
      rw [commandRegion, inRegion_some]; exact hb
  · intro he b hb
    exact (exec_command_envKept h hready.2 rfl he).byteAt fun size => by
      rw [commandRegion, inRegion_some]; exact hb

/-! ## A reset in the middle of a command -/

/-- What a reset leaves of a chip in the middle of a command (R201, U15). -/
def CutFrom (r : Option Region) (c : Chip) (e : Env) : Prop :=
  ∃ c' k epoch, e = .chip c' ∧ c'.busy = Config.anyBusy k ∧ c'.wel = Config.anyLatch k ∧ KeptOutside r c c' ∧
    ∀ b, inRegion (chipBytes c.par.size) r b → c'.content b = Config.anyContent epoch b

theorem cutFrom_abandon (r : Option Region) (c : Chip) : CutFrom r c ((Env.chip c).abandon r) := by
  cases r with
  | none =>
    exact ⟨_, c.fresh, 0, rfl, rfl, rfl, .of_array _ (forgetStatus_array c), fun b hb => absurd hb not_inRegion_none⟩
  | some g =>
    refine ⟨_, (c.forget g).fresh, c.fresh, rfl, rfl, rfl,
      (forget_keptOutside g c).trans (.of_array _ (forgetStatus_array _)), fun b hb => ?_⟩
    rw [Chip.content_of_array (forgetStatus_array (c.forget g))]
    exact Chip.content_forget (inRegion_some.mp hb)

theorem CutFrom.trans {r : Option Region} {c d : Chip} {e : Env} (h : KeptOutside r c d) (hd : CutFrom r d e) :
    CutFrom r c e := by
  obtain ⟨c', k, epoch, henv, hbusy, hwel, hkept, hin⟩ := hd
  rw [h.1] at hin
  exact ⟨c', k, epoch, henv, hbusy, hwel, h.trans hkept, hin⟩

/-- A reset ends the open frame and leaves the region of the command any value (R201). -/
theorem InCommand.takeReset {code : BitVec 4} {r : Option Region} {c : Chip} {u : State}
    (h : InCommand code r (.chip c) u) (hp : u.ph ≠ .idle) : CutFrom r c (takeReset u).env := by
  have hkept : EnvKept r (.chip c) (if u.sel then u.env.deselect else u.env) := by
    split
    · have hdeselect := deselect_envKept h.inv h.sent h.not_frame
      rw [h.phase_region] at hdeselect
      exact h.kept.trans hdeselect
    · exact h.kept
  rw [takeReset_env, resetEnv]
  simp only [hp, if_false, h.phase_region]
  cases hd : (if u.sel then u.env.deselect else u.env) with
  | script as => rw [hd] at hkept; exact absurd hkept id
  | chip d =>
    rw [hd] at hkept
    exact (cutFrom_abandon r d).trans hkept

/-- A host command on a chip ends with a response, is cut by a reset, or is still in flight. -/
theorem exec_command_cut {i : Instr} {s t : State} {c : Chip} (h : s.Inv) (hc : s.env = .chip c)
    (hready : cmdReady s = true) (hi : isHostCommand i = true) (he : exec i s = .next t) :
    (t.ph = .idle → t.rsp.valid = true) ∨ CutFrom (commandRegion i) c t.env := by
  rcases exec_command_cases hi he with ⟨hnot, -⟩ | ⟨-, -, rfl⟩ | ⟨-, hg, hrun⟩
  · rw [hready] at hnot
    cases hnot
  · exact .inl fun _ => rfl
  · have hbegun := inCommand_firstLabel hi h (cmdReady_idle hready).1 hg
    rw [hc] at hbegun
    have hend : InCommand (cwOp (commandWord i)) (commandRegion i) (.chip c) t ∨
        t.ph = .idle ∧ (t.rsp.valid = true ∨ CutFrom (commandRegion i) c t.env) := by
      refine run_preserves (P := fun u => InCommand (cwOp (commandWord i)) (commandRegion i) (.chip c) u ∨
        u.ph = .idle ∧ (u.rsp.valid = true ∨ CutFrom (commandRegion i) c u.env)) ?_ ?_ ?_ ?_ hrun (.inl hbegun)
      · intro u hp _ hu
        exact .inr ⟨rfl, .inr ((hu.resolve_right fun hidle => hp hidle.1).takeReset hp)⟩
      · exact fun u hu => hu.imp_left InCommand.sampled
      · intro u v hp hl hu
        rcases ((hu.resolve_right fun hidle => hp hidle.1).line hl).2 with ⟨hidle, hvalid⟩ | hv
        · exact .inr ⟨hidle, .inl hvalid⟩
        · exact .inl hv
      · exact fun u o hu => hu.imp_left (InCommand.presenting o)
    rcases hend with hflight | ⟨-, hvalid | hcut⟩
    · exact .inl fun hidle => absurd hflight.job (by rw [hidle]; exact Job.noConfusion)
    · exact .inl fun _ => hvalid
    · exact .inr hcut

/-- Settles O60: with no valid response the command was cut, and the chip is as the reset left it. -/
theorem resetInCommandForgetsRegion : Obligations.ResetInCommandForgetsRegion := by
  intro s t c i h hp hr hc hi he ht hvalid
  have hready : cmdReady s = true := by simp [cmdReady, hp, hr]
  rcases exec_command_cut h hc hready hi he with hresponded | hcut
  · rw [hresponded ht] at hvalid
    cases hvalid
  · obtain ⟨c', k, epoch, henv, hbusy, hwel, hkept, hin⟩ := hcut
    refine ⟨c', k, epoch, henv, hbusy, hwel, fun b => ⟨fun hb => ?_, fun hb => ?_⟩⟩
    · simp [State.byteAt, henv, Env.byteAt, hin b hb]
    · simp [State.byteAt, henv, hc, Env.byteAt, hkept.2 b hb]

/-! ## A reset between commands -/

/-- The end of a read frame does nothing to the chip. -/
theorem onDeselect_readFrame {c : Chip} {rest : List Byte} (hf : c.frame = some (Config.opReadData :: rest)) :
    c.onDeselect = { c with frame := none } := by
  have hact : c.act (Config.opReadData :: rest) = c := by
    unfold Chip.act
    split
    · rename_i hbytes
      obtain ⟨rfl, -⟩ := List.cons.inj hbytes
      simp [Chip.actOpcode, Config.opReadData, Config.opWriteEnable, Config.opWriteDisable, Config.opChipErase]
    · rename_i hbytes
      obtain ⟨rfl, -⟩ := List.cons.inj hbytes
      simp [Chip.actAddressed, Config.opReadData, Config.opSectorErase, Config.opPageProgram]
    · rfl
  rw [Chip.onDeselect, hf, Option.getD_some, hact, ite_self]

/-- Settles O11: between commands the reset event only ends the read frame of a session. -/
theorem resetBetweenCommandsKeepsFlash : Obligations.ResetBetweenCommandsKeepsFlash := by
  intro s t h hp hr hs
  have henv : t.env = if s.sel then s.env.deselect else s.env := by
    cases (step_reset hr).symm.trans hs
    simp [resetEnv, hp]
  refine ⟨fun hsel => by simp [henv, hsel], fun hsel => by simp [henv, hsel], ?_⟩
  have hchip : ∀ c, s.env = .chip c → ∃ c', t.env = .chip c' ∧ c'.busy = c.busy ∧ c'.wel = c.wel ∧
      c'.array = c.array := by
    intro c hc
    rcases h.idle hp with ⟨-, ha⟩ | ⟨-, ha⟩
    · have hsel : s.sel = false := by simpa using ha.sel
      exact ⟨c, by simp [henv, hsel, hc], rfl, rfl, rfl⟩
    · have hsel : s.sel = true := by simpa using ha.sel
      have hag : envAgrees (.inFrame Config.opReadData) (.chip c) = true := hc ▸ ha.env
      rcases frame_of_agrees hag with ⟨hb, -⟩ | ⟨hb, -⟩ | ⟨op, rest, hb, hf⟩ <;> cases hb
      exact ⟨{ c with frame := none }, by simp [henv, hsel, hc, Env.deselect, onDeselect_readFrame hf], rfl, rfl,
        rfl⟩
  refine ⟨fun c hc => ?_, fun a => ?_⟩
  · obtain ⟨c', hc', hbusy, hwel, harray⟩ := hchip c hc
    exact ⟨c', hc', hbusy, hwel, (Chip.array_eq_iff.mp harray).2.1⟩
  · cases hc : s.env with
    | script as =>
      have hscript : t.env = .script as := by
        rw [henv, hc]
        split <;> rfl
      simp [State.byteAt, hc, hscript, Env.byteAt]
    | chip c =>
      obtain ⟨c', hc', -, -, harray⟩ := hchip c hc
      simp [State.byteAt, hc, hc', Env.byteAt, Chip.content_of_array harray a]

end Sys2Proof.Machine
end

section
/-! SUPPORT. The wire rows run as lone frames that ENV answers (spec/30_encoding.md R87, R88, R92). -/

namespace Sys2Proof.Machine

open Sys2Proof.Claims

/-- The state after a lone frame that ENV has answered with `is`. -/
def frameSent (f : WireFrame) (is : List Byte) (e : Env) (s : State) : State :=
  keepReceived f.row is.tail
    { s with
      env := e, xferStart := false, xferOut := f.operands.getLastD f.row.opcode
      trace := s.trace ++ frameEvents f.bytes is }

/-- A well-formed wire row that ENV answers runs whole. -/
theorem exec_wire_answered {i : Instr} {is : List Byte} {s : State} {e : Env} (h : s.ready) (hs : s.sel = false)
    (hi : isHostCommand i = false) (hwf : i.wellFormed = true)
    (hf : s.env.frame (wireFrame i).bytes = some (is, e)) :
    exec i s = .next (frameSent (wireFrame i) is e s) :=
  (exec_wire s hi hwf).trans (sendFrame_answered h hs hf)

/-- A row of which SEQ keeps nothing changes the transport outputs and the trace. -/
theorem exec_wire_discarded {i : Instr} {is : List Byte} {s : State} {e : Env} (h : s.ready) (hs : s.sel = false)
    (hi : isHostCommand i = false) (hwf : i.wellFormed = true) (hstatus : i ≠ .wReadStatus1)
    (hid : i ≠ .wReadIdentification) (hf : s.env.frame (wireFrame i).bytes = some (is, e)) :
    exec i s = .next
      { s with
        env := e, xferStart := false, xferOut := (wireFrame i).operands.getLastD (wireFrame i).row.opcode
        trace := s.trace ++ frameEvents (wireFrame i).bytes is } := by
  rw [exec_wire_answered h hs hi hwf hf, frameSent]
  have hrow := wireFrame_row_ne_readStatus hstatus
  have hrow' := wireFrame_row_ne_readId hid
  cases hr : (wireFrame i).row <;> simp_all [keepReceived]

/-- Settles O35: such a row is a frame of the opcode alone, of which SEQ keeps nothing. -/
theorem opcodeOnlyRowsSendOneByte : Obligations.OpcodeOnlyRowsSendOneByte := fun _ _ _ h hs =>
  ⟨exec_wire_discarded (i := .wWriteDisable) h hs rfl rfl nofun nofun,
    exec_wire_discarded (i := .wWriteEnable) h hs rfl rfl nofun nofun,
    exec_wire_discarded (i := .wChipErase) h hs rfl rfl nofun nofun⟩

/-- Settles O36: SEQ keeps the bytes that come after the opcode's. -/
theorem receivingRowsKeepBytes : Obligations.ReceivingRowsKeepBytes := by
  constructor
  · intro s x sr e h hs hf
    exact (exec_wire_answered (i := .wReadStatus1) h hs rfl rfl hf).trans rfl
  · intro s x i1 i2 i3 e h hs hf
    exact (exec_wire_answered (i := .wReadIdentification) h hs rfl rfl hf).trans rfl

/-- The last byte of a read frame is the last DUMMY, or with none the low address byte. -/
theorem getLastD_dummies (n : Nat) (b d : Byte) :
    (b :: List.replicate n Config.dummy).getLastD d = if n = 0 then b else 0x00 := by
  cases n with
  | zero => rfl
  | succ n =>
    rw [List.replicate_succ', ← List.cons_append, List.getLastD_concat, if_neg (Nat.succ_ne_zero n)]
    rfl

/-- Settles O37: each row sends its layout, and SEQ keeps nothing of what it receives. -/
theorem addressedRowsSendLayout : Obligations.AddressedRowsSendLayout := by
  intro s is e h hs
  refine ⟨fun a => exec_wire_discarded (i := .wSectorErase4k a) h hs rfl rfl nofun nofun,
    fun page data hlen hf => ?_, fun a n hf => ?_⟩
  · refine (exec_wire_discarded (i := .wPageProgram page data) h hs rfl (decide_eq_true hlen) nofun nofun hf).trans ?_
    obtain ⟨o, os, rfl⟩ := List.exists_cons_of_length_pos (l := data) (by omega)
    rfl
  · refine (exec_wire_discarded (i := .wReadData a n) h hs rfl rfl nofun nofun hf).trans ?_
    rw [← getLastD_dummies n (addrLow a) 0x03]
    rfl

end Sys2Proof.Machine
end

section
/-! SUPPORT. A lone frame that ENV does not answer whole: where it stands after each exchange, where it waits,
and how it goes on (spec/20_memory.md R69, spec/30_encoding.md R87). -/

namespace Sys2Proof.Machine

open Sys2Proof.Claims

/-! ## A frame after some of its exchanges -/

/-- The label a lone frame stands at once it has received `is`. -/
def labelAfter (f : WireFrame) : List Byte → FrameLabel
  | [] => .opcode
  | _ :: received => .operands (f.operands.drop received.length) received

/-- The line there exchanges the next byte of the frame. -/
theorem line_labelAfter {f : WireFrame} {is : List Byte} {s : State} (hp : s.ph = .frame f (labelAfter f is))
    (hlen : is.length < f.bytes.length) :
    line s = xfer (f.bytes.getD is.length 0) (fun i => goto (.frame f (labelAfter f (is ++ [i])))) s := by
  cases is with
  | nil => simp [line, hp, labelAfter, lineFrame, WireFrame.bytes]
  | cons i received =>
    have hlt : received.length < f.operands.length := by simpa [WireFrame.bytes] using hlen
    simp only [line, hp, labelAfter, lineFrame, List.drop_eq_getElem_cons hlt]
    simp [WireFrame.bytes, hlt]

theorem xferEvents_append (bytes is js : List Byte) :
    xferEvents bytes (is ++ js) = xferEvents bytes is ++ xferEvents (bytes.drop is.length) js := by
  induction is generalizing bytes with
  | nil => cases bytes <;> cases js <;> rfl
  | cons i is ih =>
    cases bytes with
    | nil => simp [xferEvents]
    | cons o bytes => simp [xferEvents, ih]

theorem xferEvents_next {bytes is : List Byte} (i : Byte) (h : is.length < bytes.length) :
    xferEvents bytes (is ++ [i]) = xferEvents bytes is ++ [.xfer (bytes.getD is.length 0) i] := by
  rw [xferEvents_append, List.drop_eq_getElem_cons h]
  simp [xferEvents, h]

/-- The state of a lone frame that has received `is` since the state `s` in which it was selected; `start` and
`out` are the transport outputs. -/
def frameReached (f : WireFrame) (is : List Byte) (e : Env) (start : Bool) (out : Byte) (s : State) : State :=
  { s with
    ph := .frame f (labelAfter f is), env := e, xferStart := start, xferOut := out
    trace := s.trace ++ xferEvents f.bytes is }

/-- A lone frame takes the answers that ENV offers, one exchange each. -/
theorem run_frameReached {f : WireFrame} {s : State} (hr : s.rstIn = []) (hs : s.sel = true) (bs cs : List Byte) :
    ∀ (is : List Byte) (start : Bool) (out : Byte), is.length + bs.length ≤ f.bytes.length →
      ∃ start' out', ∀ n, run (n + bs.length) (frameReached f is (.script (bs ++ cs)) start out s) =
        run n (frameReached f (is ++ bs) (.script cs) start' out' s) := by
  induction bs with
  | nil => exact fun is start out _ => ⟨start, out, fun n => by simp⟩
  | cons b bs ih =>
    intro is start out hlen
    simp only [List.length_cons] at hlen
    obtain ⟨start', out', hrest⟩ := ih (is ++ [b]) false (f.bytes.getD is.length 0)
      (by simp only [List.length_append, List.length_cons, List.length_nil]; omega)
    refine ⟨start', out', fun n => ?_⟩
    rw [List.append_assoc, List.singleton_append] at hrest
    rw [List.length_cons, ← Nat.add_assoc, ← hrest n]
    refine run_line _ nofun hr ?_
    rw [line_labelAfter rfl (by omega), List.cons_append]
    refine (xfer_of_answer (s := frameReached f is (.script (b :: (bs ++ cs))) start out s) _ hs rfl).trans ?_
    simp [frameReached, goto, xferEvents_next b (show is.length < f.bytes.length by omega)]

/-- With all of its bytes exchanged the frame is deselected and SEQ is idle. -/
theorem run_frameReached_end {f : WireFrame} {is : List Byte} {e : Env} {start : Bool} {out : Byte} {s : State}
    (n : Nat) (hr : s.rstIn = []) (hs : s.sel = true) (hlen : is.length = f.bytes.length) :
    ∃ u, run (n + 1) (frameReached f is e start out s) = .next u ∧ u.ph = .idle ∧ u.sel = false ∧
      u.trace = s.trace ++ xferEvents f.bytes is ++ [.deselect] := by
  have hlabel : labelAfter f is = .operands [] is.tail := by
    cases is with
    | nil => simp [WireFrame.bytes] at hlen
    | cons i received =>
      have hdone : f.operands.length ≤ received.length := by simp [WireFrame.bytes] at hlen; omega
      simp [labelAfter, List.drop_eq_nil_of_le hdone]
  have hline : line (frameReached f is e start out s) = .go (keepReceived f.row is.tail
      (goto .idle { frameReached f is e start out s with
        sel := false, env := e.deselect, trace := s.trace ++ xferEvents f.bytes is ++ [.deselect] })) := by
    simp only [line, frameReached, hlabel, lineFrame]
    exact deselect_of_selected _ hs
  refine ⟨_, run_respond n nofun hr hline ?_, ?_, ?_, ?_⟩ <;> cases f.row <;> rfl

/-- Short of an answer the frame waits, the next byte presented (R69). -/
theorem line_frameReached_wait {f : WireFrame} {is : List Byte} {start : Bool} {out : Byte} {s : State}
    (hs : s.sel = true) (hlen : is.length < f.bytes.length) :
    line (frameReached f is (.script []) start out s) =
      .wait (frameReached f is (.script []) true (f.bytes.getD is.length 0) s) := by
  rw [line_labelAfter rfl hlen, xfer]
  simp [frameReached, hs, Env.exchange]

/-- The state in which a lone frame has been selected. -/
def opened (s : State) : State := { s with sel := true, trace := s.trace ++ [.select] }

/-- A frame that lacks answers takes those there are and waits at the next byte. -/
theorem sendFrame_waits {f : WireFrame} {s : State} {as : List Byte} (h : s.ready) (hs : s.sel = false)
    (he : s.env = .script as) (hlen : as.length < f.bytes.length) :
    sendFrame f s = .next (frameReached f as (.script []) true (f.bytes.getD as.length 0)
      (opened s)) := by
  obtain ⟨n, hn⟩ : ∃ n, budget (beginFrame f s) = n + 1 + as.length + 1 :=
    ⟨budget (beginFrame f s) - (as.length + 2), by
      have hbytes : f.bytes.length = f.operands.length + 1 := rfl
      have hlines : (beginFrame f s).ph.frameLines = f.operands.length + 3 := rfl
      unfold budget
      omega⟩
  have hquiet : (beginFrame f s).rstIn = [] := by simp [beginFrame, h.2]
  have hselect : line (beginFrame f s) = .go (frameReached f [] (.script (as ++ [])) s.xferStart s.xferOut
      (opened s)) := by
    have hselected := select_of_released (s := beginFrame f s) (goto (.frame f .opcode)) hs
    refine hselected.trans ?_
    simp [beginFrame, goto, frameReached, labelAfter, he, Env.select, h.2, xferEvents, opened]
  obtain ⟨start, out, hrun⟩ := run_frameReached (f := f) (s := opened s) h.2 rfl as [] [] s.xferStart s.xferOut
    (by simp; omega)
  have hwait := line_frameReached_wait (start := start) (out := out) (s := opened s) rfl hlen
  rw [sendFrame, if_pos (cmdReady_of_ready h), hn, run_line _ (by simp [beginFrame]) hquiet hselect, hrun (n + 1),
    List.nil_append]
  exact run_wait n nofun ((tick_quiet (s := frameReached f as (.script []) start out (opened s)) h.2).trans hwait) h.2

/-- When the answers it lacked have come, the next step of the machine sends the rest of the frame. -/
theorem step_frameReached {f : WireFrame} {as bs : List Byte} {start : Bool} {out : Byte} {s : State}
    (hr : s.rstIn = []) (hs : s.sel = true) (hlen : as.length + bs.length = f.bytes.length) :
    ∃ u, step (frameReached f as (.script bs) start out s) = .next u ∧ u.ph = .idle ∧ u.sel = false ∧
      u.trace = s.trace ++ xferEvents f.bytes (as ++ bs) ++ [.deselect] := by
  obtain ⟨n, hn⟩ : ∃ n, budget (frameReached f as (.script bs) start out s) = n + 1 + bs.length :=
    ⟨budget (frameReached f as (.script bs) start out s) - (bs.length + 1), by
      have hbytes : f.bytes.length = f.operands.length + 1 := rfl
      have hlines : (frameReached f as (.script bs) start out s).ph.frameLines = f.operands.length + 3 := rfl
      unfold budget
      omega⟩
  obtain ⟨start', out', hrun⟩ := run_frameReached hr hs bs [] as start out hlen.le
  rw [List.append_nil] at hrun
  have hstep := step_in_flight (s := frameReached f as (.script bs) start out s) (rstNow_quiet hr) nofun
  rw [hstep, resume, hn, hrun (n + 1)]
  exact run_frameReached_end n hr hs (by simpa using hlen)

theorem encode_wire {i : Instr} (hi : isHostCommand i = false) : encode i = .frame (wireFrame i).bytes := by
  cases i <;> simp only [isHostCommand, Bool.true_eq_false] at hi <;> rfl

/-- Settles O38: while selected the Select stops; else the frame takes the answers there are, and goes on from
where it waits when the others come. -/
theorem frameStopsOrWaits : Obligations.FrameStopsOrWaits := by
  intro s i bytes h hwf hbytes
  have hi : isHostCommand i = false := by cases i <;> simp [encode] at hbytes <;> rfl
  obtain rfl : (wireFrame i).bytes = bytes := by simpa [encode_wire hi] using hbytes
  rw [exec_wire s hi hwf]
  constructor
  · intro hs
    obtain ⟨n, hn⟩ := beginFrame_budget (wireFrame i) s
    rw [sendFrame, if_pos (cmdReady_of_ready h), hn]
    refine run_stop n (by simp [beginFrame]) ?_
    rw [tick_quiet (by simp [beginFrame, h.2])]
    simp [line, beginFrame, lineFrame, select, hs]
  intro as hs he hlen
  refine ⟨_, sendFrame_waits h hs he hlen, ?_, rfl, rfl, rfl, by simp [frameReached, opened], fun bs hbs => ?_⟩
  · rw [State.waiting, line_frameReached_wait rfl hlen]
    rfl
  obtain ⟨u, hu, hidle, hsel, htrace⟩ := step_frameReached (start := true)
    (out := (wireFrame i).bytes.getD as.length 0) (s := opened s) h.2 rfl hbs
  exact ⟨u, hu, hidle, hsel, by simp [htrace, opened, frameEvents]⟩

end Sys2Proof.Machine
end

section
/-! SUPPORT. The commands that wait, stage by stage: the bound check, the opening wait, the confirmed enable,
the erase or program frame, the closing wait, the disable frame (spec/42_ready_wait.md R135, R138,
spec/44_erase.md R153, R155, spec/45_page_write.md R161, spec/46_read.md R167). -/

namespace Sys2Proof.Machine

open Sys2Proof.Claims

/-! ## Stages of a run -/

/-- A run from `s` comes to `t` within `b` lines, and goes on from there. -/
def Reaches (b : Nat) (s t : State) : Prop := ∃ m ≤ b, ∀ k, run (k + m) s = run k t

theorem Reaches.refl (s : State) : Reaches 0 s s := ⟨0, le_rfl, fun _ => rfl⟩

theorem Reaches.trans {b b' : Nat} {s t u : State} (h : Reaches b s t) (h' : Reaches b' t u) :
    Reaches (b + b') s u := by
  obtain ⟨m, hm, hrun⟩ := h
  obtain ⟨m', hm', hrun'⟩ := h'
  refine ⟨m + m', Nat.add_le_add hm hm', fun k => ?_⟩
  rw [show k + (m + m') = k + m' + m by omega, hrun, hrun']

theorem Reaches.mono {b b' : Nat} {s t : State} (h : Reaches b s t) (hb : b ≤ b') : Reaches b' s t := by
  obtain ⟨m, hm, hrun⟩ := h
  exact ⟨m, hm.trans hb, hrun⟩

theorem reaches_line {s t : State} (hp : s.ph ≠ .idle) (hr : s.rstIn = []) (hl : line s = .go t) :
    Reaches 1 s t :=
  ⟨1, le_rfl, fun k => run_line k hp hr hl⟩

theorem reaches_goto {p : Phase} {s t : State} (hr : s.rstIn = [])
    (hl : line (goto p s) = .go t)
    (hp : p ≠ .idle := by nofun) : Reaches 1 (goto p s) t :=
  reaches_line hp hr hl

/-- The state after a select. -/
def selected (s : State) : State :=
  { s with sel := true, env := s.env.select, trace := s.trace ++ [.select] }

/-- The state after an exchange that ENV answered. -/
def exchanged (o i : Byte) (e : Env) (s : State) : State :=
  { s with env := e, xferStart := false, xferOut := o, trace := s.trace ++ [.xfer o i] }

/-- The state after a deselect. -/
def deselected (s : State) : State :=
  { s with sel := false, env := s.env.deselect, trace := s.trace ++ [.deselect] }

theorem reaches_select {p q : Phase} {s : State} (hr : s.rstIn = [])
    (hl : line (goto p s) = select (goto q) (goto p s)) (hs : s.sel = false)
    (hp : p ≠ .idle := by nofun) :
    Reaches 1 (goto p s) (goto q (selected s)) :=
  reaches_goto hr (hl.trans (select_of_released (s := goto p s) _ hs)) hp

theorem reaches_xfer {p : Phase} {o i : Byte} {e : Env} {s : State} {next : Byte → State → State}
    (hr : s.rstIn = []) (hl : line (goto p s) = xfer o next (goto p s)) (hs : s.sel = true)
    (hx : s.env.exchange o = some (i, e)) (hp : p ≠ .idle := by nofun) :
    Reaches 1 (goto p s) (next i (exchanged o i e (goto p s))) :=
  reaches_goto hr (hl.trans (xfer_of_answer (s := goto p s) next hs hx)) hp

theorem reaches_exchange {p q : Phase} {o i : Byte} {e : Env} {s : State} (hr : s.rstIn = [])
    (hl : line (goto p s) = xfer o (fun _ => goto q) (goto p s)) (hs : s.sel = true)
    (hx : s.env.exchange o = some (i, e)) (hp : p ≠ .idle := by nofun) :
    Reaches 1 (goto p s) (goto q (exchanged o i e s)) :=
  reaches_xfer hr hl hs hx hp

theorem reaches_deselect {p q : Phase} {s : State} (hr : s.rstIn = [])
    (hl : line (goto p s) = deselect (goto q) (goto p s)) (hs : s.sel = true)
    (hp : p ≠ .idle := by nofun) :
    Reaches 1 (goto p s) (goto q (deselected s)) :=
  reaches_goto hr (hl.trans (deselect_of_selected (s := goto p s) _ hs)) hp

/-- A run that comes to IDLE within its lines ends there. -/
theorem Reaches.run {b n : Nat} {s t : State} (h : Reaches b s t) (hb : b ≤ n) (ht : t.ph = .idle) :
    run n s = .next t := by
  obtain ⟨m, hm, hrun⟩ := h
  obtain ⟨k, rfl⟩ : ∃ k, n = k + m := ⟨n - m, by omega⟩
  rw [hrun, run_idle k ht]

/-! ## A command admitted with no session open -/

/-- The state in which an admitted command stands at its first label. -/
def begun (i : Instr) (s : State) : State := goto (firstLabel (cwOp (commandWord i))) (accepted i s)

theorem exec_begun {i : Instr} {s : State} (hi : isHostCommand i = true) (h : s.ready) (hrda : s.rda = false)
    (h9 : cwOp (commandWord i) ≠ 0x9) : exec i s = run (budget s) (begun i s) := by
  rw [exec_command hi (cmdReady_of_ready h), dispatch_admitted]
  · rfl
  · exact admits_other_of_noSession hrda (by exact h9)

/-- A command whose stages take no more lines than one step of the machine has ends in it. -/
theorem exec_of_reaches {i : Instr} {s t : State} {b : Nat} (hi : isHostCommand i = true) (h : s.ready)
    (hrda : s.rda = false) (h9 : cwOp (commandWord i) ≠ 0x9) (hreach : Reaches b (begun i s) t)
    (hb : b ≤ 16 * (2 ^ 32 + 64)) (ht : t.ph = .idle) : exec i s = .next t := by
  rw [exec_begun hi h hrda h9]
  exact hreach.run (hb.trans (by unfold budget; omega)) ht

/-! ## The procedures as stages -/

/-- The state in which WaitReady returns to its caller. -/
def waited (c : WaitSite) (w : WaitRun) (s : State) : State :=
  afterWait w { s with tmo := timeoutOf c s, t0 := w.t0 }

theorem reaches_wait {n : Nat} {w : WaitRun} {s : State} {c : WaitSite} (hp : s.ph = .inWait c .w0)
    (hr : s.rstIn = []) (hs : s.sel = false) (h : waitRun (timeoutOf c s) n s.clk s.env = some w) :
    Reaches (6 * n + 1) s (returnWait c w.ok (waited c w s)) :=
  run_waitRun hp hr hs h

theorem reaches_enable {s : State} {c : EnableSite} {x y sr : Byte} {e e' : Env} (hp : s.ph = .inEnable c .v0)
    (hr : s.rstIn = []) (hs : s.sel = false) (hf : s.env.frame [Config.opWriteEnable] = some ([x], e))
    (hf' : e.frame [Config.opReadStatus, Config.dummy] = some ([y, sr], e')) :
    Reaches 8 s (returnEnable c (writeEnabledBit sr) (afterEnable c x y sr e' s)) :=
  ⟨8, le_rfl, fun k => run_enable k hp hr hs hf hf'⟩

theorem reaches_disable {s : State} {c : DisableSite} {x : Byte} {e : Env} (hp : s.ph = .inDisable c .u0)
    (hr : s.rstIn = []) (hs : s.sel = false) (hf : s.env.frame [Config.opWriteDisable] = some ([x], e)) :
    Reaches 3 s (afterDisableFrame c x e s) :=
  ⟨3, le_rfl, fun k => run_disable k hp hr hs hf⟩

/-! ## The commands that store, as one sequence -/

/-- The three commands that store (R50). -/
inductive Store where
  | chip
  | sector
  | page

namespace Store

/-- The instruction. -/
def instr (rsv : BitVec 4) (a : Addr) (buf : List Byte) : Store → Instr
  | chip => .eraseChip rsv a
  | sector => .eraseSector rsv a
  | page => .writePage rsv a buf

/-- The command code (R82). -/
def code : Store → BitVec 4
  | chip => 0x5
  | sector => 0x6
  | page => 0x7

/-- The page data port once the command is accepted (R33). -/
def port (buf old : List Byte) : Store → List Byte
  | chip => old
  | sector => old
  | page => buf

/-- The first label (R109). -/
def first : Store → Phase
  | chip => .eraseChip .c0
  | sector => .eraseSector .s0
  | page => .writePage .p0

/-- The caller's label of the opening wait (R138). -/
def opening : Store → WaitSite
  | chip => .c0
  | sector => .s1
  | page => .p1

/-- The caller's label of WriteEnable (R179). -/
def enabling : Store → EnableSite
  | chip => .c1
  | sector => .s2
  | page => .p2

/-- The label that opens the erase or program frame. -/
def opens : Store → Phase
  | chip => .eraseChip .c2
  | sector => .eraseSector .s3
  | page => .writePage .p3

/-- The bytes of that frame (R88). -/
def bytes (a : Addr) (buf : List Byte) : Store → List Byte
  | chip => [Config.opChipErase]
  | sector => [Config.opSectorErase, addrHigh a, addrMid a, addrLow a]
  | page => Config.opPageProgram :: addrHigh a :: addrMid a :: 0x00 :: buf

/-- What happens between the frame and the closing wait: the settling delay of WRITE_PAGE (R163). -/
def pause (p : Params) : Store → List Event
  | chip => []
  | sector => []
  | page => [.delay p.tSettle]

/-- The clock after it. -/
def clock (p : Params) (clk : Clock) : Store → Clock
  | chip => clk
  | sector => clk
  | page => settled p.tSettle clk

/-- The page-byte counter after the frame. -/
def count (cnt : Byte) : Store → Byte
  | chip => cnt
  | sector => cnt
  | page => 0xFF

/-- The caller's label of the closing wait (R138). -/
def closing : Store → WaitSite
  | chip => .c5
  | sector => .s9
  | page => .p11

/-- The timeout of the closing wait (R138). -/
def timeout (p : Params) : Store → Word
  | chip => p.tChip
  | sector => p.tSector
  | page => p.tDefault

/-- The region the command stores to (R50). -/
def region (a : Addr) : Store → Region
  | chip => .whole
  | sector => .sector a
  | page => .page a

/-- The caller's label of WriteDisable (R147). -/
def disabling : Store → DisableSite
  | chip => .c6
  | sector => .s10
  | page => .p12

/-- Whether the bound check lets the command go on (R153, R177). -/
def inBounds (a : Addr) (cap : Word) : Store → Prop
  | chip => True
  | sector => a.toNat < cap.toNat
  | page => a.toNat < cap.toNat

end Store

end Sys2Proof.Machine
end

section
/-! SUPPORT. Each stage of a command that stores, run (spec/44_erase.md R153, R155, spec/45_page_write.md R161). -/

namespace Sys2Proof.Machine

open Sys2Proof.Claims

namespace Store

/-! ## The bound check and the opening wait -/

theorem isHostCommand_instr (k : Store) (rsv : BitVec 4) (a : Addr) (buf : List Byte) :
    isHostCommand (k.instr rsv a buf) = true := by
  cases k <;> rfl

theorem op_ne_readNext (k : Store) (rsv : BitVec 4) (a : Addr) (buf : List Byte) :
    cwOp (commandWord (k.instr rsv a buf)) ≠ 0x9 := by
  cases k <;> simp [instr, commandWord]

@[simp] theorem accepted_arg (k : Store) (rsv : BitVec 4) (a : Addr) (buf : List Byte) (s : State) :
    (accepted (k.instr rsv a buf) s).arg = a := by
  cases k <;> simp [instr, accepted, commandWord]

theorem begun_instr (k : Store) (rsv : BitVec 4) (a : Addr) (buf : List Byte) (s : State) :
    begun (k.instr rsv a buf) s = goto k.first (accepted (k.instr rsv a buf) s) := by
  cases k <;> simp [begun, instr, commandWord, firstLabel, first]

/-- The first lines come to the opening wait where the bound check lets them. -/
theorem reaches_opening {k : Store} {s : State} (hr : s.rstIn = []) (hin : k.inBounds s.arg s.cap) :
    Reaches 2 (goto k.first s) (goto (.inWait k.opening .w0) s) := by
  cases k
  case chip => exact (reaches_goto hr rfl).mono (by omega)
  case sector =>
    have hcheck : line (goto (.eraseSector .s0) s) = .go (goto (.eraseSector .s1) s) :=
      congrArg Move.go (if_pos ((inRange_iff_toNat s.arg s.cap).mpr hin))
    exact (reaches_goto hr hcheck).trans (reaches_goto hr rfl)
  case page =>
    have hcheck : line (goto (.writePage .p0) s) = .go (goto (.writePage .p1) s) :=
      congrArg Move.go (if_pos ((inRange_iff_toNat s.arg s.cap).mpr hin))
    exact (reaches_goto hr hcheck).trans (reaches_goto hr rfl)

@[simp] theorem timeoutOf_opening (k : Store) (s : State) : timeoutOf k.opening s = s.par.tDefault := by
  cases k <;> rfl

theorem returnWait_opening_false (k : Store) (s : State) :
    returnWait k.opening false s = respondAny .fail { s with res := false } := by
  cases k <;> rfl

/-- After an opening wait that ended well the enable frame is next. -/
theorem reaches_enabling {k : Store} {s : State} (hr : s.rstIn = []) :
    Reaches 1 (returnWait k.opening true s) (goto (.inEnable k.enabling .v0) { s with res := true }) := by
  cases k <;> exact reaches_line nofun hr rfl

theorem returnEnable_true (k : Store) (s : State) :
    returnEnable k.enabling true s = goto k.opens { s with res := true } := by
  cases k <;> rfl

theorem returnEnable_false (k : Store) (s : State) :
    returnEnable k.enabling false s = respondAny .fail { s with res := false } := by
  cases k <;> rfl

/-! ## The erase or program frame -/

/-- The state at the closing wait, after the frame and the settling delay. -/
def stored (k : Store) (a : Addr) (buf is : List Byte) (e : Env) (s : State) : State :=
  { s with
    ph := .inWait k.closing .w0, env := e, xferStart := false, xferOut := (k.bytes a buf).getLastD 0
    cnt := k.count s.cnt, clk := k.clock s.par s.clk
    trace := s.trace ++ (frameEvents (k.bytes a buf) is ++ k.pause s.par) }

theorem reaches_stored_chip {buf is : List Byte} {e : Env} {s : State} (hr : s.rstIn = []) (hs : s.sel = false)
    (hf : s.env.frame (bytes s.arg buf .chip) = some (is, e)) :
    Reaches 4 (goto (opens .chip) s) (stored .chip s.arg buf is e s) := by
  obtain ⟨e1, hopen, rfl⟩ := Env.frame_some.mp hf
  obtain ⟨i, js, e2, hx, hrest, rfl⟩ := Env.exchanges_cons.mp hopen
  obtain ⟨rfl, rfl⟩ : [] = js ∧ e2 = e1 := by simpa using hrest
  have hframe : Reaches 3 (goto (.eraseChip .c2) s)
      (goto (.eraseChip .c5) (deselected (exchanged Config.opChipErase i e2 (selected s)))) :=
    ((reaches_select (q := .eraseChip .c3) hr rfl hs).trans
      (reaches_exchange (q := .eraseChip .c4) hr rfl rfl hx)).trans (reaches_deselect hr rfl rfl)
  refine hframe.trans (reaches_goto hr ?_)
  simp [line, lineEraseChip, goto, stored, deselected, exchanged, selected, hs, bytes, count, clock, pause,
    frameEvents, xferEvents, closing]

theorem reaches_stored_sector {buf is : List Byte} {e : Env} {s : State} (hr : s.rstIn = []) (hs : s.sel = false)
    (hf : s.env.frame (bytes s.arg buf .sector) = some (is, e)) :
    Reaches 7 (goto (opens .sector) s) (stored .sector s.arg buf is e s) := by
  obtain ⟨e5, hopen, rfl⟩ := Env.frame_some.mp hf
  obtain ⟨i, is1, e1, hx, hrest, rfl⟩ := Env.exchanges_cons.mp hopen
  obtain ⟨i2, is2, e2, hx2, hrest2, rfl⟩ := Env.exchanges_cons.mp hrest
  obtain ⟨i1, is3, e3, hx1, hrest1, rfl⟩ := Env.exchanges_cons.mp hrest2
  obtain ⟨i0, is4, e4, hx0, hrest0, rfl⟩ := Env.exchanges_cons.mp hrest1
  obtain ⟨rfl, rfl⟩ : [] = is4 ∧ e4 = e5 := by simpa using hrest0
  have hopcode : Reaches 2 (goto (.eraseSector .s3) s)
      (goto (.eraseSector .s5) (exchanged Config.opSectorErase i e1 (selected s))) :=
    (reaches_select (q := .eraseSector .s4) hr rfl hs).trans (reaches_exchange hr rfl rfl hx)
  have hhigh := hopcode.trans (reaches_exchange (q := .eraseSector .s6) hr rfl rfl hx2)
  have hmid := hhigh.trans (reaches_exchange (q := .eraseSector .s7) hr rfl rfl hx1)
  have hlow := hmid.trans (reaches_exchange (q := .eraseSector .s8) hr rfl rfl hx0)
  have hframe := hlow.trans (reaches_deselect (q := .eraseSector .s9) hr rfl rfl)
  refine hframe.trans (reaches_goto hr ?_)
  simp [line, lineEraseSector, goto, stored, deselected, exchanged, selected, hs, bytes, count, clock, pause,
    frameEvents, xferEvents, closing]

/-- P3 to P7: the opcode and the three address bytes, the low one 0x00 (R161, R162). -/
def pageAddressed (a : Addr) (i i2 i1 i0 : Byte) (e1 e2 e3 e4 : Env) (s : State) : State :=
  { exchanged 0x00 i0 e4 (exchanged (addrMid a) i1 e3 (exchanged (addrHigh a) i2 e2
      (exchanged Config.opPageProgram i e1 (selected s)))) with cnt := 0 }

/-- P8: the bytes of the buffer. -/
def pageSent (bytes is : List Byte) (e : Env) (s : State) : State :=
  { s with
    cnt := 0xFF, env := e, xferStart := false, xferOut := bytes.getLastD 0
    trace := s.trace ++ xferEvents bytes is }

theorem reaches_pageSent {buf is : List Byte} {e : Env} {s : State} (hr : s.rstIn = []) (hs : s.sel = true)
    (hcnt : s.cnt = 0) (hpage : s.page = buf) (hlen : buf.length = 256) (hx : s.env.exchanges buf = some (is, e)) :
    Reaches 256 (goto (.writePage .p8) s) (goto (.writePage .p9) (pageSent buf is e s)) := by
  obtain ⟨o, os, rfl⟩ := List.exists_cons_of_length_pos (l := buf) (by omega)
  have hrest : os.length + 1 = 256 := hlen
  refine ⟨os.length + 1, hrest.le, fun k =>
    (run_pageBytes (s := goto (.writePage .p8) s) k rfl hr hs ?_ ?_ hx).trans ?_⟩
  · simp [hcnt, hpage]
  · simp only [goto_cnt, hcnt]
    simp
    omega
  · cases os <;> rfl

theorem reaches_stored_page {buf is : List Byte} {e : Env} {s : State} (hr : s.rstIn = []) (hs : s.sel = false)
    (hpage : s.page = buf) (hlen : buf.length = 256) (hf : s.env.frame (bytes s.arg buf .page) = some (is, e)) :
    Reaches 264 (goto (opens .page) s) (stored .page s.arg buf is e s) := by
  obtain ⟨e5, hopen, rfl⟩ := Env.frame_some.mp hf
  obtain ⟨i, is1, e1, hx, hrest, rfl⟩ := Env.exchanges_cons.mp hopen
  obtain ⟨i2, is2, e2, hx2, hrest2, rfl⟩ := Env.exchanges_cons.mp hrest
  obtain ⟨i1, is3, e3, hx1, hrest1, rfl⟩ := Env.exchanges_cons.mp hrest2
  obtain ⟨i0, is4, e4, hx0, hrest0, rfl⟩ := Env.exchanges_cons.mp hrest1
  have hopcode : Reaches 2 (goto (.writePage .p3) s)
      (goto (.writePage .p5) (exchanged Config.opPageProgram i e1 (selected s))) :=
    (reaches_select (q := .writePage .p4) hr rfl hs).trans (reaches_exchange hr rfl rfl hx)
  have hhigh := hopcode.trans (reaches_exchange (q := .writePage .p6) hr rfl rfl hx2)
  have hmid := hhigh.trans (reaches_exchange (q := .writePage .p7) hr rfl rfl hx1)
  have haddress : Reaches 5 (goto (.writePage .p3) s)
      (goto (.writePage .p8) (pageAddressed s.arg i i2 i1 i0 e1 e2 e3 e4 s)) :=
    hmid.trans (reaches_xfer (next := fun _ u => goto (.writePage .p8) { u with cnt := 0 }) hr rfl rfl hx0)
  have hdata := haddress.trans (reaches_pageSent hr rfl rfl hpage hlen hrest0)
  have hframe := hdata.trans (reaches_deselect (q := .writePage .p10) hr rfl rfl)
  have hpause := hframe.trans (reaches_goto (t := goto (.writePage .p11) _) hr rfl)
  refine hpause.trans (reaches_goto hr ?_)
  obtain ⟨o, os, rfl⟩ := List.exists_cons_of_length_pos (l := buf) (by omega)
  simp [line, lineWritePage, goto, stored, deselected, pageSent, pageAddressed, exchanged, selected, hs, bytes,
    count, clock, pause, frameEvents, xferEvents, closing, settled]

end Store

end Sys2Proof.Machine
end

section
/-! SUPPORT. The commands that store, from their first label to each of their endings (spec/44_erase.md R153,
R155, R158, spec/45_page_write.md R161, R165, spec/60_exceptions.md R177 to R179). -/

namespace Sys2Proof.Machine

open Sys2Proof.Claims

namespace Store

theorem reaches_stored {k : Store} {buf is : List Byte} {e : Env} {s : State} (hr : s.rstIn = [])
    (hs : s.sel = false) (hpage : k = .page → s.page = buf ∧ buf.length = 256)
    (hf : s.env.frame (k.bytes s.arg buf) = some (is, e)) :
    Reaches 264 (goto k.opens s) (stored k s.arg buf is e s) := by
  cases k
  case chip => exact (reaches_stored_chip hr hs hf).mono (by decide)
  case sector => exact (reaches_stored_sector hr hs hf).mono (by decide)
  case page => exact reaches_stored_page hr hs (hpage rfl).1 (hpage rfl).2 hf

/-! ## The closing wait and the disable frame -/

@[simp] theorem timeoutOf_closing (k : Store) (s : State) : timeoutOf k.closing s = k.timeout s.par := by
  cases k <;> rfl

theorem returnWait_closing_false (k : Store) (s : State) : returnWait k.closing false s =
    respondAny .fail { s with res := false, env := s.env.abandon (some (k.region s.arg)) } := by
  cases k <;> rfl

/-- After a closing wait that ended well the disable frame is next. -/
theorem reaches_disabling {k : Store} {s : State} (hr : s.rstIn = []) :
    Reaches 1 (returnWait k.closing true s) (goto (.inDisable k.disabling .u0) { s with res := true }) := by
  cases k <;> exact reaches_line nofun hr rfl

/-- The state that answers OK, after a closing wait that ended well in `s` and the disable frame. -/
def finished (k : Store) (x : Byte) (e : Env) (s : State) : State :=
  respondAny .ok
    { afterDisableFrame k.disabling x e (goto (.inDisable k.disabling .u0) { s with res := true }) with
      env := e.settle (k.region s.arg) }

/-- After the disable frame the command answers OK. -/
theorem reaches_ok {k : Store} {x : Byte} {e : Env} {s : State} (hr : s.rstIn = []) :
    Reaches 1 (afterDisableFrame k.disabling x e s)
      (respondAny .ok { afterDisableFrame k.disabling x e s with env := e.settle (k.region s.arg) }) := by
  cases k <;> exact reaches_line nofun hr rfl

theorem reaches_finish {k : Store} {x : Byte} {e : Env} {s : State} (hr : s.rstIn = []) (hs : s.sel = false)
    (hf : s.env.frame [Config.opWriteDisable] = some ([x], e)) :
    Reaches 5 (returnWait k.closing true s) (finished k x e s) := by
  have hdisable := reaches_disable (c := k.disabling)
    (s := goto (.inDisable k.disabling .u0) { s with res := true }) rfl hr hs hf
  exact ((reaches_disabling hr).trans hdisable).trans (reaches_ok hr)

/-! ## The states between the stages -/

/-- The state at the enable frame, after an opening wait that ended well; `s` is the command's accepted state. -/
def atEnable (k : Store) (w : WaitRun) (s : State) : State :=
  goto (.inEnable k.enabling .v0) { waited k.opening w (goto (.inWait k.opening .w0) s) with res := true }

/-- The state at the closing wait, after the confirmed enable and the erase or program frame. -/
def atClosing (k : Store) (w : WaitRun) (x y sr : Byte) (e2 : Env) (buf is : List Byte) (e3 : Env) (s : State) :
    State :=
  stored k s.arg buf is e3 { afterEnable k.enabling x y sr e2 (atEnable k w s) with res := true }

section

variable {k : Store} {n n' : Nat} {w w' : WaitRun} {x1 y1 sr1 x4 : Byte} {buf is : List Byte} {e1 e2 e3 e5 : Env}
  {s : State} (hr : s.rstIn = []) (hs : s.sel = false) (hin : k.inBounds s.arg s.cap)
  (hw : waitRun s.par.tDefault n s.clk s.env = some w)

include hr hs hin hw

/-- The opening wait returns. -/
theorem reaches_opened : Reaches (6 * n + 3) (goto k.first s)
    (returnWait k.opening w.ok (waited k.opening w (goto (.inWait k.opening .w0) s))) :=
  ((reaches_opening hr hin).trans (reaches_wait (s := goto (.inWait k.opening .w0) s) rfl hr hs
    (by rw [timeoutOf_opening]; exact hw))).mono (by omega)

variable (hok : w.ok = true)
  (hf1 : w.env.frame [Config.opWriteEnable] = some ([x1], e1))
  (hf2 : e1.frame [Config.opReadStatus, Config.dummy] = some ([y1, sr1], e2))

include hok hf1 hf2

/-- WriteEnable returns. -/
theorem reaches_reread : Reaches (6 * n + 12) (goto k.first s)
    (returnEnable k.enabling (writeEnabledBit sr1) (afterEnable k.enabling x1 y1 sr1 e2 (atEnable k w s))) := by
  have hopened := reaches_opened hr hs hin hw
  rw [hok] at hopened
  have henable := reaches_enable (s := atEnable k w s) rfl hr hs hf1 hf2
  exact ((hopened.trans (reaches_enabling hr)).trans henable).mono (by omega)

variable (hbit : writeEnabledBit sr1 = true) (hpage : k = .page → s.page = buf ∧ buf.length = 256)
  (hf3 : e2.frame (k.bytes s.arg buf) = some (is, e3))

include hbit hpage hf3

/-- The erase or program frame is sent. -/
theorem reaches_atClosing :
    Reaches (6 * n + 276) (goto k.first s) (atClosing k w x1 y1 sr1 e2 buf is e3 s) := by
  have hreread := reaches_reread hr hs hin hw hok hf1 hf2
  rw [hbit, returnEnable_true] at hreread
  have hstored := reaches_stored (s := { afterEnable k.enabling x1 y1 sr1 e2 (atEnable k w s) with res := true })
    hr hs hpage hf3
  exact (hreread.trans hstored).mono (by omega)

variable (hw' : waitRun (k.timeout s.par) n' (k.clock s.par w.clk) e3 = some w')

include hw'

/-- The closing wait returns. -/
theorem reaches_closed : Reaches (6 * n + 6 * n' + 277) (goto k.first s)
    (returnWait k.closing w'.ok (waited k.closing w' (atClosing k w x1 y1 sr1 e2 buf is e3 s))) := by
  have hclosing := reaches_atClosing hr hs hin hw hok hf1 hf2 hbit hpage hf3
  have hwait := reaches_wait (s := atClosing k w x1 y1 sr1 e2 buf is e3 s) rfl hr hs
    (by rw [timeoutOf_closing]; exact hw')
  exact (hclosing.trans hwait).mono (by omega)

variable (hok' : w'.ok = true) (hf5 : w'.env.frame [Config.opWriteDisable] = some ([x4], e5))

include hok' hf5

/-- The command answers OK. -/
theorem reaches_finished : Reaches (6 * n + 6 * n' + 282) (goto k.first s)
    (finished k x4 e5 (waited k.closing w' (atClosing k w x1 y1 sr1 e2 buf is e3 s))) := by
  have hclosed := reaches_closed hr hs hin hw hok hf1 hf2 hbit hpage hf3 hw'
  rw [hok'] at hclosed
  exact hclosed.trans (reaches_finish hr hs hf5)

end

end Store

end Sys2Proof.Machine
end

section
/-! SUPPORT. The endings of the three commands that store, each written out as the state after the command
(spec/44_erase.md R153, R155, R158, spec/45_page_write.md R161, R165, spec/60_exceptions.md R178, R179). -/

namespace Sys2Proof.Machine

open Sys2Proof.Claims

namespace Store

theorem accepted_quiet {s : State} (i : Instr) (h : s.ready) : (accepted i s).rstIn = [] := by
  simp [accepted, h.2]

theorem inBounds_accepted {k : Store} {a : Addr} {s : State} (rsv : BitVec 4) (buf : List Byte)
    (h : k.inBounds a s.cap) :
    k.inBounds (accepted (k.instr rsv a buf) s).arg (accepted (k.instr rsv a buf) s).cap := by
  rw [accepted_arg]
  exact h

theorem accepted_page {k : Store} {a : Addr} {buf : List Byte} {s : State} (rsv : BitVec 4)
    (hlen : k = .page → buf.length = 256) :
    k = .page → (accepted (k.instr rsv a buf) s).page = buf ∧ buf.length = 256 := by
  rintro rfl
  exact ⟨rfl, hlen rfl⟩

/-- The accepted state of a command that stores. -/
theorem accepted_ready (k : Store) (rsv : BitVec 4) (a : Addr) (buf : List Byte) {s : State} (h : s.ready) :
    accepted (k.instr rsv a buf) s =
      { s with
        op := k.code, arg := a, page := k.port buf s.page, rsp := { s.rsp with valid := false }
        trace := s.trace ++ [.command (mkCommandWord k.code rsv a)] } := by
  cases k <;> simp [accepted, accept, instr, commandWord, pagePort, code, port, h.2]

/-- A command that stores ends in one step of the machine once its stages come to IDLE. -/
theorem exec_of_reaches {k : Store} {rsv : BitVec 4} {a : Addr} {buf : List Byte} {s t : State} {b : Nat}
    (h : s.ready) (hrda : s.rda = false)
    (hreach : Reaches b (goto k.first (accepted (k.instr rsv a buf) s)) t)
    (hb : b ≤ 16 * (2 ^ 32 + 64)) (ht : t.ph = .idle) : exec (k.instr rsv a buf) s = .next t :=
  Machine.exec_of_reaches (k.isHostCommand_instr rsv a buf) h hrda (k.op_ne_readNext rsv a buf)
    (by rw [begun_instr]; exact hreach) hb ht

/-- The state after a command that stores has answered OK. -/
def answeredOk (k : Store) (rsv : BitVec 4) (a : Addr) (buf is : List Byte) (w w' : WaitRun) (x1 y1 sr1 x4 : Byte)
    (e5 : Env) (s : State) : State :=
  { s with
    op := k.code, arg := a, page := k.port buf s.page, cnt := k.count s.cnt, tmo := k.timeout s.par
    t0 := w'.t0, clk := w'.clk, sr := w'.sr, res := true, env := e5.settle (k.region a)
    xferStart := false, xferOut := Config.opWriteDisable
    rsp := { valid := true, st := .ok, val := Config.anyVal s.fresh }, fresh := s.fresh + 1
    trace := s.trace ++ .command (mkCommandWord k.code rsv a) ::
      (w.events ++ enableEvents x1 y1 sr1 ++ (frameEvents (k.bytes a buf) is ++ k.pause s.par) ++ w'.events ++
        disableEvents x4 ++ [.response .ok (Config.anyVal s.fresh)]) }

section

variable {k : Store} {rsv : BitVec 4} {a : Addr} {n n' : Nat} {w w' : WaitRun} {x1 y1 sr1 x4 : Byte}
  {buf is : List Byte} {e1 e2 e3 e5 : Env} {s : State} (h : s.ready) (hrda : s.rda = false) (hs : s.sel = false)
  (hin : k.inBounds a s.cap) (hn : n ≤ 2 ^ 32) (hw : waitRun s.par.tDefault n s.clk s.env = some w)

include h hrda hs hin hn hw

/-- The opening wait has timed out (R178). -/
theorem exec_openingTimeout (hok : w.ok = false) : exec (k.instr rsv a buf) s = .next
    { s with
      op := k.code, arg := a, page := k.port buf s.page, tmo := s.par.tDefault, t0 := w.t0, clk := w.clk
      sr := w.sr, res := false, env := w.env, xferStart := false, xferOut := Config.dummy
      rsp := { valid := true, st := .fail, val := Config.anyVal s.fresh }, fresh := s.fresh + 1
      trace := s.trace ++ .command (mkCommandWord k.code rsv a) ::
        (w.events ++ [.response .fail (Config.anyVal s.fresh)]) } := by
  have hreach := reaches_opened (s := accepted (k.instr rsv a buf) s) (accepted_quiet _ h) hs
    (inBounds_accepted rsv buf hin) hw
  rw [hok, returnWait_opening_false] at hreach
  refine (exec_of_reaches h hrda hreach (by omega) rfl).trans ?_
  rw [accepted_ready k rsv a buf h]
  simp [waited, afterWait, respondAny, respond, goto, h.1]

variable (hok : w.ok = true)
  (hf1 : w.env.frame [Config.opWriteEnable] = some ([x1], e1))
  (hf2 : e1.frame [Config.opReadStatus, Config.dummy] = some ([y1, sr1], e2))

include hok hf1 hf2

/-- The latch is not confirmed (R179). -/
theorem exec_notConfirmed (hbit : writeEnabledBit sr1 = false) : exec (k.instr rsv a buf) s = .next
    { s with
      op := k.code, arg := a, page := k.port buf s.page, tmo := s.par.tDefault, t0 := w.t0, clk := w.clk
      sr := sr1, res := false, env := e2, xferStart := false, xferOut := Config.dummy
      rsp := { valid := true, st := .fail, val := Config.anyVal s.fresh }, fresh := s.fresh + 1
      trace := s.trace ++ .command (mkCommandWord k.code rsv a) ::
        (w.events ++ enableEvents x1 y1 sr1 ++ [.response .fail (Config.anyVal s.fresh)]) } := by
  have hreach := reaches_reread (s := accepted (k.instr rsv a buf) s) (accepted_quiet _ h) hs
    (inBounds_accepted rsv buf hin) hw hok hf1 hf2
  rw [hbit, returnEnable_false] at hreach
  refine (exec_of_reaches h hrda hreach (by omega) rfl).trans ?_
  rw [accepted_ready k rsv a buf h]
  simp [afterEnable, atEnable, waited, afterWait, respondAny, respond, goto, enableEvents, h.1]

variable (hbit : writeEnabledBit sr1 = true) (hlen : k = .page → buf.length = 256)
  (hf3 : e2.frame (k.bytes a buf) = some (is, e3))
  (hw' : waitRun (k.timeout s.par) n' (k.clock s.par w.clk) e3 = some w')

include hbit hlen hf3 hw'

/-- The closing wait has timed out (R158, R165). -/
theorem exec_closingTimeout (hn' : n' ≤ 2 ^ 32) (hok' : w'.ok = false) : exec (k.instr rsv a buf) s = .next
    { s with
      op := k.code, arg := a, page := k.port buf s.page, cnt := k.count s.cnt, tmo := k.timeout s.par
      t0 := w'.t0, clk := w'.clk, sr := w'.sr, res := false, env := w'.env.abandon (some (k.region a))
      xferStart := false, xferOut := Config.dummy
      rsp := { valid := true, st := .fail, val := Config.anyVal s.fresh }, fresh := s.fresh + 1
      trace := s.trace ++ .command (mkCommandWord k.code rsv a) ::
        (w.events ++ enableEvents x1 y1 sr1 ++ (frameEvents (k.bytes a buf) is ++ k.pause s.par) ++ w'.events ++
          [.response .fail (Config.anyVal s.fresh)]) } := by
  have hreach := reaches_closed (s := accepted (k.instr rsv a buf) s) (accepted_quiet _ h) hs
    (inBounds_accepted rsv buf hin) hw hok hf1 hf2 hbit (accepted_page rsv hlen) (by rw [accepted_arg]; exact hf3) hw'
  rw [hok', returnWait_closing_false] at hreach
  refine (exec_of_reaches h hrda hreach (by omega) rfl).trans ?_
  rw [accepted_ready k rsv a buf h]
  simp [atClosing, stored, afterEnable, atEnable, waited, afterWait, respondAny, respond, goto, enableEvents, h.1]

omit hrda hn in
/-- The command answers OK, however many polls its waits take. -/
theorem reaches_answeredOk (hok' : w'.ok = true)
    (hf5 : w'.env.frame [Config.opWriteDisable] = some ([x4], e5)) :
    Reaches (6 * n + 6 * n' + 282) (begun (k.instr rsv a buf) s) (answeredOk k rsv a buf is w w' x1 y1 sr1 x4 e5 s) := by
  have hreach := reaches_finished (s := accepted (k.instr rsv a buf) s) (accepted_quiet _ h) hs
    (inBounds_accepted rsv buf hin) hw hok hf1 hf2 hbit (accepted_page rsv hlen) (by rw [accepted_arg]; exact hf3)
    hw' hok' hf5
  have hend : finished k x4 e5 (waited k.closing w' (atClosing k w x1 y1 sr1 e2 buf is e3
      (accepted (k.instr rsv a buf) s))) = answeredOk k rsv a buf is w w' x1 y1 sr1 x4 e5 s := by
    rw [accepted_ready k rsv a buf h]
    simp [answeredOk, finished, afterDisableFrame, atClosing, stored, afterEnable, atEnable, waited, afterWait,
      respondAny, respond, goto, enableEvents, disableEvents, h.1]
  rw [begun_instr, ← hend]
  exact hreach

/-- The command answers OK. -/
theorem exec_finished (hn' : n' ≤ 2 ^ 32) (hok' : w'.ok = true)
    (hf5 : w'.env.frame [Config.opWriteDisable] = some ([x4], e5)) :
    exec (k.instr rsv a buf) s = .next (answeredOk k rsv a buf is w w' x1 y1 sr1 x4 e5 s) :=
  Machine.exec_of_reaches (k.isHostCommand_instr rsv a buf) h hrda (k.op_ne_readNext rsv a buf)
    (reaches_answeredOk h hs hin hw hok hf1 hf2 hbit hlen hf3 hw' hok' hf5) (by omega) h.1

end

end Store

/-- Settles O25: the ending `exec_finished` for ERASE_CHIP. -/
theorem eraseChipSucceeds : Obligations.EraseChipSucceeds := by
  intro s rsv arg n w w' x1 y1 sr1 x2 x4 e1 e2 e3 e5 h hrda hs hn hw hok hf1 hf2 hbit hf3 hw' hok' hf5
  refine (Store.exec_finished (k := .chip) (buf := []) h hrda hs trivial hn hw hok hf1 hf2 hbit nofun hf3 hw' hn hok'
    hf5).trans ?_
  simp [Store.answeredOk, Store.code, Store.port, Store.count, Store.timeout, Store.region, Store.bytes,
    Store.pause, Config.opChipErase, Config.opWriteDisable]

/-- Settles O26: the ending `exec_finished` for ERASE_SECTOR. -/
theorem eraseSectorSucceeds : Obligations.EraseSectorSucceeds := by
  intro s rsv a n w w' x1 y1 sr1 x4 is e1 e2 e3 e5 h hrda hs hin hn hw hok hf1 hf2 hbit hf3 hw' hok' hf5
  refine (Store.exec_finished (k := .sector) (buf := []) h hrda hs hin hn hw hok hf1 hf2 hbit nofun hf3 hw' hn hok'
    hf5).trans ?_
  simp [Store.answeredOk, Store.code, Store.port, Store.count, Store.timeout, Store.region, Store.bytes,
    Store.pause, Config.opSectorErase, Config.opWriteDisable]

/-- Settles O27: the ending `exec_finished` for WRITE_PAGE. -/
theorem writePageSucceeds : Obligations.WritePageSucceeds := by
  intro s rsv a buf n w w' x1 y1 sr1 x4 is e1 e2 e3 e5 h hrda hs hin hlen hn hw hok hf1 hf2 hbit hf3 hw' hok' hf5
  refine (Store.exec_finished (k := .page) h hrda hs hin hn hw hok hf1 hf2 hbit (fun _ => hlen) hf3 hw' hn hok'
    hf5).trans ?_
  simp [Store.answeredOk, Store.code, Store.port, Store.count, Store.timeout, Store.region, Store.bytes,
    Store.pause, Config.opPageProgram, Config.opWriteDisable]

/-- Settles O33: the ending `exec_notConfirmed` for each of the three. -/
theorem latchNotConfirmedFails : Obligations.LatchNotConfirmedFails := by
  intro s rsv a buf n w x1 y1 sr1 e1 e2 h hrda hs hn hw hok hf1 hf2 hbit
  exact ⟨Store.exec_notConfirmed (k := .chip) (buf := buf) h hrda hs trivial hn hw hok hf1 hf2 hbit, fun hin =>
    ⟨Store.exec_notConfirmed (k := .sector) (buf := buf) h hrda hs hin hn hw hok hf1 hf2 hbit,
      Store.exec_notConfirmed (k := .page) h hrda hs hin hn hw hok hf1 hf2 hbit⟩⟩

/-- Settles O34: the ending `exec_closingTimeout` for each of the three. -/
theorem closingWaitTimesOut : Obligations.ClosingWaitTimesOut := by
  intro s rsv a buf n w w' x1 y1 sr1 is e1 e2 e3 h hrda hs hn hw hok hf1 hf2 hbit hok' failed
  refine ⟨fun hf3 hw' => ?_, fun hin hf3 hw' => ?_, fun hin hlen hf3 hw' => ?_⟩
  · refine (Store.exec_closingTimeout (k := .chip) (buf := buf) h hrda hs trivial hn hw hok hf1 hf2 hbit nofun hf3 hw'
      hn hok').trans ?_
    simp [failed, Store.code, Store.port, Store.count, Store.timeout, Store.region, Store.bytes, Store.pause,
      Config.opChipErase, Config.dummy]
  · refine (Store.exec_closingTimeout (k := .sector) (buf := buf) h hrda hs hin hn hw hok hf1 hf2 hbit nofun hf3 hw'
      hn hok').trans ?_
    simp [failed, Store.code, Store.port, Store.count, Store.timeout, Store.region, Store.bytes, Store.pause,
      Config.opSectorErase, Config.dummy]
  · exact Store.exec_closingTimeout (k := .page) h hrda hs hin hn hw hok hf1 hf2 hbit (fun _ => hlen) hf3 hw' hn hok'

end Sys2Proof.Machine
end

section
/-! SUPPORT. BEGIN_READ and WAIT_READY run to each of their endings, and the two ways in which the bound check
and the opening wait fail a command (spec/42_ready_wait.md R137, spec/46_read.md R167, spec/60_exceptions.md
R177, R178). -/

namespace Sys2Proof.Machine

open Sys2Proof.Claims

/-! ## The bound check fails -/

/-- A bound check that fails is the command's one line (R177). -/
theorem exec_outOfRange {i : Instr} {p q : Phase} {s : State} (hi : isHostCommand i = true) (h : s.ready)
    (hrda : s.rda = false) (h9 : cwOp (commandWord i) ≠ 0x9) (hbegun : begun i s = goto p (accepted i s))
    (hp : p ≠ .idle)
    (hl : line (goto p (accepted i s)) = .go (if inRange (accepted i s).arg s.cap then
      goto q (goto p (accepted i s)) else respondAny .fail (goto p (accepted i s))))
    (hout : s.cap.toNat ≤ (cwArg (commandWord i)).toNat) :
    exec i s = .next
      { s with
        op := cwOp (commandWord i), arg := cwArg (commandWord i), page := pagePort i s
        rsp := { valid := true, st := .fail, val := Config.anyVal s.fresh }, fresh := s.fresh + 1
        trace := s.trace ++ [.command (commandWord i), .response .fail (Config.anyVal s.fresh)] } := by
  have harg : (accepted i s).arg = cwArg (commandWord i) := rfl
  rw [harg, inRange_eq_false_of_le hout, if_neg (by simp)] at hl
  refine (exec_of_reaches (b := 1) hi h hrda h9 ?_ (by omega) rfl).trans
    (congrArg Host.Outcome.next (?_ : respondAny .fail (goto p (accepted i s)) = _))
  · rw [hbegun]
    exact reaches_goto (by simp [accepted, h.2]) hl hp
  · simp [accepted, accept, respondAny, respond, goto, h.1, h.2]

/-- Settles O31: the bound check of each of the three commands fails at its first label. -/
theorem outOfRangeFailsWithoutBus : Obligations.OutOfRangeFailsWithoutBus := by
  intro s rsv a buf h hrda hout failed
  have hword : ∀ code, (cwArg (mkCommandWord code rsv a)).toNat = a.toNat := fun code => by simp
  refine ⟨?_, ?_, ?_⟩
  · refine (exec_outOfRange (i := .eraseSector rsv a) (p := .eraseSector .s0) (q := .eraseSector .s1) rfl h hrda
      (by simp [commandWord]) (by simp [begun, commandWord, firstLabel]) nofun rfl (by simpa [commandWord])).trans ?_
    simp [failed, commandWord, pagePort]
  · refine (exec_outOfRange (i := .writePage rsv a buf) (p := .writePage .p0) (q := .writePage .p1) rfl h hrda
      (by simp [commandWord]) (by simp [begun, commandWord, firstLabel]) nofun rfl (by simpa [commandWord])).trans ?_
    simp [failed, commandWord, pagePort]
  · refine (exec_outOfRange (i := .beginRead rsv a) (p := .beginRead .b0) (q := .beginRead .b1) rfl h hrda
      (by simp [commandWord]) (by simp [begun, commandWord, firstLabel]) nofun rfl (by simpa [commandWord])).trans ?_
    simp [failed, commandWord, pagePort]

/-! ## BEGIN_READ -/

theorem begun_beginRead (rsv : BitVec 4) (a : Addr) (s : State) :
    begun (.beginRead rsv a) s = goto (.beginRead .b0) (accepted (.beginRead rsv a) s) := by
  simp [begun, commandWord, firstLabel]

theorem accepted_beginRead (rsv : BitVec 4) (a : Addr) {s : State} (h : s.ready) :
    accepted (.beginRead rsv a) s =
      { s with
        op := 0x8, arg := a, rsp := { s.rsp with valid := false }
        trace := s.trace ++ [.command (mkCommandWord 0x8 rsv a)] } := by
  simp [accepted, accept, commandWord, pagePort, h.2]

/-- B0, B1, the opening wait (R167). -/
theorem reaches_readOpened {s : State} {n : Nat} {w : WaitRun} (hr : s.rstIn = []) (hs : s.sel = false)
    (hin : s.arg.toNat < s.cap.toNat) (hw : waitRun s.par.tDefault n s.clk s.env = some w) :
    Reaches (6 * n + 3) (goto (.beginRead .b0) s)
      (returnWait .b1 w.ok (waited .b1 w (goto (.inWait .b1 .w0) s))) := by
  have hcheck : line (goto (.beginRead .b0) s) = .go (goto (.beginRead .b1) s) :=
    congrArg Move.go (if_pos ((inRange_iff_toNat s.arg s.cap).mpr hin))
  have hentry : Reaches 2 (goto (.beginRead .b0) s) (goto (.inWait .b1 .w0) s) :=
    (reaches_goto hr hcheck).trans (reaches_goto hr rfl)
  exact (hentry.trans (reaches_wait (s := goto (.inWait .b1 .w0) s) rfl hr hs hw)).mono (by omega)

/-- The state after the read frame is opened, with its response. -/
def sessionOpened (is : List Byte) (e : Env) (s : State) : State :=
  respondAny .ok
    { s with
      rda := true, sel := true, env := e, xferStart := false, xferOut := addrLow s.arg
      trace := s.trace ++ .select :: xferEvents [Config.opReadData, addrHigh s.arg, addrMid s.arg, addrLow s.arg] is }

/-- B7 and B8: the session is open, OK (R167). -/
theorem reaches_rda {s : State} (hr : s.rstIn = []) :
    Reaches 2 (goto (.beginRead .b7) s) (respondAny .ok { s with rda := true }) :=
  (reaches_goto (t := goto (.beginRead .b8) { s with rda := true }) hr rfl).trans (reaches_goto hr rfl)

/-- B2 to B8: the read frame is left open (R167). -/
theorem reaches_sessionOpened {s : State} {is : List Byte} {e : Env} (hr : s.rstIn = []) (hs : s.sel = false)
    (hf : s.env.openFrame [Config.opReadData, addrHigh s.arg, addrMid s.arg, addrLow s.arg] = some (is, e)) :
    Reaches 7 (goto (.beginRead .b2) s) (sessionOpened is e s) := by
  obtain ⟨i, is1, e1, hx, hrest, rfl⟩ := Env.exchanges_cons.mp hf
  obtain ⟨i2, is2, e2, hx2, hrest2, rfl⟩ := Env.exchanges_cons.mp hrest
  obtain ⟨i1, is3, e3, hx1, hrest1, rfl⟩ := Env.exchanges_cons.mp hrest2
  obtain ⟨i0, is4, e4, hx0, hrest0, rfl⟩ := Env.exchanges_cons.mp hrest1
  obtain ⟨rfl, rfl⟩ : [] = is4 ∧ e4 = e := by simpa using hrest0
  have hopcode : Reaches 2 (goto (.beginRead .b2) s)
      (goto (.beginRead .b4) (exchanged Config.opReadData i e1 (selected s))) :=
    (reaches_select (q := .beginRead .b3) hr rfl hs).trans (reaches_exchange hr rfl rfl hx)
  have hhigh := hopcode.trans (reaches_exchange (q := .beginRead .b5) hr rfl rfl hx2)
  have hmid := hhigh.trans (reaches_exchange (q := .beginRead .b6) hr rfl rfl hx1)
  have hlow := hmid.trans (reaches_exchange (q := .beginRead .b7) hr rfl rfl hx0)
  have hopened := hlow.trans (reaches_rda hr)
  simpa [goto, sessionOpened, respondAny, respond, exchanged, selected, xferEvents] using hopened

/-- Settles O28: B0 to B1, the opening wait, B2 to B8. -/
theorem beginReadOpensSession : Obligations.BeginReadOpensSession := by
  intro s rsv a n w is e1 h hrda hs hin hn hw hok hf
  have hquiet : (accepted (.beginRead rsv a) s).rstIn = [] := by simp [accepted, h.2]
  have harg : (accepted (.beginRead rsv a) s).arg = a := by simp [accepted, commandWord]
  have hopened := reaches_readOpened (s := accepted (.beginRead rsv a) s) hquiet hs (by rw [harg]; exact hin) hw
  rw [hok] at hopened
  have hsession := reaches_sessionOpened
    (s := { waited .b1 w (goto (.inWait .b1 .w0) (accepted (.beginRead rsv a) s)) with res := true }) hquiet hs
    (by rw [← harg] at hf; exact hf)
  refine (exec_of_reaches (i := .beginRead rsv a) rfl h hrda (by simp [commandWord])
    (by rw [begun_beginRead]; exact hopened.trans hsession) (by omega) rfl).trans ?_
  rw [accepted_beginRead rsv a h]
  simp [sessionOpened, waited, afterWait, timeoutOf, respondAny, respond, goto, Config.opReadData, h.1]

/-- Settles O32: the opening wait that returns 0 fails each of the four. -/
theorem openingWaitTimesOut : Obligations.OpeningWaitTimesOut := by
  intro s rsv a buf n w h hrda hs hn hw hok failed
  refine ⟨Store.exec_openingTimeout (k := .chip) (buf := buf) h hrda hs trivial hn hw hok, fun hin =>
    ⟨Store.exec_openingTimeout (k := .sector) (buf := buf) h hrda hs hin hn hw hok,
      Store.exec_openingTimeout (k := .page) h hrda hs hin hn hw hok, ?_⟩⟩
  have hquiet : (accepted (.beginRead rsv a) s).rstIn = [] := by simp [accepted, h.2]
  have harg : (accepted (.beginRead rsv a) s).arg = a := by simp [accepted, commandWord]
  have hopened := reaches_readOpened (s := accepted (.beginRead rsv a) s) hquiet hs (by rw [harg]; exact hin) hw
  rw [hok] at hopened
  refine (exec_of_reaches (i := .beginRead rsv a) rfl h hrda (by simp [commandWord])
    (by rw [begun_beginRead]; exact hopened) (by omega) rfl).trans ?_
  rw [accepted_beginRead rsv a h]
  simp [failed, returnWait, waited, afterWait, timeoutOf, respondAny, respond, goto, Config.dummy, h.1]

/-! ## WAIT_READY -/

/-- Q1 answers with RES (R137). -/
theorem reaches_answered {s : State} (hr : s.rstIn = []) :
    Reaches 1 (goto (.waitReady .q1) s) (respondAny (if s.res then .ok else .fail) s) :=
  reaches_goto hr (by
    cases hres : s.res <;> simp [line, lineWaitReady, respondAny, respond, goto, hres])

/-- The state after WAIT_READY has answered with the result of its wait. -/
def waitAnswered (rsv : BitVec 4) (a : Addr) (w : WaitRun) (s : State) : State :=
  { s with
    op := 0x2, arg := a, tmo := a.setWidth 32, t0 := w.t0, clk := w.clk, sr := w.sr, res := w.ok
    env := w.env, xferStart := false, xferOut := Config.dummy
    rsp := { valid := true, st := if w.ok then .ok else .fail, val := Config.anyVal s.fresh }
    fresh := s.fresh + 1
    trace := s.trace ++ .command (mkCommandWord 0x2 rsv a) ::
      (w.events ++ [.response (if w.ok then .ok else .fail) (Config.anyVal s.fresh)]) }

/-- Q0 comes to the wait. -/
theorem reaches_waitEntered {s : State} (rsv : BitVec 4) (a : Addr) (h : s.ready) :
    Reaches 1 (begun (.waitReady rsv a) s) (goto (.inWait .q0 .w0) (accepted (.waitReady rsv a) s)) := by
  have hbegun : begun (.waitReady rsv a) s = goto (.waitReady .q0) (accepted (.waitReady rsv a) s) := by
    simp [begun, commandWord, firstLabel]
  rw [hbegun]
  exact reaches_goto (by simp [accepted, h.2]) rfl

/-- WAIT_READY whose wait returns answers with its result, however many polls it takes (R137). -/
theorem reaches_waitAnswered {s : State} {rsv : BitVec 4} {a : Addr} {n : Nat} {w : WaitRun} (h : s.ready)
    (hs : s.sel = false) (hw : waitRun (a.setWidth 32) n s.clk s.env = some w) :
    Reaches (6 * n + 3) (begun (.waitReady rsv a) s) (waitAnswered rsv a w s) := by
  have hquiet : (accepted (.waitReady rsv a) s).rstIn = [] := by simp [accepted, h.2]
  have hwait := reaches_wait (c := .q0) (s := goto (.inWait .q0 .w0) (accepted (.waitReady rsv a) s)) rfl hquiet hs
    (by simpa [timeoutOf, timeoutArg, accepted, commandWord] using hw)
  have hreach := ((reaches_waitEntered rsv a h).trans hwait).trans (reaches_answered hquiet)
  have haccepted : accepted (.waitReady rsv a) s =
      { s with
        op := 0x2, arg := a, rsp := { s.rsp with valid := false }
        trace := s.trace ++ [.command (mkCommandWord 0x2 rsv a)] } := by
    simp [accepted, accept, commandWord, pagePort, h.2]
  rw [haccepted] at hreach
  refine Reaches.mono ?_ (show 1 + (6 * n + 1) + 1 ≤ 6 * n + 3 by omega)
  simpa [waitAnswered, waited, afterWait, timeoutOf, timeoutArg, respondAny, respond, goto, h.1] using hreach

theorem exec_waitReady {s : State} {rsv : BitVec 4} {a : Addr} {n : Nat} {w : WaitRun} (h : s.ready)
    (hrda : s.rda = false) (hs : s.sel = false) (hn : n ≤ 2 ^ 32)
    (hw : waitRun (a.setWidth 32) n s.clk s.env = some w) :
    exec (.waitReady rsv a) s = .next (waitAnswered rsv a w s) :=
  exec_of_reaches rfl h hrda (by simp [commandWord]) (reaches_waitAnswered h hs hw) (by omega) h.1

/-- Settles O20: the wait has returned 1. -/
theorem waitReadySucceeds : Obligations.WaitReadySucceeds := by
  intro s rsv a n w h hrda hs hn hw hok
  refine (exec_waitReady h hrda hs hn hw).trans ?_
  simp [waitAnswered, hok, Config.dummy]

/-- Settles O21: the wait has returned 0. -/
theorem waitReadyTimesOut : Obligations.WaitReadyTimesOut := by
  intro s rsv a n w h hrda hs hn hw hok
  refine (exec_waitReady h hrda hs hn hw).trans ?_
  simp [waitAnswered, hok, Config.dummy]

end Sys2Proof.Machine
end

section
/-! SUPPORT. What a run that has come to IDLE must have done: its waits returned, whatever the number of their
polls (spec/42_ready_wait.md R135, R136). -/

namespace Sys2Proof.Machine

open Sys2Proof.Claims

/-! ## A run that has come to IDLE -/

/-- A run that has come to IDLE is the same with more lines to run. -/
theorem run_more {n : Nat} (j : Nat) {s t : State} (h : run n s = .next t) (ht : t.ph = .idle) :
    run (n + j) s = .next t := by
  induction n generalizing s with
  | zero =>
    cases h
    exact run_idle _ ht
  | succ n ih =>
    rw [Nat.succ_add]
    simp only [run] at h ⊢
    split at h
    · rw [if_pos ‹_›]
      exact h
    · rw [if_neg ‹_›]
      split at h
      · exact ih h
      · split at h
        · rw [if_pos ‹_›]
          exact h
        · rw [if_neg ‹_›]
          exact ih h
      · exact h

/-- The stages of a run that has come to IDLE lie on the way to where it ended. -/
theorem Reaches.run_from {b n : Nat} {s u t : State} (h : Reaches b s u) (hrun : Machine.run n s = .next t)
    (ht : t.ph = .idle) : Machine.run n u = .next t := by
  obtain ⟨m, -, hm⟩ := h
  rw [← hm n]
  exact run_more m hrun ht

theorem Reaches.ends_at {b n : Nat} {s u t : State} (h : Reaches b s u) (hu : u.ph = .idle)
    (hrun : Machine.run n s = .next t) (ht : t.ph = .idle) : t = u := by
  have hend := h.run_from hrun ht
  rw [run_idle n hu] at hend
  cases hend
  rfl

/-- Short of IDLE, the line at PH has gone on. -/
theorem run_ends_line {n : Nat} {s t : State} (h : run n s = .next t) (ht : t.ph = .idle) (hp : s.ph ≠ .idle)
    (hr : s.rstIn = []) : ∃ m u, n = m + 1 ∧ line s = .go u ∧ run m u = .next t := by
  cases n with
  | zero =>
    cases h
    exact absurd ht hp
  | succ n =>
    cases hl : line s with
    | go u => exact ⟨n, u, rfl, rfl, by rwa [run_line n hp hr hl] at h⟩
    | wait u =>
      obtain ⟨o, -, -, rfl, -⟩ := line_wait hp hl
      rw [run_wait n hp ((tick_quiet hr).trans hl) hr] at h
      cases h
      exact absurd ht hp
    | stop f => simp [run, hp, tick_quiet hr, hl] at h

theorem run_ends_xfer {n : Nat} {p : Phase} {o : Byte} {next : Byte → State → State} {s t : State}
    (h : run n (goto p s) = .next t) (ht : t.ph = .idle) (hr : s.rstIn = [])
    (hl : line (goto p s) = xfer o next (goto p s)) (hp : p ≠ .idle := by nofun) :
    ∃ m i e, n = m + 1 ∧ s.env.exchange o = some (i, e) ∧
      run m (next i (exchanged o i e (goto p s))) = .next t := by
  obtain ⟨m, u, rfl, hgo, hrest⟩ := run_ends_line h ht hp hr
  obtain ⟨-, i, e, hx, rfl⟩ := xfer_go (hl.symm.trans hgo)
  exact ⟨m, i, e, rfl, hx, hrest⟩

/-! ## The polls of a wait -/

section

variable {tmo t0 : Word} {clk : Clock} {env e : Env} {x sr : Byte}
  (hf : env.frame [Config.opReadStatus, Config.dummy] = some ([x, sr], e))

include hf

/-- BUSY clear ends the wait (R135). -/
theorem pollRun_clear (n : Nat) (hbit : sr.getLsbD 0 = false) :
    pollRun tmo t0 (n + 1) clk env = some
      { ok := true, events := frameEvents [Config.opReadStatus, Config.dummy] [x, sr], t0 := t0, sr := sr
        clk := clk, env := e } := by
  simp only [pollRun, hf]
  rw [if_pos hbit]

/-- BUSY set and too late ends the wait (R136). -/
theorem pollRun_late (n : Nat) (hbit : sr.getLsbD 0 = true)
    (hlate : (clk.advance.value - t0).toNat > tmo.toNat) :
    pollRun tmo t0 (n + 1) clk env = some
      { ok := false
        events := frameEvents [Config.opReadStatus, Config.dummy] [x, sr] ++ [.time clk.advance.value]
        t0 := t0, sr := sr, clk := clk.advance, env := e } := by
  simp only [pollRun, hf]
  rw [if_neg (by simp only [hbit, Bool.true_eq_false, not_false_eq_true]), if_pos hlate]

/-- BUSY set and in time, the next poll comes (R135). -/
theorem pollRun_again (n : Nat) (hbit : sr.getLsbD 0 = true)
    (htime : ¬(clk.advance.value - t0).toNat > tmo.toNat) :
    pollRun tmo t0 (n + 1) clk env = (pollRun tmo t0 n clk.advance e).map fun w =>
      { w with
        events := frameEvents [Config.opReadStatus, Config.dummy] [x, sr] ++ [.time clk.advance.value] ++
          w.events } := by
  simp only [pollRun, hf]
  rw [if_neg (by simp only [hbit, Bool.true_eq_false, not_false_eq_true]), if_neg htime]

end

/-- A poll of a run that has come to IDLE was answered. -/
theorem run_ends_poll {n : Nat} {s t : State} {c : WaitSite} (h : run n s = .next t) (ht : t.ph = .idle)
    (hp : s.ph = .inWait c .w1) (hr : s.rstIn = []) :
    ∃ m x sr e, n = m + 4 ∧ s.sel = false ∧ s.env.frame [Config.opReadStatus, Config.dummy] = some ([x, sr], e) ∧
      run m (afterPoll c x sr e s) = .next t := by
  obtain ⟨n1, u1, rfl, hselect, h1⟩ := run_ends_line h ht (by simp [hp]) hr
  simp only [line, hp] at hselect
  obtain ⟨hs, rfl⟩ := select_go hselect
  obtain ⟨n2, x, e1, rfl, hx, h2⟩ := run_ends_xfer h1 ht hr (next := fun _ => goto (.inWait c .w3)) rfl
  obtain ⟨n3, sr, e2, rfl, hsr, h3⟩ := run_ends_xfer h2 ht hr
    (next := fun i u => goto (.inWait c .w4) { u with sr := i }) rfl
  obtain ⟨n4, u4, rfl, -, -⟩ := run_ends_line h3 ht (by simp) hr
  have hf : s.env.frame [Config.opReadStatus, Config.dummy] = some ([x, sr], e2.deselect) :=
    Env.frame_some.mpr ⟨e2, Env.exchanges_cons_cons.mpr ⟨e1, hx, Env.exchanges_cons_cons.mpr ⟨e2, hsr, rfl⟩⟩, rfl⟩
  exact ⟨n4, x, sr, _, rfl, hs, hf, by rwa [← run_poll n4 hp hr hs hf]⟩

/-- The polls of a run that has come to IDLE came to an end. -/
theorem run_ends_pollRun {n : Nat} {s t : State} {c : WaitSite} (h : run n s = .next t) (ht : t.ph = .idle)
    (hp : s.ph = .inWait c .w1) (hr : s.rstIn = []) :
    ∃ k w, pollRun s.tmo s.t0 k s.clk s.env = some w := by
  induction n using Nat.strong_induction_on generalizing s with
  | _ n ih =>
    obtain ⟨m, x, sr, e, rfl, -, hf, h5⟩ := run_ends_poll h ht hp hr
    cases hbit : sr.getLsbD 0
    · exact ⟨1, _, pollRun_clear hf 0 hbit⟩
    · by_cases hlate : (s.clk.advance.value - s.t0).toNat > s.tmo.toNat
      · exact ⟨1, _, pollRun_late hf 0 hbit hlate⟩
      obtain ⟨m5, u5, rfl, hw5, h6⟩ := run_ends_line h5 ht (by simp [afterPoll]) hr
      simp only [line, afterPoll, lineWait, busyBit, hbit, if_true] at hw5
      cases hw5
      obtain ⟨m6, u6, rfl, hw6, h1⟩ := run_ends_line h6 ht (by simp) hr
      have htimed : timedOut s.t0 s.clk.advance.value s.tmo = false := decide_eq_false hlate
      simp only [line, goto_ph, lineWait, now, goto_t0, goto_clk, goto_tmo, htimed] at hw6
      cases hw6
      obtain ⟨k, w, hw⟩ := ih m6 (by omega) h1 rfl hr
      exact ⟨k + 1, _, (pollRun_again hf k hbit hlate).trans (congrArg _ hw)⟩

/-- The wait of a run that has come to IDLE returned. -/
theorem run_ends_waitRun {n : Nat} {s t : State} {c : WaitSite} (h : run n s = .next t) (ht : t.ph = .idle)
    (hp : s.ph = .inWait c .w0) (hr : s.rstIn = []) :
    s.sel = false ∧ ∃ k w, waitRun (timeoutOf c s) k s.clk s.env = some w := by
  obtain ⟨m, u, rfl, hgo, hrest⟩ := run_ends_line h ht (by simp [hp]) hr
  simp only [line, hp, lineWait, now] at hgo
  cases hgo
  obtain ⟨k, w, hw⟩ := run_ends_pollRun hrest ht rfl hr
  obtain ⟨-, -, -, -, -, hs, -, -⟩ := run_ends_poll hrest ht rfl hr
  exact ⟨hs, k, _, congrArg _ hw⟩

/-! ## What a wait has seen -/

theorem pollRun_frame {tmo t0 : Word} {n : Nat} {clk : Clock} {env : Env} {w : WaitRun}
    (h : pollRun tmo t0 (n + 1) clk env = some w) :
    ∃ x sr e, env.frame [Config.opReadStatus, Config.dummy] = some ([x, sr], e) := by
  simp only [pollRun] at h
  split at h
  · exact ⟨_, _, _, ‹_›⟩
  · cases h

/-- What the result of a wait means, and that it begins with a poll (R135, R136). -/
structure WaitMeaning (tmo t0 : Word) (w : WaitRun) : Prop where
  start  : w.t0 = t0
  result : w.ok = true ∧ w.sr.getLsbD 0 = false ∨
    w.ok = false ∧ w.sr.getLsbD 0 = true ∧ (w.clk.value - t0).toNat > tmo.toNat
  first  : ∃ x sr es, w.events = .select :: .xfer Config.opReadStatus x :: .xfer Config.dummy sr :: .deselect :: es

theorem pollRun_meaning {tmo t0 : Word} {n : Nat} {clk : Clock} {env : Env} {w : WaitRun}
    (h : pollRun tmo t0 n clk env = some w) : WaitMeaning tmo t0 w := by
  induction n generalizing clk env w with
  | zero => cases h
  | succ n ih =>
    obtain ⟨x, sr, e, hf⟩ := pollRun_frame h
    cases hbit : sr.getLsbD 0
    · rw [pollRun_clear hf n hbit] at h
      cases h
      exact ⟨rfl, .inl ⟨rfl, hbit⟩, x, sr, [], rfl⟩
    · by_cases hlate : (clk.advance.value - t0).toNat > tmo.toNat
      · rw [pollRun_late hf n hbit hlate] at h
        cases h
        exact ⟨rfl, .inr ⟨rfl, hbit, hlate⟩, x, sr, _, rfl⟩
      · rw [pollRun_again hf n hbit hlate] at h
        obtain ⟨w', hw, rfl⟩ := Option.map_eq_some_iff.mp h
        obtain ⟨ht0, hresult, -⟩ := ih hw
        exact ⟨ht0, hresult, x, sr, _, rfl⟩

/-- Settles O22: a run that has come to IDLE is one whose wait returned, and the polls say what that means. -/
theorem waitReadyResultMeaning : Obligations.WaitReadyResultMeaning := by
  intro s t rsv a h hrda hexec ht
  rw [exec_begun rfl h hrda (by simp [commandWord])] at hexec
  have hwait := (reaches_waitEntered rsv a h).run_from hexec ht
  obtain ⟨hs, k, w, hw⟩ := run_ends_waitRun hwait ht rfl (by simp [accepted, h.2])
  have hwaitRun : waitRun (a.setWidth 32) k s.clk s.env = some w := by
    simpa [timeoutOf, timeoutArg, accepted, commandWord] using hw
  obtain rfl := (reaches_waitAnswered h hs hwaitRun).ends_at h.1 hexec ht
  obtain ⟨w', hpolls, rfl⟩ := Option.map_eq_some_iff.mp hwaitRun
  obtain ⟨ht0, hresult, x, sr, es, hevents⟩ := pollRun_meaning hpolls
  have htmo : (a.setWidth 32 : Word).toNat = a.toNat := by
    rw [BitVec.toNat_setWidth, Nat.mod_eq_of_lt (by have := a.isLt; omega)]
  refine ⟨rfl, htmo, ?_, x, sr, es ++ [.response (if w'.ok then .ok else .fail) (Config.anyVal s.fresh)], ?_⟩
  · rcases hresult with ⟨hok, hbit⟩ | ⟨hok, hbit, hlate⟩
    · exact .inl ⟨by simp [waitAnswered, hok], hbit⟩
    · refine .inr ⟨by simp [waitAnswered, hok], hbit, ?_⟩
      rw [← htmo]
      show (w'.clk.value - w'.t0).toNat > _
      rw [ht0]
      exact hlate
  · simp [waitAnswered, hevents, Config.opReadStatus, Config.dummy]

end Sys2Proof.Machine
end

section
/-! SUPPORT. A frame at the reference chip: what it answers and what it is afterwards (spec/20_memory.md R66, R73
to R79). -/

namespace Sys2Proof.Machine

open Sys2Proof.Claims

/-! ## Exchanges -/

theorem exchange_of_onXfer {c d : Chip} {o i : Byte} (h : c.onXfer o = (i, d)) :
    (Env.chip c).exchange o = some (i, .chip d) := by
  rw [Env.exchange_chip, h]

/-- The first exchange of a frame is answered FILL and names the frame. -/
theorem onXfer_first {c : Chip} (o : Byte) (hf : c.frame = some []) :
    c.onXfer o = (Config.fill, { c with frame := some [o] }) := by
  simp [Chip.onXfer, hf, Chip.answer, Chip.pointer]

/-- Whether the chip takes the frame of an opcode for a read or a status frame (R73). -/
def isPlain (op : Byte) (fbusy : Bool) : Prop :=
  op ≠ Config.opReadStatus ∧ (op = Config.opReadData → fbusy = true)

theorem answer_plain {c : Chip} {op : Byte} (rest : List Byte) (h : isPlain op c.fbusy) :
    (c.answer (op :: rest)).2 = c := by
  obtain ⟨hstatus, hread⟩ := h
  have hnot : (op = Config.opReadData && !c.fbusy && decide (3 ≤ rest.length)) = false := by
    by_cases hop : op = Config.opReadData <;> simp [hop, hread]
  simp only [Chip.answer, if_neg hstatus, hnot, Bool.false_eq_true, if_false]
  split <;> rfl

theorem pointer_plain {c : Chip} {op : Byte} (rest : List Byte) (o : Byte) (h : isPlain op c.fbusy) :
    c.pointer (op :: rest) o = c.ptr := by
  unfold Chip.pointer
  split
  · rename_i hbytes
    obtain ⟨rfl, -⟩ := List.cons.inj hbytes
    rw [if_neg]
    simpa using h.2
  · rfl

/-- The exchanges of such a frame only add to it. -/
theorem exchanges_plain {op : Byte} {fbusy : Bool} (h : isPlain op fbusy) (bytes : List Byte) :
    ∀ (c : Chip) (f : List Byte), c.frame = some (op :: f) → c.fbusy = fbusy →
      ∃ is, (Env.chip c).exchanges bytes = some (is, .chip { c with frame := some (op :: (f ++ bytes)) }) := by
  induction bytes with
  | nil =>
    intro c f hf _
    exact ⟨[], by rw [List.append_nil, ← hf]; rfl⟩
  | cons o bytes ih =>
    intro c f hf hb
    have hxfer : (c.onXfer o).2 = { c with frame := some (op :: (f ++ [o])) } := by
      simp only [Chip.onXfer, hf]
      rw [answer_plain f (hb ▸ h), pointer_plain f o (hb ▸ h)]
      rfl
    obtain ⟨is, his⟩ := ih { c with frame := some (op :: (f ++ [o])) } (f ++ [o]) rfl hb
    rw [List.append_assoc, List.singleton_append] at his
    exact ⟨_, Env.exchanges_cons.mpr ⟨_, is, _, by rw [Env.exchange_chip, hxfer], his, rfl⟩⟩

/-! ## Whole frames -/

/-- The chip at the end of a frame it received, before the deselect. -/
def Chip.received (bytes : List Byte) (c : Chip) : Chip :=
  { c with frame := some bytes, fbusy := isBusy c.busy }

theorem frame_plain {op : Byte} {c : Chip} (bytes : List Byte) (h : isPlain op (isBusy c.busy)) :
    ∃ is, (Env.chip c).frame (op :: bytes) = some (is, .chip (c.received (op :: bytes)).onDeselect) := by
  obtain ⟨is, his⟩ := exchanges_plain h bytes (c.received [op]) [] rfl rfl
  exact ⟨_, Env.frame_some.mpr ⟨_, Env.exchanges_cons.mpr
    ⟨Config.fill, is, _, exchange_of_onXfer (c := c.onSelect) (onXfer_first op rfl), his, rfl⟩, rfl⟩⟩

/-- A frame that the chip does not act on is over with the deselect. -/
theorem onDeselect_inert {c : Chip} {bytes : List Byte} (hf : c.frame = some bytes) (hact : c.act bytes = c) :
    c.onDeselect = { c with frame := none } := by
  rw [Chip.onDeselect, hf, Option.getD_some, hact, ite_self]

/-- A BUSY chip lets a frame pass (R62, R75). -/
theorem onDeselect_busy {c : Chip} (bytes : List Byte) (h : isBusy c.busy = true) :
    (c.received bytes).onDeselect = { c with frame := none, fbusy := true } := by
  simp [Chip.onDeselect, Chip.received, h]

/-- A chip that is not BUSY acts on it (R75 to R77). -/
theorem onDeselect_free {c : Chip} (bytes : List Byte) (h : isBusy c.busy = false) :
    (c.received bytes).onDeselect = { (c.received bytes).act bytes with frame := none } := by
  simp [Chip.onDeselect, Chip.received, h]

/-- The chip after a status frame (R74). -/
def Chip.polled (c : Chip) : Chip := { c.answerStatus.2 with frame := none, fbusy := isBusy c.busy }

/-- A status frame, BUSY or not (R61, R74). -/
theorem frame_status (c : Chip) : (Env.chip c).frame [Config.opReadStatus, Config.dummy] =
    some ([Config.fill, statusByte c.wel (isBusy c.busy)], .chip c.polled) := by
  have hstatus : (c.received [Config.opReadStatus]).onXfer Config.dummy = (statusByte c.wel (isBusy c.busy),
      { (c.received [Config.opReadStatus]).answerStatus.2 with
        frame := some [Config.opReadStatus, Config.dummy] }) := rfl
  have hend : ({ (c.received [Config.opReadStatus]).answerStatus.2 with
      frame := some [Config.opReadStatus, Config.dummy] } : Chip).onDeselect = c.polled := by
    rw [onDeselect_inert (bytes := [Config.opReadStatus, Config.dummy]) rfl rfl]
    unfold Chip.polled Chip.answerStatus Chip.received
    rcases c with ⟨par, mem, wel, (_ | n) | _, frame, fbusy, ptr, marks, fresh⟩ <;> rfl
  refine Env.frame_some.mpr ⟨_, Env.exchanges_cons_cons.mpr ⟨_,
    exchange_of_onXfer (c := c.onSelect) (onXfer_first Config.opReadStatus rfl),
    Env.exchanges_cons_cons.mpr ⟨_, exchange_of_onXfer hstatus, rfl⟩⟩, ?_⟩
  rw [Env.deselect, hend]

/-! ## Doubt and contents after a frame has changed a region -/

/-- A renewed byte keeps its kind of doubt, with a new value (R188). -/
theorem doubt_renew_inside {g : Region} {c : Chip} {b : Nat} (h : inRegion (chipBytes c.par.size) (some g) b) :
    (c.renew g).doubt b = (RegionEvent.changed c.fresh).after (c.doubt b) := by
  rw [inRegion_some] at h
  unfold Chip.renew
  split
  · rename_i hempty
    rw [Chip.doubt_of_no_marks (List.isEmpty_iff.mp hempty)]
    rfl
  · exact (Chip.doubt_mark _ _ c b).trans (if_pos h)

/-- A byte in doubt that a frame changes is any value anew. -/
theorem content_of_changed {c d : Chip} {b : Nat} {e : Nat}
    (h : d.doubt b = (RegionEvent.changed e).after (c.doubt b)) (hdoubt : c.doubt b ≠ .none) :
    d.content b = Config.anyContent e b := by
  rw [Chip.content, h]
  cases hb : c.doubt b <;> simp_all [RegionEvent.after]

end Sys2Proof.Machine
end

section
/-! SUPPORT. What the erase and program frames do to the array of the reference chip, and the wire rows at the
chip (spec/20_memory.md R61 to R67, R74 to R79, spec/60_exceptions.md R188). -/

namespace Sys2Proof.Machine

open Sys2Proof.Claims

/-! ## A region stored to -/

/-- The chip `d` is `c` after a frame has changed the bytes of a region: the array is `m`, and the bytes in doubt
are any value anew. -/
structure StoredAs (g : Region) (m : Memory) (c d : Chip) : Prop where
  par     : d.par = c.par
  mem     : d.mem = m
  inside  : ∀ b, inRegion (chipBytes c.par.size) (some g) b →
    d.doubt b = (RegionEvent.changed c.fresh).after (c.doubt b)
  outside : ∀ b, ¬inRegion (chipBytes c.par.size) (some g) b → d.doubt b = c.doubt b

/-- An operation begins on a region whose memory has become `m`. -/
def Chip.operate (g : Region) (m : Memory) (k : BusyCount) (c : Chip) : Chip :=
  (({ c with mem := m } : Chip).renew g).startOperation k

theorem storedAs_operate (g : Region) (m : Memory) (k : BusyCount) (c : Chip) :
    StoredAs g m c (c.operate g m k) where
  par := by unfold Chip.operate Chip.renew; split <;> rfl
  mem := Chip.renew_mem g { c with mem := m }
  inside := fun _ hb => doubt_renew_inside (c := { c with mem := m }) hb
  outside := fun _ hb => Chip.doubt_renew_outside (c := { c with mem := m }) (by rwa [inRegion_some] at hb)

theorem StoredAs.known {g : Region} {m : Memory} {c d : Chip} (h : StoredAs g m c d) {b : Nat}
    (hb : inRegion (chipBytes c.par.size) (some g) b) (hdoubt : c.doubt b = .none) :
    d.content b = Memory.read m b := by
  rw [Chip.content_of_known (by rw [h.inside b hb, hdoubt]; rfl), h.mem]

theorem StoredAs.doubtful {g : Region} {m : Memory} {c d : Chip} (h : StoredAs g m c d) {b : Nat}
    (hb : inRegion (chipBytes c.par.size) (some g) b) (hdoubt : c.doubt b ≠ .none) :
    anyValueSince c b (some (d.content b)) :=
  ⟨c.fresh, le_rfl, congrArg some (content_of_changed (h.inside b hb) hdoubt)⟩

theorem StoredAs.other {g : Region} {m : Memory} {c d : Chip} (h : StoredAs g m c d) {b : Nat}
    (hb : ¬inRegion (chipBytes c.par.size) (some g) b) (hm : Memory.read m b = Memory.read c.mem b) :
    d.content b = c.content b :=
  Chip.content_congr (h.outside b hb) (by rw [h.mem, hm])

/-- What befalls the other parts of either chip does not matter. -/
theorem StoredAs.congr {g : Region} {m : Memory} {c c' d d' : Chip} (h : StoredAs g m c d)
    (hc : c'.array = c.array) (hfresh : c'.fresh = c.fresh) (hd : d'.array = d.array) : StoredAs g m c' d' := by
  obtain ⟨hcpar, -, hcmarks⟩ := Chip.array_eq_iff.mp hc
  obtain ⟨hdpar, hdmem, hdmarks⟩ := Chip.array_eq_iff.mp hd
  have hcdoubt : ∀ b, c'.doubt b = c.doubt b := fun b => by rw [Chip.doubt, hcmarks]; rfl
  have hddoubt : ∀ b, d'.doubt b = d.doubt b := fun b => by rw [Chip.doubt, hdmarks]; rfl
  refine ⟨by rw [hdpar, h.par, hcpar], by rw [hdmem, h.mem], ?_, ?_⟩
  · intro b hb
    rw [hcpar] at hb
    rw [hddoubt, hcdoubt, hfresh, h.inside b hb]
  · intro b hb
    rw [hcpar] at hb
    rw [hddoubt, hcdoubt, h.outside b hb]

/-! ## The three frames that store -/

theorem act_sectorErase {c : Chip} (a : Addr) (hwel : c.wel = true) (hin : regionBase (.sector a) < chipBytes c.par.size) :
    c.act [Config.opSectorErase, addrHigh a, addrMid a, addrLow a] =
      c.operate (.sector a) (c.mem.erase (regionBase (.sector a)) Config.sectorSize) c.par.ks := by
  have hact : c.act [Config.opSectorErase, addrHigh a, addrMid a, addrLow a] =
      c.actAddressed Config.opSectorErase (addrHigh a ++ addrMid a ++ addrLow a : BitVec 24) [] := rfl
  rw [hact, addrHigh_append_addrMid_append_addrLow, Chip.actAddressed, if_pos (by simp [hwel]), Chip.eraseSector]
  simp only [if_pos hin]
  rfl

theorem act_chipErase {c : Chip} (hwel : c.wel = true) :
    c.act [Config.opChipErase] = c.operate .whole (c.mem.erase 0 (chipBytes c.par.size)) c.par.kc := by
  have hact : c.act [Config.opChipErase] = c.actOpcode Config.opChipErase := rfl
  rw [hact, Chip.actOpcode, if_neg (by decide), if_neg (by decide), if_pos (by simp [hwel])]
  rfl

theorem act_pageProgram {c : Chip} {a2 a1 : Byte} {data : List Byte} (hwel : c.wel = true)
    (hlen : data.length = 256) (hin : regionBase (.page (a2 ++ a1 ++ (0x00 : Byte))) < chipBytes c.par.size) :
    c.act (Config.opPageProgram :: a2 :: a1 :: 0x00 :: data) =
      c.operate (.page (a2 ++ a1 ++ (0x00 : Byte)))
        (c.mem.program (regionBase (.page (a2 ++ a1 ++ (0x00 : Byte)))) data) c.par.kp := by
  have hact : c.act (Config.opPageProgram :: a2 :: a1 :: 0x00 :: data) =
      c.actAddressed Config.opPageProgram (a2 ++ a1 ++ (0x00 : Byte) : BitVec 24) data := rfl
  rw [hact, Chip.actAddressed, if_neg (by simp [Config.opPageProgram, Config.opSectorErase]), if_pos (by simp [hwel]),
    if_pos ⟨addrLow_append a2 a1 0x00, hlen⟩, Chip.programPage]
  simp only [if_pos hin]
  rfl

/-! ## The wire rows that store -/

/-- A row other than the status row and an accepted read, at the chip. -/
theorem exec_row_chip {i : Instr} {op : Byte} {bytes : List Byte} {s : State} {c : Chip} (h : s.ready)
    (hs : s.sel = false) (hc : s.env = .chip c) (hi : isHostCommand i = false) (hwf : i.wellFormed = true)
    (hbytes : (wireFrame i).bytes = op :: bytes) (hplain : isPlain op (isBusy c.busy)) :
    ∃ t, exec i s = .next t ∧ t.env = .chip (c.received (op :: bytes)).onDeselect := by
  obtain ⟨is, his⟩ := frame_plain bytes hplain
  have hf : s.env.frame (wireFrame i).bytes = some (is, .chip (c.received (op :: bytes)).onDeselect) := by
    rw [hc, hbytes, his]
  refine ⟨_, exec_wire_answered h hs hi hwf hf, ?_⟩
  cases hrow : (wireFrame i).row <;> simp [frameSent, keepReceived, hrow]

/-- A row that the chip acts on by storing to a region. -/
theorem exec_row_stores {i : Instr} {op : Byte} {bytes : List Byte} {s : State} {c : Chip} {g : Region} {m : Memory}
    {k : BusyCount} (h : s.ready) (hs : s.sel = false) (hc : s.env = .chip c) (hfree : isBusy c.busy = false)
    (hi : isHostCommand i = false) (hwf : i.wellFormed = true) (hbytes : (wireFrame i).bytes = op :: bytes)
    (hplain : isPlain op (isBusy c.busy))
    (hact : (c.received (op :: bytes)).act (op :: bytes) = (c.received (op :: bytes)).operate g m k) :
    ∃ t d, exec i s = .next t ∧ t.env = .chip d ∧ StoredAs g m c d := by
  obtain ⟨t, ht, henv⟩ := exec_row_chip h hs hc hi hwf hbytes hplain
  refine ⟨t, _, ht, henv, ?_⟩
  rw [onDeselect_free _ hfree, hact]
  exact (storedAs_operate g m k (c.received (op :: bytes))).congr rfl rfl rfl

theorem inRegion_sector (size : Nat) (a : Addr) (b : Nat) :
    inRegion size (some (.sector a)) b ↔ b / 4096 = a.toNat / 4096 := by
  rw [inRegion_some, regionBase_sector]
  simp only [regionLength, Config.sectorSize]
  omega

theorem inRegion_page (size : Nat) (a : Addr) (b : Nat) :
    inRegion size (some (.page a)) b ↔ b / 256 = a.toNat / 256 := by
  rw [inRegion_some, regionBase_page]
  simp only [regionLength, Config.pageSize]
  omega

theorem inRegion_whole (size b : Nat) : inRegion size (some .whole) b ↔ b < size := by
  rw [inRegion_some]
  simp [regionBase, regionLength]

theorem byteAt_chip {s : State} {c : Chip} (h : s.env = .chip c) (b : Nat) : s.byteAt b = some (c.content b) := by
  rw [State.byteAt, h, Env.byteAt]

/-- The bytes of the flash after a region was stored to. -/
theorem StoredAs.bytes {g : Region} {m : Memory} {c d : Chip} {s t : State} (h : StoredAs g m c d)
    (hs : s.env = .chip c) (ht : t.env = .chip d) (b : Nat) :
    (¬inRegion (chipBytes c.par.size) (some g) b → Memory.read m b = Memory.read c.mem b →
      t.byteAt b = s.byteAt b) ∧
    (inRegion (chipBytes c.par.size) (some g) b →
      (c.doubt b = .none → t.byteAt b = some (Memory.read m b)) ∧
      (c.doubt b ≠ .none → anyValueSince c b (t.byteAt b))) := by
  rw [byteAt_chip hs, byteAt_chip ht]
  exact ⟨fun hb hm => congrArg some (h.other hb hm), fun hb =>
    ⟨fun hdoubt => congrArg some (h.known hb hdoubt), h.doubtful hb⟩⟩

theorem isPlain_of_ne {op : Byte} (fbusy : Bool) (hstatus : op ≠ Config.opReadStatus) (hread : op ≠ Config.opReadData) :
    isPlain op fbusy :=
  ⟨hstatus, fun h => absurd h hread⟩

/-- Settles O41: the frame stores the erased sector. -/
theorem sectorEraseRowErasesSector : Obligations.SectorEraseRowErasesSector := by
  intro s c a h hs hc hfree hwel hin
  rw [← regionBase_sector] at hin
  obtain ⟨t, d, ht, henv, hd⟩ := exec_row_stores (i := .wSectorErase4k a) (op := Config.opSectorErase) h hs hc hfree
    rfl rfl rfl (isPlain_of_ne _ (by decide) (by decide)) (act_sectorErase (c := c.received _) a hwel hin)
  refine ⟨t, ht, fun b => ?_⟩
  have hread := Memory.read_erase c.mem (regionBase (.sector a)) Config.sectorSize b
  obtain ⟨hother, hregion⟩ := hd.bytes hc henv b
  rw [inRegion_sector] at hother hregion
  refine ⟨fun hb => hother hb ?_, fun hb => ⟨fun hdoubt => ?_, (hregion hb).2⟩⟩
  · refine hread.trans (if_neg ?_)
    rw [regionBase_sector, Config.sectorSize]
    omega
  · refine ((hregion hb).1 hdoubt).trans (congrArg some (hread.trans (if_pos ?_)))
    rw [regionBase_sector, Config.sectorSize]
    omega

/-- Settles O42: the frame stores the erased array. -/
theorem chipEraseRowErasesChip : Obligations.ChipEraseRowErasesChip := by
  intro s c h hs hc hfree hwel
  obtain ⟨t, d, ht, henv, hd⟩ := exec_row_stores (i := .wChipErase) (op := Config.opChipErase) h hs hc hfree
    rfl rfl rfl (isPlain_of_ne _ (by decide) (by decide)) (act_chipErase (c := c.received _) hwel)
  refine ⟨t, ht, fun b => ?_⟩
  have hread := Memory.read_erase c.mem 0 (chipBytes c.par.size) b
  obtain ⟨hother, hregion⟩ := hd.bytes hc henv b
  rw [inRegion_whole] at hother hregion
  refine ⟨fun hb => hother (by omega) (hread.trans (if_neg (by omega))), fun hb => ⟨fun hdoubt => ?_, (hregion hb).2⟩⟩
  exact ((hregion hb).1 hdoubt).trans (congrArg some (hread.trans (if_pos (by omega))))

/-- The address of a page, as the page number and a low byte of 0. -/
theorem pageAddress_toNat (page : BitVec 16) :
    (page.extractLsb' 8 8 ++ page.extractLsb' 0 8 ++ (0x00 : Byte) : BitVec 24).toNat = page.toNat * 256 := by
  have hpage : (page.extractLsb' 8 8 ++ page.extractLsb' 0 8 : BitVec 16) = page :=
    (BitVec.extractLsb'_append_extractLsb'_eq_extractLsb' rfl).trans BitVec.extractLsb'_eq_self
  rw [hpage, BitVec.toNat_append, Nat.shiftLeft_eq]
  simp

/-- Settles O43: the frame stores the programmed page. -/
theorem pageProgramRowProgramsPage : Obligations.PageProgramRowProgramsPage := by
  intro s c page data h hs hc hfree hwel hwf hlen hin
  have hnumber := pageAddress_toNat page
  have hbase : regionBase (.page (page.extractLsb' 8 8 ++ page.extractLsb' 0 8 ++ (0x00 : Byte))) =
      page.toNat * 256 := by
    rw [regionBase_page, hnumber]
    omega
  rw [← hbase] at hin
  obtain ⟨t, d, ht, henv, hd⟩ := exec_row_stores (i := .wPageProgram page data) (op := Config.opPageProgram) h hs hc
    hfree rfl (decide_eq_true hlen) rfl (isPlain_of_ne _ (by decide) (by decide))
    (act_pageProgram (c := c.received _) hwel hlen hin)
  refine ⟨t, ht, fun b => ?_⟩
  have hread := Memory.read_program (page.toNat * 256) b data hwf
  rw [hlen] at hread
  obtain ⟨hother, hregion⟩ := hd.bytes hc henv b
  rw [inRegion_page, hnumber, Nat.mul_div_cancel _ (by decide)] at hother hregion
  rw [hbase] at hother hregion
  refine ⟨fun hb => hother hb (hread.trans (if_neg (by omega))), fun hb => ⟨fun hdoubt => ?_, (hregion hb).2⟩⟩
  refine ((hregion hb).1 hdoubt).trans (congrArg some (hread.trans ((if_pos (by omega)).trans ?_)))
  rw [Chip.content_of_known hdoubt, show b - page.toNat * 256 = b % 256 by omega]

end Sys2Proof.Machine
end

section
/-! SUPPORT. The wire rows that store nothing, at the reference chip (spec/20_memory.md R61 to R63, R66, R67, R74,
R75, R78, R79). -/

namespace Sys2Proof.Machine

open Sys2Proof.Claims

/-! ## The status row -/

/-- Bits 0 and 1 of the status byte, and nothing else (R74). -/
theorem statusByte_bits (wel busy : Bool) :
    (statusByte wel busy).getLsbD 0 = busy ∧ (statusByte wel busy).getLsbD 1 = wel ∧
      (statusByte wel busy).toNat < 4 := by
  revert wel busy
  decide

/-- A status frame leaves the array and the counter of free values. -/
theorem polled_array (c : Chip) : c.polled.array = c.array ∧ c.polled.fresh = c.fresh := by
  rcases c with ⟨par, mem, wel, (_ | n) | _, frame, fbusy, ptr, marks, fresh⟩ <;> exact ⟨rfl, rfl⟩

/-- Settles O39: the status frame is answered at every chip. -/
theorem statusRowReportsBusyAndLatch : Obligations.StatusRowReportsBusyAndLatch := by
  intro s c h hs hc
  have hf : s.env.frame (wireFrame .wReadStatus1).bytes = _ := (congrArg _ hc).trans (frame_status c)
  obtain ⟨hbusy, hwel, hlt⟩ := statusByte_bits c.wel (isBusy c.busy)
  refine ⟨_, exec_wire_answered h hs rfl rfl hf, hbusy, hwel, hlt, fun b => ?_⟩
  rw [byteAt_chip hc, byteAt_chip (c := c.polled) rfl, Chip.content_of_array (polled_array c).1]

/-! ## A BUSY chip -/

/-- Settles O45: whatever the row, a BUSY chip only ends the frame. -/
theorem busyChipRejectsFrames : Obligations.BusyChipRejectsFrames := by
  intro s c i h hs hc hbusy hwf hi hstatus
  have hopcode : (wireFrame i).row.opcode ≠ Config.opReadStatus := by
    have hrow := wireFrame_row_ne_readStatus hstatus
    cases hr : (wireFrame i).row <;> simp_all [WireRow.opcode] <;> decide
  obtain ⟨t, ht, henv⟩ := exec_row_chip h hs hc hi hwf rfl ⟨hopcode, fun _ => hbusy⟩
  rw [onDeselect_busy _ hbusy] at henv
  refine ⟨t, _, ht, henv, rfl, rfl, rfl, fun b => ?_⟩
  rw [byteAt_chip hc, byteAt_chip henv]
  rfl

/-! ## The latch rows -/

/-- A row of the opcode alone, BUSY or not. -/
theorem exec_opcode_row {i : Instr} {op : Byte} {s : State} {c : Chip} (h : s.ready) (hs : s.sel = false)
    (hc : s.env = .chip c) (hi : isHostCommand i = false) (hwf : i.wellFormed = true)
    (hbytes : (wireFrame i).bytes = [op]) (hplain : isPlain op (isBusy c.busy)) :
    ∃ t, exec i s = .next t ∧
      t.env = .chip { (if isBusy c.busy then c.received [op] else (c.received [op]).actOpcode op) with frame := none } :=
  exec_row_chip h hs hc hi hwf hbytes hplain

/-- Settles O40: the enable and the disable frame act on the latch of a chip that is not BUSY, and on nothing
else. -/
theorem latchRowsSetAndClearLatch : Obligations.LatchRowsSetAndClearLatch := by
  intro s c h hs hc
  constructor
  · obtain ⟨t, ht, henv⟩ := exec_opcode_row (i := .wWriteEnable) (op := Config.opWriteEnable) h hs hc rfl rfl rfl
      (isPlain_of_ne _ (by decide) (by decide))
    refine ⟨t, _, ht, henv, ?_, ?_, ?_⟩ <;> cases isBusy c.busy <;> rfl
  · obtain ⟨t, ht, henv⟩ := exec_opcode_row (i := .wWriteDisable) (op := Config.opWriteDisable) h hs hc rfl rfl rfl
      (isPlain_of_ne _ (by decide) (by decide))
    refine ⟨t, _, ht, henv, ?_, ?_, ?_⟩ <;> cases isBusy c.busy <;> rfl

/-! ## The read row -/

/-- An exchange of an accepted read frame answers the byte at the pointer (R66, R78). -/
theorem onXfer_read {c : Chip} {a2 a1 a0 : Byte} {ds : List Byte} (o : Byte) (hb : c.fbusy = false)
    (hf : c.frame = some (Config.opReadData :: a2 :: a1 :: a0 :: ds)) (hptr : c.ptr < chipBytes c.par.size) :
    c.onXfer o = (c.content c.ptr,
      { c with frame := some (Config.opReadData :: a2 :: a1 :: a0 :: (ds ++ [o])), ptr := c.ptr + 1 }) := by
  simp [Chip.onXfer, hf, Chip.answer, hb, Chip.answerRead, hptr, Chip.pointer, Config.opReadData, Config.opReadStatus]

/-- Exchanges of an accepted read frame answer the contents in order (R66, R78). -/
theorem exchanges_read {a2 a1 a0 : Byte} (bytes : List Byte) : ∀ (c : Chip) (ds : List Byte),
    c.fbusy = false → c.frame = some (Config.opReadData :: a2 :: a1 :: a0 :: ds) →
    c.ptr + bytes.length ≤ chipBytes c.par.size →
    (Env.chip c).exchanges bytes = some ((List.range bytes.length).map fun k => c.content (c.ptr + k),
      .chip { c with
        frame := some (Config.opReadData :: a2 :: a1 :: a0 :: (ds ++ bytes)), ptr := c.ptr + bytes.length }) := by
  induction bytes with
  | nil =>
    intro c ds _ hf _
    rw [List.append_nil, ← hf]
    rfl
  | cons o bytes ih =>
    intro c ds hb hf hin
    rw [List.length_cons] at hin
    have hxfer := onXfer_read o hb hf (show c.ptr < chipBytes c.par.size by omega)
    have hrest := ih { c with frame := some (Config.opReadData :: a2 :: a1 :: a0 :: (ds ++ [o])), ptr := c.ptr + 1 }
      (ds ++ [o]) hb rfl (show c.ptr + 1 + bytes.length ≤ chipBytes c.par.size by omega)
    rw [List.append_assoc, List.singleton_append] at hrest
    rw [Env.exchanges_cons.mpr ⟨_, _, _, exchange_of_onXfer hxfer, hrest, rfl⟩, List.length_cons,
      List.range_succ_eq_map]
    simp only [Nat.add_assoc, Nat.add_comm 1, List.map_cons, List.map_map, Nat.add_zero]
    rfl

/-- The chip after the opcode and the address of an accepted read frame (R73). -/
def Chip.readAt (a : Addr) (c : Chip) : Chip :=
  { c with
    frame := some [Config.opReadData, addrHigh a, addrMid a, addrLow a], fbusy := false, ptr := a.toNat }

/-- The opcode and the address of a read frame at a chip that is not BUSY. -/
theorem openFrame_read {c : Chip} (a : Addr) (h : isBusy c.busy = false) :
    ∃ x0 x1 x2 x3, (Env.chip c).openFrame [Config.opReadData, addrHigh a, addrMid a, addrLow a] =
      some ([x0, x1, x2, x3], .chip (c.readAt a)) := by
  have hend : (Env.chip c).openFrame [Config.opReadData, addrHigh a, addrMid a, addrLow a] =
      some ([Config.fill, Config.fill, Config.fill, Config.fill], .chip (c.readAt a)) := by
    simp [Env.openFrame, Env.select, Chip.onSelect, Env.exchanges, Env.exchange, Chip.onXfer, Chip.answer,
      Chip.pointer, h, Chip.readAt, Config.opReadData, Config.opReadStatus, Config.opReadId]
  exact ⟨_, _, _, _, hend⟩

theorem exchanges_append {xs is : List Byte} {e e1 : Env} (h : e.exchanges xs = some (is, e1)) {ys js : List Byte}
    {e2 : Env} (h' : e1.exchanges ys = some (js, e2)) : e.exchanges (xs ++ ys) = some (is ++ js, e2) := by
  induction xs generalizing e is with
  | nil => cases h; exact h'
  | cons x xs ih =>
    obtain ⟨i, is', e3, hx, hrest, rfl⟩ := Env.exchanges_cons.mp h
    exact Env.exchanges_cons.mpr ⟨i, _, e3, hx, ih hrest, rfl⟩

/-- Settles O46: after the address every DUMMY is answered with the next byte. -/
theorem readRowYieldsContents : Obligations.ReadRowYieldsContents := by
  intro s c a n h hs hc hfree hin
  obtain ⟨x0, x1, x2, x3, hopen⟩ := openFrame_read a hfree
  have hdata := exchanges_read (List.replicate n Config.dummy) (c.readAt a) [] rfl rfl (by simpa [Chip.readAt] using hin)
  rw [List.length_replicate] at hdata
  have hf := Env.frame_some.mpr ⟨_, exchanges_append hopen hdata, rfl⟩
  rw [Env.deselect, onDeselect_readFrame rfl, ← hc] at hf
  have hexec := exec_wire_discarded (i := .wReadData a n) h hs rfl rfl nofun nofun hf
  refine ⟨_, _, x0, x1, x2, x3, hexec, rfl, rfl, rfl, fun b => ?_⟩
  rw [byteAt_chip hc]
  rfl

/-! ## The identification row -/

/-- Each DUMMY of an identification frame is answered with the next byte of IDV (R79). -/
theorem onXfer_readId {c : Chip} {rest : List Byte} (o : Byte) (hf : c.frame = some (Config.opReadId :: rest))
    (hb : c.fbusy = false) (hlen : rest.length ≤ 2) :
    c.onXfer o = (idAnswer c.par.idv (rest.length + 1),
      { c with frame := some (Config.opReadId :: (rest ++ [o])) }) := by
  have hanswer : c.answer (Config.opReadId :: rest) = (idAnswer c.par.idv (rest.length + 1), c) := by
    simp [Chip.answer, Config.opReadId, Config.opReadStatus, Config.opReadData, hb, hlen]
  have hpointer := pointer_plain (c := c) rest o (isPlain_of_ne (op := Config.opReadId) _ (by decide) (by decide))
  simp only [Chip.onXfer, hf, hanswer, hpointer, List.cons_append]

/-- The chip does not act on an identification frame. -/
theorem act_readId (c : Chip) (a2 a1 a0 : Byte) : c.act [Config.opReadId, a2, a1, a0] = c := by
  have hact : c.act [Config.opReadId, a2, a1, a0] =
      c.actAddressed Config.opReadId (a2 ++ a1 ++ a0 : BitVec 24) [] := rfl
  rw [hact, Chip.actAddressed, if_neg (by simp [Config.opReadId, Config.opSectorErase]),
    if_neg (by simp [Config.opReadId, Config.opPageProgram])]

theorem frame_readId {c : Chip} (h : isBusy c.busy = false) :
    (Env.chip c).frame [Config.opReadId, Config.dummy, Config.dummy, Config.dummy] =
      some ([Config.fill, addrHigh c.par.idv, addrMid c.par.idv, addrLow c.par.idv],
        .chip { c with frame := none, fbusy := false }) := by
  have hopcode := exchange_of_onXfer (c := c.onSelect) (onXfer_first Config.opReadId rfl)
  have hfirst := exchange_of_onXfer (onXfer_readId (c := c.received [Config.opReadId]) Config.dummy rfl h (by decide))
  have hsecond := exchange_of_onXfer (onXfer_readId
    (c := { c.received [Config.opReadId] with frame := some [Config.opReadId, Config.dummy] }) Config.dummy rfl h
    (by decide))
  have hthird := exchange_of_onXfer (onXfer_readId
    (c := { c.received [Config.opReadId] with frame := some [Config.opReadId, Config.dummy, Config.dummy] })
    Config.dummy rfl h (by decide))
  refine Env.frame_some.mpr ⟨_, Env.exchanges_cons_cons.mpr ⟨_, hopcode, Env.exchanges_cons_cons.mpr ⟨_, hfirst,
    Env.exchanges_cons_cons.mpr ⟨_, hsecond, Env.exchanges_cons_cons.mpr ⟨_, hthird, rfl⟩⟩⟩⟩, ?_⟩
  rw [Env.deselect, onDeselect_inert rfl (act_readId _ _ _ _)]
  simp only [Chip.received, h]

/-- Settles O44: the three bytes after the opcode's are those of IDV. -/
theorem identificationRowReadsIdentifier : Obligations.IdentificationRowReadsIdentifier := by
  intro s c h hs hc hfree
  have hexec := receivingRowsKeepBytes.2 s _ _ _ _ _ h hs ((congrArg _ hc).trans (frame_readId hfree))
  refine ⟨_, hexec, addrHigh_append_addrMid_append_addrLow c.par.idv, fun b => ?_⟩
  rw [byteAt_chip hc]
  rfl

end Sys2Proof.Machine
end

section
/-! SUPPORT. A read session on the reference chip (spec/46_read.md R167, R169, R173). -/

namespace Sys2Proof.Machine

open Sys2Proof.Claims

/-! ## The wait of a chip that is not BUSY -/

/-- What a wait leaves that saw BUSY clear at its first poll. -/
def firstPoll (c : Chip) (clk : Clock) : WaitRun :=
  { ok := true
    events := .time clk.advance.value ::
      frameEvents [Config.opReadStatus, Config.dummy] [Config.fill, statusByte c.wel (isBusy c.busy)]
    t0 := clk.advance.value, sr := statusByte c.wel (isBusy c.busy), clk := clk.advance, env := .chip c.polled }

/-- A chip that is not BUSY ends a wait at its first poll. -/
theorem waitRun_free {c : Chip} (tmo : Word) (clk : Clock) (h : isBusy c.busy = false) :
    waitRun tmo 1 clk (.chip c) = some (firstPoll c clk) := by
  rw [waitRun, pollRun_clear (frame_status c) 0 ((statusByte_bits _ _).1.trans h)]
  rfl

theorem polled_free {c : Chip} (h : c.busy = .left 0) : c.polled = { c with frame := none, fbusy := false } := by
  simp [Chip.polled, Chip.answerStatus, h, isBusy]

/-! ## READ_NEXT again and again -/

/-- READ_NEXT after READ_NEXT yields the contents in order, and the session stays open (R169, R173). -/
theorem readMany_contents (rsv : BitVec 4) (arg : Addr) {a2 a1 a0 : Byte} (n : Nat) :
    ∀ (s : State) (c : Chip) (ds : List Byte), s.ready → s.rda = true → s.sel = true → s.env = .chip c →
      c.fbusy = false → c.frame = some (Config.opReadData :: a2 :: a1 :: a0 :: ds) →
      c.ptr + n ≤ chipBytes c.par.size →
      ∃ u d, readMany rsv arg n s =
          some ((List.range n).map fun k => (c.content (c.ptr + k)).setWidth 32, u) ∧
        u.sel = true ∧ u.rda = true ∧ u.ph = .idle ∧ u.env = .chip d ∧ d.array = c.array := by
  induction n with
  | zero => exact fun s c _ h hrda hs hc _ _ _ => ⟨s, c, rfl, hs, hrda, h.1, hc, rfl⟩
  | succ n ih =>
    intro s c ds h hrda hs hc hb hf hin
    have hx : s.env.exchange 0x00 = _ := (congrArg _ hc).trans
      (exchange_of_onXfer (onXfer_read 0x00 hb hf (show c.ptr < chipBytes c.par.size by omega)))
    have hexec := (readNextReturnsByte s rsv arg h).2 _ _ hrda hs hx
    obtain ⟨u, d, hmany, husel, hurda, huidle, henv, harray⟩ := ih
      { s with
        op := 0x9, arg := arg
        env := .chip { c with
          frame := some (Config.opReadData :: a2 :: a1 :: a0 :: (ds ++ [0x00])), ptr := c.ptr + 1 }
        xferStart := false, xferOut := 0x00
        rsp := { valid := true, st := .ok, val := (c.content c.ptr).setWidth 32 }
        trace := s.trace ++ [.command (mkCommandWord 0x9 rsv arg), .xfer 0x00 (c.content c.ptr),
          .response .ok ((c.content c.ptr).setWidth 32)] }
      _ (ds ++ [0x00]) h hrda hs rfl hb rfl (show c.ptr + 1 + n ≤ chipBytes c.par.size by omega)
    refine ⟨u, d, ?_, husel, hurda, huidle, henv, harray⟩
    simp only [readMany, hexec]
    rw [hmany, List.range_succ_eq_map]
    simp only [Nat.add_assoc, Nat.add_comm 1, List.map_cons, List.map_map, Nat.add_zero]
    rfl

/-- Settles O47: BEGIN_READ leaves the read frame open with the pointer at the address, and each READ_NEXT takes
the next byte. -/
theorem readSessionYieldsContents : Obligations.ReadSessionYieldsContents := by
  intro s c r r' a a' n h hrda hs hc hready hcap hin
  obtain ⟨hbusy, -, -, -⟩ := hready
  have hfree : isBusy c.busy = false := by rw [hbusy]; rfl
  have hw : waitRun s.par.tDefault 1 s.clk s.env = some (firstPoll c s.clk) :=
    (congrArg _ hc).trans (waitRun_free _ _ hfree)
  have hpolled : c.polled = { c with frame := none, fbusy := false } := polled_free hbusy
  obtain ⟨x0, x1, x2, x3, hopen⟩ := openFrame_read (c := c.polled) a (by rw [hpolled]; exact hfree)
  have hexec := beginReadOpensSession s r a 1 _ _ _ h hrda hs hcap (by decide) hw rfl hopen
  obtain ⟨t, ht, htready, htrda, htsel, htenv, hok⟩ : ∃ t, exec (.beginRead r a) s = .next t ∧ t.ready ∧
      t.rda = true ∧ t.sel = true ∧ t.env = .chip (c.polled.readAt a) ∧ t.rsp.st = .ok :=
    ⟨_, hexec, h, rfl, rfl, rfl, rfl⟩
  have harray : (c.polled.readAt a).array = c.array := (polled_array c).1
  obtain ⟨u, d, hmany, husel, hurda, huidle, henv, hkept⟩ := readMany_contents r' a' n t (c.polled.readAt a) []
    htready htrda htsel htenv rfl rfl (by rw [hpolled]; exact hin)
  refine ⟨t, u, ht, hok, ?_, husel, hurda, huidle, fun b => ?_⟩
  · have hptr : (c.polled.readAt a).ptr = a.toNat := rfl
    simpa only [Chip.content_of_array harray, hptr] using hmany
  · rw [byteAt_chip hc, byteAt_chip henv, Chip.content_of_array (hkept.trans harray)]

end Sys2Proof.Machine
end

section
/-! SUPPORT. The waits and the latch frames of a command at the reference chip: they leave the array, and say what
BUSY and the latch are (spec/42_ready_wait.md R135, spec/43_write_enable.md R145, R147, spec/20_memory.md R74,
R75). -/

namespace Sys2Proof.Machine

open Sys2Proof.Claims

theorem isBusy_eq_false_iff {k : BusyCount} : isBusy k = false ↔ k = .left 0 := by
  rcases k with (_ | n) | _ <;> simp [isBusy]

/-- The array of a chip and the counter of its free values, which status and latch frames leave alone. -/
def SameArray (c d : Chip) : Prop := d.array = c.array ∧ d.fresh = c.fresh

theorem SameArray.trans {c d e : Chip} (h : SameArray c d) (h' : SameArray d e) : SameArray c e :=
  ⟨h'.1.trans h.1, h'.2.trans h.2⟩

/-! ## Waits -/

/-- A wait on the chip leaves its array; when it ends well the chip is not BUSY (R74, R135). -/
theorem pollRun_chip {tmo t0 : Word} {n : Nat} {clk : Clock} {c : Chip} {w : WaitRun}
    (h : pollRun tmo t0 n clk (.chip c) = some w) :
    ∃ d, w.env = .chip d ∧ SameArray c d ∧ (w.ok = true → d.busy = .left 0) := by
  induction n generalizing clk c w with
  | zero => cases h
  | succ n ih =>
    have hf := frame_status c
    have hbit := (statusByte_bits c.wel (isBusy c.busy)).1
    cases hbusy : isBusy c.busy
    · rw [pollRun_clear hf n (hbit.trans hbusy)] at h
      cases h
      have hleft := isBusy_eq_false_iff.mp hbusy
      exact ⟨c.polled, rfl, polled_array c, fun _ => by rw [polled_free hleft]; exact hleft⟩
    · by_cases hlate : (clk.advance.value - t0).toNat > tmo.toNat
      · rw [pollRun_late hf n (hbit.trans hbusy) hlate] at h
        cases h
        exact ⟨c.polled, rfl, polled_array c, nofun⟩
      · rw [pollRun_again hf n (hbit.trans hbusy) hlate] at h
        obtain ⟨w', hw, rfl⟩ := Option.map_eq_some_iff.mp h
        obtain ⟨d, henv, hsame, hfree⟩ := ih hw
        exact ⟨d, henv, SameArray.trans (polled_array c) hsame, hfree⟩

theorem waitRun_chip {tmo : Word} {n : Nat} {clk : Clock} {c : Chip} {w : WaitRun}
    (h : waitRun tmo n clk (.chip c) = some w) :
    ∃ d, w.env = .chip d ∧ SameArray c d ∧ (w.ok = true → d.busy = .left 0) := by
  obtain ⟨w', hw, rfl⟩ := Option.map_eq_some_iff.mp h
  obtain ⟨d, henv, hsame, hfree⟩ := pollRun_chip hw
  exact ⟨d, henv, hsame, hfree⟩

/-- A status frame at a BUSY chip takes the count down by one (R74). -/
theorem polled_busy {c : Chip} {m : Nat} (h : c.busy = .left (m + 1)) : c.polled.busy = .left m := by
  simp [Chip.polled, Chip.answerStatus, h]

/-- A wait on a chip whose count ends in time ends well, after one poll more than the count (R74, R135). -/
theorem pollRun_inTime {tmo t0 : Word} {m : Nat} {clk : Clock} {c : Chip} (h : c.busy = .left m)
    (htime : ∀ j, 1 ≤ j → j ≤ m → ((Clock.advance^[j] clk).value - t0).toNat ≤ tmo.toNat) :
    ∃ w, pollRun tmo t0 (m + 1) clk (.chip c) = some w ∧ w.ok = true := by
  have hf := frame_status c
  have hbit := (statusByte_bits c.wel (isBusy c.busy)).1
  induction m generalizing clk c with
  | zero => exact ⟨_, pollRun_clear hf 0 (hbit.trans (by rw [h]; rfl)), rfl⟩
  | succ m ih =>
    obtain ⟨w, hw, hok⟩ := ih (clk := clk.advance) (polled_busy h)
      (fun j _ hj => htime (j + 1) (by omega) (by omega)) (frame_status _) (statusByte_bits _ _).1
    have hlate : ¬(clk.advance.value - t0).toNat > tmo.toNat := Nat.not_lt.mpr (htime 1 le_rfl (by omega))
    exact ⟨_, (pollRun_again hf (m + 1) (hbit.trans (by rw [h]; simp [isBusy])) hlate).trans (congrArg _ hw), hok⟩

theorem waitRun_inTime {tmo : Word} {k : BusyCount} {clk : Clock} {c : Chip} (h : c.busy = k)
    (htime : endsInTime k tmo clk) :
    ∃ n w, n ≤ 2 ^ 32 ∧ waitRun tmo n clk (.chip c) = some w ∧ w.ok = true := by
  obtain ⟨m, hm, rfl, hsamples⟩ := htime
  obtain ⟨w, hw, hok⟩ := pollRun_inTime (t0 := clk.advance.value) (clk := clk.advance) h
    (fun j _ hj => hsamples j hj)
  exact ⟨m + 1, _, by omega, congrArg _ hw, hok⟩

theorem endsInTime_zero (tmo : Word) (clk : Clock) : endsInTime (.left 0) tmo clk :=
  ⟨0, by decide, rfl, fun j hj => by simp [Nat.le_zero.mp hj]⟩

/-! ## The latch frames -/

theorem frame_opcode {op : Byte} (c : Chip) :
    (Env.chip c).frame [op] = some ([Config.fill], .chip (c.received [op]).onDeselect) :=
  Env.frame_some.mpr ⟨_, Env.exchanges_cons_cons.mpr
    ⟨_, exchange_of_onXfer (c := c.onSelect) (onXfer_first op rfl), rfl⟩, rfl⟩

/-- The chip after an enable frame that it took (R75). -/
def Chip.enabled (c : Chip) : Chip := { c with wel := c.par.latch, frame := none, fbusy := false }

theorem frame_enable {c : Chip} (h : c.busy = .left 0) :
    (Env.chip c).frame [Config.opWriteEnable] = some ([Config.fill], .chip c.enabled) := by
  have hfree : isBusy c.busy = false := isBusy_eq_false_iff.mpr h
  rw [frame_opcode, onDeselect_free _ hfree]
  simp [Chip.received, Chip.act, Chip.actOpcode, Chip.enabled, hfree]

/-- A disable frame leaves the array (R75). -/
theorem frame_disable (c : Chip) :
    ∃ d, (Env.chip c).frame [Config.opWriteDisable] = some ([Config.fill], .chip d) ∧ d.array = c.array ∧
      d.frame = none := by
  refine ⟨_, frame_opcode c, ?_, rfl⟩
  cases hbusy : isBusy c.busy
  · rw [onDeselect_free _ hbusy]
    rfl
  · rw [onDeselect_busy _ hbusy]
    rfl

end Sys2Proof.Machine
end

section
/-! SUPPORT. What the answer OK of a command that stores means at the reference chip: its waits ended well, the
latch was confirmed, its frame was acted on (spec/44_erase.md R153, R155, spec/45_page_write.md R161). -/

namespace Sys2Proof.Machine

open Sys2Proof.Claims

namespace Store

/-! ## Stage by stage -/

section

variable {k : Store} {N : Nat} {s t : State} {c : Chip} (hr : s.rstIn = []) (hs : s.sel = false)
  (hin : k.inBounds s.arg s.cap) (hrun : run N (goto k.first s) = .next t) (ht : t.ph = .idle)
  (hst : t.rsp.st = .ok)

include hr hs hin hrun ht hst

/-- The opening wait ended well. -/
theorem ok_opened (hc : s.env = .chip c) : ∃ n w d, waitRun s.par.tDefault n s.clk s.env = some w ∧ w.ok = true ∧
    w.env = .chip d ∧ SameArray c d ∧ d.busy = .left 0 := by
  obtain ⟨-, n, w, hw⟩ := run_ends_waitRun ((reaches_opening hr hin).run_from hrun ht) ht rfl hr
  rw [timeoutOf_opening] at hw
  have hopened := reaches_opened hr hs hin hw
  cases hok : w.ok with
  | false =>
    rw [hok, returnWait_opening_false] at hopened
    obtain rfl := hopened.ends_at rfl hrun ht
    cases hst
  | true =>
    obtain ⟨d, henv, hsame, hfree⟩ := waitRun_chip (hc ▸ hw)
    exact ⟨n, w, d, hw, hok, henv, hsame, hfree hok⟩

variable {n : Nat} {w : WaitRun} {x1 y1 sr1 : Byte} {e1 e2 : Env}
  (hw : waitRun s.par.tDefault n s.clk s.env = some w) (hok : w.ok = true)
  (hf1 : w.env.frame [Config.opWriteEnable] = some ([x1], e1))
  (hf2 : e1.frame [Config.opReadStatus, Config.dummy] = some ([y1, sr1], e2))

include hw hok hf1 hf2

/-- The re-read confirmed the latch. -/
theorem ok_confirmed : writeEnabledBit sr1 = true := by
  have hreread := reaches_reread hr hs hin hw hok hf1 hf2
  cases hbit : writeEnabledBit sr1 with
  | true => rfl
  | false =>
    rw [hbit, returnEnable_false] at hreread
    obtain rfl := hreread.ends_at rfl hrun ht
    cases hst

/-- The closing wait ended well. -/
theorem ok_closed {buf is : List Byte} (hbit : writeEnabledBit sr1 = true)
    (hpage : k = .page → s.page = buf ∧ buf.length = 256)
    (hf3 : e2.frame (k.bytes s.arg buf) = some (is, .chip c)) :
    ∃ n' w' d, waitRun (k.timeout s.par) n' (k.clock s.par w.clk) (.chip c) = some w' ∧ w'.ok = true ∧
      w'.env = .chip d ∧ SameArray c d := by
  have hclosing := reaches_atClosing hr hs hin hw hok hf1 hf2 hbit hpage hf3
  obtain ⟨-, n', w', hw'⟩ := run_ends_waitRun (hclosing.run_from hrun ht) ht rfl hr
  rw [timeoutOf_closing] at hw'
  have hclosed := reaches_closed hr hs hin hw hok hf1 hf2 hbit hpage hf3 hw'
  cases hok' : w'.ok with
  | false =>
    rw [hok', returnWait_closing_false] at hclosed
    obtain rfl := hclosed.ends_at rfl hrun ht
    cases hst
  | true =>
    obtain ⟨d, henv, hsame, -⟩ := waitRun_chip hw'
    exact ⟨n', w', d, hw', hok', henv, hsame⟩

end

/-! ## The whole command -/

/-- A command that answers OK has an address in range. -/
theorem inBounds_of_ok {k : Store} {rsv : BitVec 4} {a : Addr} {buf : List Byte} {s t : State} (h : s.ready)
    (hrda : s.rda = false) (hexec : exec (k.instr rsv a buf) s = .next t) (hst : t.rsp.st = .ok) :
    k.inBounds a s.cap := by
  cases k
  case chip => trivial
  case sector =>
    refine Nat.lt_of_not_le fun hout => ?_
    cases hexec.symm.trans (outOfRangeFailsWithoutBus s rsv a buf h hrda hout).1
    cases hst
  case page =>
    refine Nat.lt_of_not_le fun hout => ?_
    cases hexec.symm.trans (outOfRangeFailsWithoutBus s rsv a buf h hrda hout).2.1
    cases hst

/-- The bytes of the store frame, named by their opcode. -/
theorem bytes_plain (k : Store) (a : Addr) (buf : List Byte) (fbusy : Bool) :
    ∃ op rest, k.bytes a buf = op :: rest ∧ isPlain op fbusy := by
  cases k <;> exact ⟨_, _, rfl, isPlain_of_ne _ (by decide) (by decide)⟩

/-- A chip that is not BUSY acts on the store frame. -/
theorem frame_stores (k : Store) (a : Addr) (buf : List Byte) {c : Chip} (h : c.busy = .left 0) :
    ∃ is, (Env.chip c).frame (k.bytes a buf) =
      some (is, .chip { (c.received (k.bytes a buf)).act (k.bytes a buf) with frame := none }) := by
  obtain ⟨op, rest, hbytes, hplain⟩ := k.bytes_plain a buf (isBusy c.busy)
  obtain ⟨is, hf⟩ := frame_plain rest hplain
  rw [onDeselect_free _ (isBusy_eq_false_iff.mpr h)] at hf
  exact ⟨is, by rw [hbytes, hf]⟩

/-- What the answer OK means: a chip with the array of `c` and the latch set has acted on the store frame, and
its region is settled. -/
structure Stored (k : Store) (a : Addr) (buf : List Byte) (c d : Chip) (t : State) : Prop where
  ready    : t.ready
  rda      : t.rda = false
  sel      : t.sel = false
  same     : SameArray c d
  wel      : d.wel = true
  contents : ∃ e : Chip, t.env = .chip (e.settle (k.region a)) ∧ e.array = (d.act (k.bytes a buf)).array

theorem ok_stored {k : Store} {rsv : BitVec 4} {a : Addr} {buf : List Byte} {s t : State} {c : Chip} (h : s.ready)
    (hrda : s.rda = false) (hs : s.sel = false) (hc : s.env = .chip c) (hlen : k = .page → buf.length = 256)
    (hexec : exec (k.instr rsv a buf) s = .next t) (ht : t.ph = .idle) (hst : t.rsp.st = .ok) :
    ∃ d, Stored k a buf c d t := by
  have hin := inBounds_of_ok h hrda hexec hst
  rw [exec_begun (k.isHostCommand_instr rsv a buf) h hrda (k.op_ne_readNext rsv a buf)] at hexec
  have hrun := hexec
  rw [begun_instr] at hrun
  have hr := accepted_quiet (k.instr rsv a buf) h
  have hin' := inBounds_accepted rsv buf hin
  obtain ⟨n, w, d, hw, hok, henv, hsame, hfree⟩ := ok_opened hr hs hin' hrun ht hst hc
  have hf1 : w.env.frame [Config.opWriteEnable] = _ := (congrArg _ henv).trans (frame_enable hfree)
  have hf2 := frame_status d.enabled
  rw [show d.enabled.polled = d.enabled from polled_free hfree] at hf2
  have hbit := ok_confirmed hr hs hin' hrun ht hst hw hok hf1 hf2
  obtain ⟨is, hf3⟩ := k.frame_stores a buf (c := d.enabled) hfree
  obtain ⟨n', w', d', hw', hok', henv', hsame'⟩ := ok_closed hr hs hin' hrun ht hst hw hok hf1 hf2 hbit
    (accepted_page rsv hlen) (by rw [accepted_arg]; exact hf3)
  obtain ⟨e, hf, harray, -⟩ := frame_disable d'
  have hf5 : w'.env.frame [Config.opWriteDisable] = _ := (congrArg _ henv').trans hf
  obtain rfl := (reaches_answeredOk h hs hin hw hok hf1 hf2 hbit hlen hf3 hw' hok' hf5).ends_at h.1 hexec ht
  exact ⟨d.enabled.received (k.bytes a buf), h, hrda, hs, hsame, (statusByte_bits _ _).2.1.symm.trans hbit, e, rfl,
    harray.trans hsame'.1⟩

end Store

end Sys2Proof.Machine
end

section
/-! SUPPORT. The contents of the reference chip after a command that stores has answered OK
(spec/20_memory.md R76, R77, spec/60_exceptions.md R188, spec/93_implementation_defined.md U1). -/

namespace Sys2Proof.Machine

open Sys2Proof.Claims

/-! ## What OK ends -/

/-- What befalls a region when its command returns OK (U1, R188). -/
def okEvent : Region → RegionEvent
  | .page _ => .writeOk
  | .sector _ => .eraseOk
  | .whole => .eraseOk

theorem doubt_settle_inside {g : Region} {c : Chip} {b : Nat} (h : inRegion (chipBytes c.par.size) (some g) b) :
    (c.settle g).doubt b = (okEvent g).after (c.doubt b) := by
  rw [inRegion_some] at h
  unfold Chip.settle
  split
  · rename_i hempty
    rw [Chip.doubt_of_no_marks (List.isEmpty_iff.mp hempty)]
    cases g <;> rfl
  · cases g <;> exact (Chip.doubt_mark _ _ c b).trans (if_pos h)

theorem settle_par (g : Region) (c : Chip) : (c.settle g).par = c.par := (settle_keptOutside g c).1

namespace Store

/-! ## The store frame -/

/-- The array's bytes after the store frame (R76, R77). -/
def memory (a : Addr) (buf : List Byte) (c : Chip) : Store → Memory
  | chip => c.mem.erase 0 (chipBytes c.par.size)
  | sector => c.mem.erase (regionBase (.sector a)) Config.sectorSize
  | page => c.mem.program (regionBase (.page a)) buf

/-- The BUSY count it begins (R71). -/
def duration (p : ChipParams) : Store → BusyCount
  | chip => p.kc
  | sector => p.ks
  | page => p.kp

/-- The page of an address, as its two upper bytes name it. -/
theorem regionBase_page_upper (a : Addr) :
    regionBase (.page (addrHigh a ++ addrMid a ++ (0x00 : Byte))) = regionBase (.page a) := by
  rw [regionBase_page, regionBase_page, page_of_upper_bytes]

/-- Only the base of a page counts for what befalls it. -/
theorem operate_page_congr {a a' : Addr} (h : regionBase (.page a') = regionBase (.page a)) (m : Memory)
    (q : BusyCount) (c : Chip) : c.operate (.page a') m q = c.operate (.page a) m q := by
  simp [Chip.operate, Chip.renew, Chip.mark, regionLength, h]

/-- The store frame with the latch set, its region in the chip. -/
theorem act_stores {k : Store} {a : Addr} {buf : List Byte} {c : Chip} (hwel : c.wel = true)
    (hlen : k = .page → buf.length = 256) (hin : regionBase (k.region a) < chipBytes c.par.size) :
    c.act (k.bytes a buf) = c.operate (k.region a) (k.memory a buf c) (k.duration c.par) := by
  cases k
  case chip => exact act_chipErase hwel
  case sector => exact act_sectorErase a hwel hin
  case page =>
    have hbase := regionBase_page_upper a
    have hact := act_pageProgram (a2 := addrHigh a) (a1 := addrMid a) hwel (hlen rfl) (hbase ▸ hin)
    rw [hbase, operate_page_congr hbase] at hact
    exact hact

theorem act_keptOutside (k : Store) (a : Addr) (buf : List Byte) {c : Chip} (hwf : Memory.wf c.mem = true) :
    KeptOutside (some (k.region a)) c (c.act (k.bytes a buf)) := by
  refine (Machine.act_keptOutside _ hwf).mono ?_
  cases k
  case chip => exact frameRegion_chipErase [] _
  case sector =>
    rw [bytes, frameRegion_sector]
    exact Within.refl _ _
  case page => exact frameRegion_page a buf _

/-! ## After the answer OK -/

section

variable {k : Store} {a : Addr} {buf : List Byte} {c d : Chip} {s t : State} (h : k.Stored a buf c d t)

include h

/-- Bytes outside the region read as before. -/
theorem Stored.outside (hc : s.env = .chip c) (hwf : Memory.wf c.mem = true) {b : Nat}
    (hb : ¬inRegion (chipBytes c.par.size) (some (k.region a)) b) : t.byteAt b = s.byteAt b := by
  obtain ⟨e, henv, harray⟩ := h.contents
  obtain ⟨-, hmem, -⟩ := Chip.array_eq_iff.mp h.same.1
  have hframe : KeptOutside (some (k.region a)) c (d.act (k.bytes a buf)) :=
    (KeptOutside.of_array _ h.same.1).trans (k.act_keptOutside a buf (hmem ▸ hwf))
  have hkept := (hframe.trans (.of_array _ harray)).trans (settle_keptOutside (k.region a) e)
  rw [byteAt_chip hc, byteAt_chip henv, hkept.2 b hb]

/-- The region has been stored to, and its doubt settled as far as the command can. -/
theorem Stored.inside (hlen : k = .page → buf.length = 256)
    (hin : regionBase (k.region a) < chipBytes c.par.size) :
    ∃ e, t.env = .chip e ∧ e.par = c.par ∧ e.mem = k.memory a buf c ∧
      ∀ b, inRegion (chipBytes c.par.size) (some (k.region a)) b →
        e.doubt b = (okEvent (k.region a)).after ((RegionEvent.changed c.fresh).after (c.doubt b)) := by
  obtain ⟨e, henv, harray⟩ := h.contents
  obtain ⟨hpar, hmem, -⟩ := Chip.array_eq_iff.mp h.same.1
  have hmemory : k.memory a buf d = k.memory a buf c := by cases k <;> simp only [memory, hmem, hpar]
  have hact := act_stores (k := k) (buf := buf) h.wel hlen (hpar ▸ hin)
  have hstored : StoredAs (k.region a) (k.memory a buf c) c e :=
    (storedAs_operate _ _ _ d).congr h.same.1.symm h.same.2.symm (harray.trans (by rw [hact, hmemory]))
  refine ⟨_, henv, (settle_par _ _).trans hstored.par, (Chip.settle_mem _ _).trans hstored.mem, fun b hb => ?_⟩
  rw [doubt_settle_inside (by rwa [hstored.par]), hstored.inside b hb]

/-- An erased byte is known, unless a page write had lost it. -/
theorem Stored.erased (hok : okEvent (k.region a) = .eraseOk)
    (hin : regionBase (k.region a) < chipBytes c.par.size)
    {b : Nat} (hb : inRegion (chipBytes c.par.size) (some (k.region a)) b)
    (hread : Memory.read (k.memory a buf c) b = 0xFF) :
    (lostByWrite (c.doubt b) = false → t.byteAt b = some 0xFF) ∧
      (lostByWrite (c.doubt b) = true → anyValueSince c b (t.byteAt b)) := by
  have hlen : k = .page → buf.length = 256 := by
    rintro rfl
    cases hok
  obtain ⟨e, henv, -, hmem, hdoubt⟩ := h.inside hlen hin
  have hb' := hdoubt b hb
  rw [hok] at hb'
  rw [byteAt_chip henv]
  constructor
  · intro hlost
    have hknown : e.doubt b = .none := by cases hd : c.doubt b <;> simp_all [lostByWrite, RegionEvent.after]
    rw [Chip.content_of_known hknown, hmem, hread]
  · intro hlost
    refine ⟨c.fresh, le_rfl, congrArg some ?_⟩
    cases hd : c.doubt b <;> simp_all [lostByWrite, RegionEvent.after, Chip.content]

end

end Store

end Sys2Proof.Machine
end

section
/-! SUPPORT. The commands that store on a reference chip that is ready for them, and what they leave in the array
(spec/44_erase.md R153, R155, spec/45_page_write.md R161, spec/20_memory.md R71, R76, R77). -/

namespace Sys2Proof.Machine

open Sys2Proof.Claims

theorem chipBytes_pos (size : ChipSize) : 0 < chipBytes size := by
  cases size <;> decide

namespace Store

/-! ## OK comes when BUSY ends in time -/

/-- The store frame leaves a BUSY count that ends in time, if its own does: a page outside the chip begins no
operation. -/
theorem act_endsInTime {k : Store} {a : Addr} {buf : List Byte} {c : Chip} {tmo : Word} {clk : Clock}
    (hwel : c.wel = true) (hbusy : c.busy = .left 0) (hlen : k = .page → buf.length = 256)
    (htime : endsInTime (k.duration c.par) tmo clk) : endsInTime (c.act (k.bytes a buf)).busy tmo clk := by
  by_cases hin : regionBase (k.region a) < chipBytes c.par.size
  · rw [act_stores hwel hlen hin]
    exact htime
  cases k
  case chip => exact absurd (chipBytes_pos c.par.size) hin
  case sector =>
    have hact : c.act (bytes a buf .sector) = c.eraseSector a := by
      have haddressed : c.act (bytes a buf .sector) =
          c.actAddressed Config.opSectorErase (addrHigh a ++ addrMid a ++ addrLow a : BitVec 24) [] := rfl
      rw [haddressed, addrHigh_append_addrMid_append_addrLow, Chip.actAddressed, if_pos (by simp [hwel])]
    rw [hact]
    exact htime
  case page =>
    have hact : c.act (bytes a buf .page) = c := by
      have haddressed : c.act (bytes a buf .page) =
          c.actAddressed Config.opPageProgram (addrHigh a ++ addrMid a ++ (0x00 : Byte) : BitVec 24) buf := rfl
      rw [haddressed, Chip.actAddressed, if_neg (by simp [Config.opPageProgram, Config.opSectorErase]),
        if_pos (by simp [hwel]), if_pos ⟨addrLow_append _ _ _, hlen rfl⟩, Chip.programPage]
      simp only [regionBase_page_upper, if_neg (show ¬regionBase (.page a) < chipBytes c.par.size from hin)]
    rw [hact, hbusy]
    exact endsInTime_zero tmo clk

/-- A command that stores answers OK on a ready chip whose operation ends in time. -/
theorem ok_of_inTime {k : Store} {rsv : BitVec 4} {a : Addr} {buf : List Byte} {s : State} {c : Chip} (h : s.ready)
    (hrda : s.rda = false) (hs : s.sel = false) (hc : s.env = .chip c) (hready : readyChip c)
    (hin : k.inBounds a s.cap) (hlen : k = .page → buf.length = 256)
    (htime : endsInTime (k.duration c.par) (k.timeout s.par) (k.clock s.par s.clk.advance)) :
    ∃ t, exec (k.instr rsv a buf) s = .next t ∧ t.ph = .idle ∧ t.rsp.st = .ok := by
  obtain ⟨hbusy, -, -, hlatch⟩ := hready
  have hw : waitRun s.par.tDefault 1 s.clk s.env = some (firstPoll c s.clk) :=
    (congrArg _ hc).trans (waitRun_free _ _ (isBusy_eq_false_iff.mpr hbusy))
  have hpolled : c.polled.busy = .left 0 := by rw [polled_free hbusy]; exact hbusy
  have hpar : c.polled.par = c.par := (Chip.array_eq_iff.mp (polled_array c).1).1
  have hf1 : (firstPoll c s.clk).env.frame [Config.opWriteEnable] = _ := frame_enable hpolled
  have hf2 := frame_status c.polled.enabled
  rw [show c.polled.enabled.polled = c.polled.enabled from polled_free hpolled] at hf2
  have hwel : c.polled.enabled.wel = true := (congrArg ChipParams.latch hpar).trans hlatch
  have hbit : writeEnabledBit (statusByte c.polled.enabled.wel (isBusy c.polled.enabled.busy)) = true :=
    (statusByte_bits _ _).2.1.trans hwel
  obtain ⟨is, hf3⟩ := k.frame_stores a buf (c := c.polled.enabled) hpolled
  obtain ⟨n', w', hn', hw', hok'⟩ := waitRun_inTime
    (c := { (c.polled.enabled.received (k.bytes a buf)).act (k.bytes a buf) with frame := none }) rfl
    (act_endsInTime hwel hpolled hlen (hpar.symm ▸ htime))
  obtain ⟨d, henv, -, -⟩ := waitRun_chip hw'
  obtain ⟨e, hf5, -, -⟩ := frame_disable d
  exact ⟨_, exec_finished h hrda hs hin (by decide) hw rfl hf1 hf2 hbit hlen hf3 hw' hn' hok'
    ((congrArg _ henv).trans hf5), h.1, rfl⟩

end Store

/-! ## The two statements -/

/-- Settles O48: OK means that the chip acted on the erase frame (`Store.ok_stored`), and it comes when the closing
wait outlasts BUSY (`Store.ok_of_inTime`). -/
theorem eraseCommandsEraseTheirRegion : Obligations.EraseCommandsEraseTheirRegion := by
  intro s c rsv a h hrda hs hc _ hwf
  refine ⟨fun t hexec ht hst hin b => ?_, fun t hexec ht hst b => ?_, fun hready hcap htime => ?_,
    fun hready htime => ?_⟩
  · obtain ⟨d, hd⟩ := Store.ok_stored (k := .sector) (buf := []) h hrda hs hc nofun hexec ht hst
    have hbase := regionBase_sector a
    refine ⟨fun hb => hd.outside hc hwf (mt (inRegion_sector _ a b).mp hb), fun hb =>
      hd.erased rfl (show regionBase (.sector a) < _ by omega) ((inRegion_sector _ a b).mpr hb) ?_⟩
    refine (Memory.read_erase c.mem _ _ b).trans (if_pos ?_)
    rw [hbase, Config.sectorSize]
    omega
  · obtain ⟨d, hd⟩ := Store.ok_stored (k := .chip) (buf := []) h hrda hs hc nofun hexec ht hst
    refine ⟨fun hb => hd.outside hc hwf (mt (inRegion_whole _ b).mp (Nat.not_lt.mpr hb)), fun hb =>
      hd.erased rfl (Nat.zero_lt_of_lt hb) ((inRegion_whole _ b).mpr hb) ?_⟩
    exact (Memory.read_erase c.mem _ _ b).trans (if_pos (by omega))
  · exact Store.ok_of_inTime (k := .sector) (buf := []) h hrda hs hc hready hcap nofun htime
  · exact Store.ok_of_inTime (k := .chip) (buf := []) h hrda hs hc hready trivial nofun htime

/-- Byte k of a page after the program frame: old AND new (R77). -/
theorem read_programmed (a : Addr) {buf : List Byte} {c : Chip} {b : Nat} (hwf : Memory.wf c.mem = true)
    (hlen : buf.length = 256) (hb : b / 256 = a.toNat / 256) :
    Memory.read (Store.memory a buf c .page) b = Memory.read c.mem b &&& buf.getD (b % 256) 0 := by
  have hread := Memory.read_program (regionBase (.page a)) b buf hwf
  rw [regionBase_page, hlen, if_pos (by omega), show b - a.toNat / 256 * 256 = b % 256 by omega] at hread
  rw [← hread, Store.memory, regionBase_page]

/-- Settles O49: OK means that the chip acted on the program frame (`Store.ok_stored`), on bytes all 0xFF when an
erase had answered OK before, and it comes when the closing wait outlasts BUSY (`Store.ok_of_inTime`). -/
theorem writePageProgramsContainingPage : Obligations.WritePageProgramsContainingPage := by
  intro s c rsv a buf h hrda hs hc _ hwf hlen
  have hbase := regionBase_page a
  have hsector := regionBase_sector a
  refine ⟨fun t hexec ht hst b => ?_, fun rsv' t u hexec ht hst hexec' hu hst' hin b hb => ?_,
    fun hready hcap htime => ?_⟩
  · obtain ⟨d, hd⟩ := Store.ok_stored (k := .page) h hrda hs hc (fun _ => hlen) hexec ht hst
    refine ⟨fun hb => hd.outside hc hwf (mt (inRegion_page _ a b).mp hb), fun hb hin => ?_⟩
    obtain ⟨e, henv, -, hmem, hdoubt⟩ := hd.inside (fun _ => hlen) (show regionBase (.page a) < _ by omega)
    have hb' := hdoubt b ((inRegion_page _ a b).mpr hb)
    rw [byteAt_chip henv]
    refine ⟨fun hknown => ?_, fun ep hlost => ⟨c.fresh, le_rfl, ?_⟩⟩
    · rw [Chip.content_of_known (by rw [hb', hknown]; rfl), hmem, read_programmed a hwf hlen hb,
        Chip.content_of_known hknown]
    · rcases hlost with hlost | hlost <;> rw [hlost] at hb' <;>
        exact congrArg some (by rw [Chip.content, hb']; rfl)
  · obtain ⟨d, hd⟩ := Store.ok_stored (k := .sector) (buf := []) h hrda hs hc nofun hexec ht hst
    obtain ⟨e, henv, hpar, hmem, hdoubt⟩ := hd.inside nofun (show regionBase (.sector a) < _ by omega)
    obtain ⟨d', hd'⟩ := Store.ok_stored (k := .page) hd.ready hd.rda hd.sel henv (fun _ => hlen) hexec' hu hst'
    obtain ⟨f, henv', -, hmem', hdoubt'⟩ := hd'.inside (fun _ => hlen)
      (show regionBase (.page a) < chipBytes e.par.size by rw [hpar]; omega)
    have hb1 := hdoubt b ((inRegion_sector _ a b).mpr (by omega))
    have hb2 := hdoubt' b ((inRegion_page _ a b).mpr hb)
    have hknown : f.doubt b = .none := by
      rw [hb2, hb1]
      cases c.doubt b <;> rfl
    have hewf : Memory.wf e.mem = true := hmem ▸ Memory.erase_wf _ _ hwf
    have herased : Memory.read e.mem b = 0xFF := by
      rw [hmem]
      refine (Memory.read_erase c.mem _ _ b).trans (if_pos ?_)
      rw [hsector, Config.sectorSize]
      omega
    rw [byteAt_chip henv', Chip.content_of_known hknown, hmem', read_programmed a hewf hlen hb, herased]
    exact congrArg some (BitVec.allOnes_and (x := buf.getD (b % 256) 0))
  · exact Store.ok_of_inTime (k := .page) h hrda hs hc hready hcap (fun _ => hlen) htime

end Sys2Proof.Machine
end

section
/-! SUPPORT. No line looks at the trace, and only the commands whose word carries an operand look at ARG: the lines
of two accepted words of a command with the same operand go the same way (spec/30_encoding.md R96). -/

namespace Sys2Proof.Machine

open Sys2Proof.Claims

/-! ## The same state behind another command word -/

/-- The state with `a` latched in ARG and `es` before its trace. -/
def relatched (es : List Event) (a : Addr) (s : State) : State := { s with arg := a, trace := es ++ s.trace }

/-- A move to or at another state. -/
def Move.map (f : State → State) : Move → Move
  | .go t => .go (f t)
  | .wait t => .wait (f t)
  | .stop e => .stop e

/-- The commands whose operand ARG is (R82). -/
def takesArg (code : BitVec 4) : Bool := code = 0x2 || code = 0x6 || code = 0x7 || code = 0x8

section

variable {es : List Event} {a : Addr} {s : State}

theorem respond_relatched (st : Status) (v : Word) (s : State) :
    respond st v (relatched es a s) = relatched es a (respond st v s) := by
  simp [respond, relatched]

theorem respondAny_relatched (st : Status) (s : State) :
    respondAny st (relatched es a s) = relatched es a (respondAny st s) :=
  respond_relatched st _ { s with fresh := s.fresh + 1 }

theorem passOrFail_relatched (r : Bool) (p : Phase) (s : State) :
    passOrFail r p (relatched es a s) = relatched es a (passOrFail r p s) := by
  cases r
  · exact respondAny_relatched .fail s
  · rfl

theorem passOrForget_relatched (r : Bool) (g : Region) (p : Phase) (s : State) :
    passOrForget r g p (relatched es a s) = relatched es a (passOrForget r g p s) := by
  cases r
  · exact respondAny_relatched .fail { s with env := s.env.abandon (some g) }
  · rfl

theorem go_relatched {t u : State} (h : t = relatched es a u) : Move.go t = (Move.go u).map (relatched es a) :=
  congrArg Move.go h

/-- A test chooses the same way in both. -/
theorem ite_relatched {p : Prop} [Decidable p] {t t' u u' : State} (ht : t = relatched es a t')
    (hu : u = relatched es a u') : (if p then t else u) = relatched es a (if p then t' else u') := by
  split
  · exact ht
  · exact hu

theorem select_relatched {next : State → State} (h : ∀ u, next (relatched es a u) = relatched es a (next u)) :
    select next (relatched es a s) = (select next s).map (relatched es a) := by
  have hsel : (relatched es a s).sel = s.sel := rfl
  unfold select
  rw [hsel]
  split
  · rfl
  · refine go_relatched ((congrArg next ?_).trans (h _))
    simp [relatched]

theorem deselect_relatched {next : State → State} (h : ∀ u, next (relatched es a u) = relatched es a (next u)) :
    deselect next (relatched es a s) = (deselect next s).map (relatched es a) := by
  have hsel : (relatched es a s).sel = s.sel := rfl
  unfold deselect
  rw [hsel]
  split
  · refine go_relatched ((congrArg next ?_).trans (h _))
    simp [relatched]
  · rfl

theorem xfer_relatched {o : Byte} {next : Byte → State → State}
    (h : ∀ i u, next i (relatched es a u) = relatched es a (next i u)) :
    xfer o next (relatched es a s) = (xfer o next s).map (relatched es a) := by
  have hsel : (relatched es a s).sel = s.sel := rfl
  have henv : (relatched es a s).env = s.env := rfl
  unfold xfer
  rw [hsel, henv]
  split
  · split
    · rfl
    · refine go_relatched ((congrArg (next _) ?_).trans (h _ _))
      simp [relatched]
  · rfl

theorem now_relatched {next : Word → State → State} (h : ∀ t, ∀ u : State, u.arg = s.arg →
      next t (relatched es a u) = relatched es a (next t u)) :
    now next (relatched es a s) = (now next s).map (relatched es a) := by
  refine go_relatched ((congrArg (next _) ?_).trans (h _ _ rfl))
  simp [relatched]

/-! ## Lines -/

theorem lineInit_relatched (l : InitLabel) : lineInit l (relatched es a s) = (lineInit l s).map (relatched es a) := by
  cases l <;> simp only [lineInit]
  case i0 => exact select_relatched fun _ => rfl
  case i5 => exact deselect_relatched fun _ => rfl
  case i6 => exact go_relatched (respond_relatched .ok _ { s with cap := capOf s.ident })
  all_goals exact xfer_relatched fun _ _ => rfl

theorem lineWaitReady_relatched (l : WaitReadyLabel) :
    lineWaitReady l (relatched es a s) = (lineWaitReady l s).map (relatched es a) := by
  cases l <;> simp only [lineWaitReady]
  case q0 => rfl
  case q1 => exact go_relatched (ite_relatched (respondAny_relatched .ok s) (respondAny_relatched .fail s))

theorem lineWriteEnable_relatched (l : WriteEnableLabel) :
    lineWriteEnable l (relatched es a s) = (lineWriteEnable l s).map (relatched es a) := by
  cases l <;> simp only [lineWriteEnable]
  case e0 => rfl
  case e1 => exact go_relatched (ite_relatched (respondAny_relatched .ok s) (respondAny_relatched .fail s))

theorem lineWriteDisable_relatched (l : WriteDisableLabel) :
    lineWriteDisable l (relatched es a s) = (lineWriteDisable l s).map (relatched es a) := by
  cases l <;> simp only [lineWriteDisable]
  case f0 => rfl
  case f1 => exact go_relatched (respondAny_relatched .ok s)

theorem lineEraseChip_relatched (l : EraseChipLabel) :
    lineEraseChip l (relatched es a s) = (lineEraseChip l s).map (relatched es a) := by
  cases l <;> simp only [lineEraseChip]
  case c2 => exact select_relatched fun _ => rfl
  case c3 => exact xfer_relatched fun _ _ => rfl
  case c4 => exact deselect_relatched fun _ => rfl
  case c7 => exact go_relatched (respondAny_relatched .ok { s with env := s.env.settle .whole })
  all_goals rfl

/-- The bound check. -/
theorem inRange_relatched {p : Phase} :
    Move.go (if inRange (relatched es s.arg s).arg (relatched es s.arg s).cap then goto p (relatched es s.arg s)
      else respondAny .fail (relatched es s.arg s)) =
    (Move.go (if inRange s.arg s.cap then goto p s else respondAny .fail s)).map (relatched es s.arg) :=
  go_relatched (ite_relatched rfl (respondAny_relatched .fail s))

theorem lineEraseSector_relatched (l : EraseSectorLabel) :
    lineEraseSector l (relatched es s.arg s) = (lineEraseSector l s).map (relatched es s.arg) := by
  cases l <;> simp only [lineEraseSector]
  case s0 => exact inRange_relatched
  case s3 => exact select_relatched fun _ => rfl
  case s4 | s5 | s6 | s7 => exact xfer_relatched fun _ _ => rfl
  case s8 => exact deselect_relatched fun _ => rfl
  case s11 => exact go_relatched (respondAny_relatched .ok { s with env := s.env.settle (.sector s.arg) })
  all_goals rfl

theorem lineWritePage_relatched (l : WritePageLabel) :
    lineWritePage l (relatched es s.arg s) = (lineWritePage l s).map (relatched es s.arg) := by
  cases l <;> simp only [lineWritePage]
  case p0 => exact inRange_relatched
  case p3 => exact select_relatched fun _ => rfl
  case p4 | p5 | p6 | p7 => exact xfer_relatched fun _ _ => rfl
  case p8 => exact xfer_relatched fun _ _ => ite_relatched rfl rfl
  case p9 => exact deselect_relatched fun _ => rfl
  case p10 =>
    refine go_relatched ?_
    simp [goto, relatched]
  case p13 => exact go_relatched (respondAny_relatched .ok { s with env := s.env.settle (.page s.arg) })
  all_goals rfl

theorem lineBeginRead_relatched (l : BeginReadLabel) :
    lineBeginRead l (relatched es s.arg s) = (lineBeginRead l s).map (relatched es s.arg) := by
  cases l <;> simp only [lineBeginRead]
  case b0 => exact inRange_relatched
  case b2 => exact select_relatched fun _ => rfl
  case b3 | b4 | b5 | b6 => exact xfer_relatched fun _ _ => rfl
  case b8 => exact go_relatched (respondAny_relatched .ok s)
  all_goals rfl

theorem lineReadNext_relatched (l : ReadNextLabel) :
    lineReadNext l (relatched es a s) = (lineReadNext l s).map (relatched es a) := by
  cases l <;> simp only [lineReadNext]
  case n0 => exact xfer_relatched fun _ _ => rfl
  case n1 => exact go_relatched (respond_relatched .ok _ s)

theorem lineEndRead_relatched (l : EndReadLabel) :
    lineEndRead l (relatched es a s) = (lineEndRead l s).map (relatched es a) := by
  cases l <;> simp only [lineEndRead]
  case x0 => exact go_relatched (ite_relatched rfl (respondAny_relatched .ok s))
  case x1 => exact deselect_relatched fun u => respondAny_relatched .ok { u with rda := false }

theorem returnWait_relatched {c : WaitSite} (r : Bool) (h : takesArg c.code = true → s.arg = a) :
    returnWait c r (relatched es a s) = relatched es a (returnWait c r s) := by
  cases c
  case q0 => rfl
  case c5 => exact passOrForget_relatched r _ _ { s with res := r }
  case s9 | p11 =>
    obtain rfl := h rfl
    exact passOrForget_relatched r _ _ { s with res := r }
  all_goals exact passOrFail_relatched r _ { s with res := r }

theorem timeoutOf_relatched {c : WaitSite} (h : takesArg c.code = true → s.arg = a) :
    timeoutOf c (relatched es a s) = timeoutOf c s := by
  cases c
  case q0 =>
    obtain rfl := h rfl
    rfl
  all_goals rfl

theorem lineWait_relatched {c : WaitSite} (l : WaitLabel) (h : takesArg c.code = true → s.arg = a) :
    lineWait c l (relatched es a s) = (lineWait c l s).map (relatched es a) := by
  cases l <;> simp only [lineWait]
  case w0 =>
    rw [timeoutOf_relatched h]
    exact now_relatched (s := { s with tmo := timeoutOf c s }) fun _ _ _ => rfl
  case w1 => exact select_relatched fun _ => rfl
  case w2 | w3 => exact xfer_relatched fun _ _ => rfl
  case w4 => exact deselect_relatched fun _ => rfl
  case w5 => exact go_relatched (ite_relatched rfl (returnWait_relatched true h))
  case w6 => exact now_relatched fun _ _ hu => ite_relatched (returnWait_relatched false (hu ▸ h)) rfl

theorem lineEnable_relatched (c : EnableSite) (l : EnableLabel) :
    lineEnable c l (relatched es a s) = (lineEnable c l s).map (relatched es a) := by
  cases l <;> simp only [lineEnable]
  case v0 | v3 => exact select_relatched fun _ => rfl
  case v1 | v4 | v5 => exact xfer_relatched fun _ _ => rfl
  case v2 | v6 => exact deselect_relatched fun _ => rfl
  case v7 =>
    refine go_relatched ?_
    cases c
    case e0 => rfl
    all_goals exact passOrFail_relatched _ _ { s with res := writeEnabledBit s.sr }

theorem lineDisable_relatched (c : DisableSite) (l : DisableLabel) :
    lineDisable c l (relatched es a s) = (lineDisable c l s).map (relatched es a) := by
  cases l <;> simp only [lineDisable]
  case u0 => exact select_relatched fun _ => rfl
  case u1 => exact xfer_relatched fun _ _ => rfl
  case u2 => exact deselect_relatched fun _ => rfl

/-- A line of a command does the same with another word in the trace, and with another ARG where the command
takes none. -/
theorem line_relatched {code : BitVec 4} (hj : s.ph.job = .command code) (h : takesArg code = true → s.arg = a) :
    line (relatched es a s) = (line s).map (relatched es a) := by
  have hph : (relatched es a s).ph = s.ph := rfl
  unfold line
  rw [hph]
  split <;> rename_i hp <;> rw [hp] at hj <;> cases hj
  · exact lineInit_relatched _
  · exact lineWaitReady_relatched _
  · exact lineWriteEnable_relatched _
  · exact lineWriteDisable_relatched _
  · exact lineEraseChip_relatched _
  · obtain rfl := h rfl
    exact lineEraseSector_relatched _
  · obtain rfl := h rfl
    exact lineWritePage_relatched _
  · obtain rfl := h rfl
    exact lineBeginRead_relatched _
  · exact lineReadNext_relatched _
  · exact lineEndRead_relatched _
  · exact lineWait_relatched _ h
  · exact lineEnable_relatched _ _
  · exact lineDisable_relatched _ _

end

end Sys2Proof.Machine
end

section
/-! SUPPORT. Runs of two accepted words of a command with the same operand, resets and waits included
(spec/30_encoding.md R96). -/

namespace Sys2Proof.Machine

open Sys2Proof.Claims

/-- What a state is when ARG and the command words of the trace are not looked at. -/
def blankEvent : Event → Event
  | .command _ => .command 0
  | e => e

theorem blankWord_next (t : State) :
    blankWord (.next t) = .next { t with arg := 0, trace := t.trace.map blankEvent } := rfl

theorem blankWord_relatched {es es' : List Event} (hes : es.map blankEvent = es'.map blankEvent) (a a' : Addr)
    (s : State) : blankWord (.next (relatched es a s)) = blankWord (.next (relatched es' a' s)) := by
  simp [blankWord_next, relatched, hes]

/-- SEQ is idle, or in a command whose ARG is `a` if it takes one. -/
def Latched (code : BitVec 4) (a : Addr) (s : State) : Prop :=
  s.ph = .idle ∨ s.ph.job = .command code ∧ (takesArg code = true → s.arg = a)

theorem Latched.line {code : BitVec 4} {a : Addr} {s t : State} (h : Latched code a s) (hp : s.ph ≠ .idle)
    (hl : line s = .go t) : Latched code a t := by
  obtain ⟨hj, harg⟩ := h.resolve_left hp
  have hf := line_frame hl
  exact hf.job.imp_right fun hjob => ⟨hjob.trans hj, fun htakes => hf.arg.trans (harg htakes)⟩

/-- A reset forgets ARG; what it makes of ENV depends on ARG only in the commands that take one (R200, R201). -/
theorem takeReset_relatched {code : BitVec 4} {es : List Event} {a : Addr} {s : State} (h : Latched code a s) :
    takeReset (relatched es a s) = relatched es 0 (takeReset s) := by
  have hregion : s.ph.region a = s.ph.region s.arg := by
    rcases h with hp | ⟨hj, harg⟩
    · rw [hp]
      rfl
    · by_cases htakes : takesArg code = true
      · rw [harg htakes]
      · cases hp : s.ph with
        | eraseSector l => simp_all [takesArg]
        | writePage l => simp_all [takesArg]
        | inWait c l => cases c <;> simp_all [takesArg, WaitSite.code, Phase.region]
        | inEnable c l => cases c <;> simp_all [takesArg, EnableSite.code, Phase.region]
        | inDisable c l => cases c <;> simp_all [takesArg, DisableSite.code, Phase.region]
        | _ => rfl
  have henv : resetEnv (relatched es a s) = resetEnv s := by
    simp only [resetEnv, relatched, hregion]
    rfl
  unfold takeReset
  rw [henv]
  simp [relatched]

/-- A step of two words goes the same way. -/
theorem tick_relatched {code : BitVec 4} {es : List Event} {a : Addr} {s : State} (h : Latched code a s)
    (hp : s.ph ≠ .idle) (hr : rstNow s = false) :
    tick (relatched es a s) = (line (sampled s)).map (relatched es a) := by
  obtain ⟨hj, harg⟩ := h.resolve_left hp
  have hr' : rstNow (relatched es a s) = false := hr
  rw [tick, hr']
  exact line_relatched (s := sampled s) hj harg

/-- Runs of two words differ in ARG and in the words. -/
theorem run_relatched {code : BitVec 4} {es es' : List Event} (hes : es.map blankEvent = es'.map blankEvent) (n : Nat) :
    ∀ (a a' : Addr) (s : State), Latched code a s → Latched code a' s →
      blankWord (run n (relatched es a s)) = blankWord (run n (relatched es' a' s)) := by
  induction n with
  | zero => exact fun a a' s _ _ => blankWord_relatched hes a a' s
  | succ n ih =>
    intro a a' s h h'
    have hidle : ∀ es a, (relatched es a s).ph = s.ph := fun _ _ => rfl
    by_cases hp : s.ph = .idle
    · rw [run_idle _ ((hidle es a).trans hp), run_idle _ ((hidle es' a').trans hp)]
      exact blankWord_relatched hes a a' s
    simp only [run, hidle, if_neg hp]
    cases hr : rstNow s
    · rw [tick_relatched h hp hr, tick_relatched h' hp hr]
      have hs : Latched code a (sampled s) := h
      have hs' : Latched code a' (sampled s) := h'
      cases hl : line (sampled s) with
      | go t => exact ih a a' t (hs.line hp hl) (hs'.line hp hl)
      | wait t =>
        obtain ⟨o, -, -, rfl, -⟩ := line_wait (s := sampled s) hp hl
        by_cases hquiet : (presenting o (sampled s)).rstIn = []
        · exact (congrArg blankWord (if_pos hquiet)).trans
            ((blankWord_relatched hes a a' _).trans (congrArg blankWord (if_pos hquiet).symm))
        · exact (congrArg blankWord (if_neg hquiet)).trans
            ((ih a a' (presenting o (sampled s)) h h').trans (congrArg blankWord (if_neg hquiet).symm))
      | stop f => rfl
    · have hreset : ∀ {es a}, Latched code a s → tick (relatched es a s) = .go (relatched es 0 (takeReset s)) :=
        fun hlatched => (if_pos hr).trans (congrArg Move.go (takeReset_relatched hlatched))
      rw [hreset h, hreset h']
      exact ih 0 0 (takeReset s) (.inl rfl) (.inl rfl)

/-- Two words of a command with the same operand, if it takes one, have the same outcome. -/
theorem exec_sameOperand {i i' : Instr} (hi : isHostCommand i = true) (hi' : isHostCommand i' = true)
    (hop : cwOp (commandWord i') = cwOp (commandWord i)) {s : State} (hpage : pagePort i' s = pagePort i s)
    (harg : takesArg (cwOp (commandWord i)) = true → cwArg (commandWord i) = cwArg (commandWord i')) :
    blankWord (exec i s) = blankWord (exec i' s) := by
  cases hready : cmdReady s
  · rw [exec_command_not_ready hi hready, exec_command_not_ready hi' hready]
  rw [exec_command hi hready, exec_command hi' hready, hop]
  have haccepted : accepted i s = relatched (s.trace ++ [.command (commandWord i)]) (cwArg (commandWord i))
      { accepted i s with trace := [] } := by
    simp [accepted, accept, relatched]
  have haccepted' : accepted i' s = relatched (s.trace ++ [.command (commandWord i')]) (cwArg (commandWord i'))
      { accepted i s with trace := [] } := by
    simp [accepted, accept, relatched, hop, hpage]
  rw [haccepted, haccepted']
  have hes : (s.trace ++ [Event.command (commandWord i)]).map blankEvent =
      (s.trace ++ [Event.command (commandWord i')]).map blankEvent := by
    simp [blankEvent]
  cases hadmits : admits (cwOp (commandWord i)) s.rda
  · rw [dispatch_refused _ hadmits, dispatch_refused _ hadmits, respondAny_relatched, respondAny_relatched]
    exact run_relatched (code := cwOp (commandWord i)) hes _ _ _ _ (.inl rfl) (.inl rfl)
  · rw [dispatch_admitted _ hadmits, dispatch_admitted _ hadmits]
    exact run_relatched hes _ _ _ (goto (firstLabel (cwOp (commandWord i))) { accepted i s with trace := [] })
      (.inr ⟨firstLabel_job hi, fun _ => rfl⟩) (.inr ⟨firstLabel_job hi, harg⟩)

/-- Settles O18: RSV stands only in the word, and ARG is an operand only of the form-A and form-T commands. -/
theorem ignoredFieldsHaveNoEffect : Obligations.IgnoredFieldsHaveNoEffect := by
  intro s r r' a a' buf
  refine ⟨?_, ?_, ?_, ?_, ?_, ?_, ?_, ?_, ?_, ?_⟩ <;>
    exact exec_sameOperand rfl rfl (by simp [commandWord]) rfl (by simp [commandWord, takesArg])

end Sys2Proof.Machine
end
